-- ==== Sys2Proof/Word.lean ====
section
/-! DEFINITION. The machine's two word types: a byte of host memory (spec R8) and a 64-bit host register (spec R22).
Every other number of the engine is a natural number (spec R9). -/

namespace Sys2Proof

/-- A byte, 0x00 to 0xFF (R8). -/
abbrev Byte := BitVec 8

/-- The contents of a host register: every register is 64 bits wide (R22). -/
abbrev Word := BitVec 64

end Sys2Proof
end

