-- ==== Sys2Proof/Config.lean ====
section
/-! DEFINITION. What an implementation fixes: the constants and parameters of spec R6, and the free values the spec
leaves open (R63 (c), R184 step 3, R210). -/

namespace Sys2Proof.Config

/-- `HEADER_BYTES` (R6, R71). -/
def headerBytes : Nat := 8

/-- `MIN_MATCH` (R6, R129). -/
def minMatch : Nat := 4

/-- `MAX_OFFSET`, an exclusive bound (R6, C5). -/
def maxOffset : Nat := 32768

/-- `TABLE_MIN` (R6, R124). -/
def tableMin : Nat := 256

/-- `TABLE_MAX` (R6, R35, R124). -/
def tableMax : Nat := 16384

/-- `HASH_MUL` (R6, R127). -/
def hashMul : BitVec 32 := 0x1e35a7bd

/-- `INLINE_LIT_MAX` (R6, R74). -/
def inlineLitMax : Nat := 60

/-- `COPY1_MAX_OFFSET` (R6, R76). -/
def copy1MaxOffset : Nat := 2047

/-- `COPY2_MAX_LEN` (R6, R77). -/
def copy2MaxLen : Nat := 64

/-- The parameters a model takes as arguments (R6, D2, D4, D20). They stand in the state, which no step changes them in,
so that a statement about every state is a statement about every parameter value. -/
structure Params where
  /-- `ADDR_BITS`, the width of a host byte address (R6, R50, D20). -/
  addrBits : Nat
  /-- `REG_BASE`, the base address of the register block (R60, D2). -/
  regBase : Nat
  /-- `MAX_SRC_LEN`, the largest source COMPRESS accepts (R6, R7, D4). -/
  maxSrcLen : Nat
deriving DecidableEq, Repr

/-- `ADDR_BITS` and `MAX_SRC_LEN` at the spec's defaults (R6). `REG_BASE` is OPEN: DESIGN CHOICE 0 (log 6), safe for the
statements, which hold for every value of the field. -/
def Params.default : Params := { addrBits := 64, regBase := 0, maxSrcLen := 65536 }

/-- `MAX_SRC_LEN` lies in its legal range 0 to 2^31 - 2 (R6, R7). -/
abbrev Params.Legal (p : Params) : Prop := p.maxSrcLen ≤ 2 ^ 31 - 2

/-- The free values of the machine: the k-th byte the spec leaves unspecified (R63 (c), R184 step 3, R210; U1, U2, U5) is
`freeByte k`, of which nothing can be proved (log 3). -/
opaque freeByte : Nat → Byte

end Sys2Proof.Config
end

