-- ==== Sys2Proof/Syntax.lean ====
section
/-! DEFINITION. The instructions: one constructor for each row of spec/opcode_table.json. The first eight are the element
forms DECOMPRESS executes (spec R74 to R78, R83), the last three the commands a host writes to `CMD` (spec R84).
A literal's data bytes are no part of the instruction: R100 keeps the variant apart from its bytes. -/

namespace Sys2Proof

/-- Elements and commands, with the fields their encodings hold. -/
inductive Instr where
  /-- `LIT`: `v` is `tag[7:2]`, below 60 (R74, R155). -/
  | lit (v : BitVec 6)
  /-- `LIT.X1`: `ext` is the one extension byte (R74, R156). -/
  | litX1 (ext : BitVec 8)
  /-- `LIT.X2`: `ext` is the two extension bytes, little-endian (R74, R157). -/
  | litX2 (ext : BitVec 16)
  /-- `LIT.X3`: `ext` is the three extension bytes, little-endian (R74, R158). -/
  | litX3 (ext : BitVec 24)
  /-- `LIT.X4`: `ext` is the four extension bytes, little-endian (R74, R159). -/
  | litX4 (ext : BitVec 32)
  /-- `COPY1`: `len` is `tag[4:2]`, `off` the 11-bit offset (R76, R161). -/
  | copy1 (len : BitVec 3) (off : BitVec 11)
  /-- `COPY2`: `len` is `tag[7:2]`, `off` the 16-bit offset (R77, R162). -/
  | copy2 (len : BitVec 6) (off : BitVec 16)
  /-- `COPY4`: `rest` is `tag[7:2]`, which the engine gives no meaning (R78, R163). -/
  | copy4 (rest : BitVec 6)
  /-- `COMPRESS`: `CMD.OP = 0x01` (R84, R120). -/
  | compress
  /-- `DECOMPRESS`: `CMD.OP = 0x02` (R84, R150). -/
  | decompress
  /-- `CMD.RESERVED`: any other `CMD.OP` (R84, R188). -/
  | cmdReserved (op : BitVec 8)
deriving DecidableEq, Repr

/-- The two encoding spaces of 30_encoding.md: element bytes in the source window, and command codes written to `CMD`. -/
inductive Space where
  | element
  | command
deriving DecidableEq, Repr

/-- The space an instruction is encoded in. -/
def Instr.space : Instr → Space
  | .lit _ => .element
  | .litX1 _ => .element
  | .litX2 _ => .element
  | .litX3 _ => .element
  | .litX4 _ => .element
  | .copy1 _ _ => .element
  | .copy2 _ _ => .element
  | .copy4 _ => .element
  | .compress => .command
  | .decompress => .command
  | .cmdReserved _ => .command

end Sys2Proof
end

