-- ==== Sys2Proof/WellFormed.lean ====
section
/-! DEFINITION. Which instructions an encoding stands for: the two constraints of spec/opcode_table.json that the field
widths do not already say. -/

namespace Sys2Proof

/-- `LIT` holds `v < 60` (codes 60 to 63 are the extension forms, R74, R83); `CMD.RESERVED` holds an `OP` that is neither
COMPRESS's nor DECOMPRESS's (R84). Every other field may take every value of its width. -/
def Instr.wellFormed : Instr → Bool
  | .lit v => decide (v.toNat < Config.inlineLitMax)
  | .litX1 _ => true
  | .litX2 _ => true
  | .litX3 _ => true
  | .litX4 _ => true
  | .copy1 _ _ => true
  | .copy2 _ _ => true
  | .copy4 _ => true
  | .compress => true
  | .decompress => true
  | .cmdReserved op => op != 0x01#8 && op != 0x02#8

end Sys2Proof
end

