-- ==== Sys2Proof/Decode.lean ====
section
/-! DEFINITION. Byte order (spec R10), the decoder from bytes to instructions (spec R72 to R79, R84, R108 to R111), total
and rejecting by name, and after it the encoder (spec R74 to R77, R84, R101, R104, R105). -/

namespace Sys2Proof

/-- `le(b0, b1, ...)`: little-endian assembly (R10). -/
def le : List Byte → Nat
  | [] => 0
  | b :: bs => b.toNat + 256 * le bs

/-- `le_k(x)`: the `k` low bytes of `x`, lowest first (R10). -/
def leBytes : Nat → Nat → List Byte
  | 0, _ => []
  | k + 1, x => BitVec.ofNat 8 x :: leBytes k (x / 256)

/-- `tag[1:0]`, the element type (R72). -/
def tagType (tag : Byte) : BitVec 2 := tag.extractLsb' 0 2

/-- `tag[7:2]`, the type's own bits (R72). -/
def tagHigh (tag : Byte) : BitVec 6 := tag.extractLsb' 2 6

/-- How many extension or offset bytes follow the tag (R74, R76, R77, R79). A Copy-4 tag reads none (R78, R111).
The type codes are R73's: PRESUMED by the spec from the public format (log 10). -/
def extCount (tag : Byte) : Nat :=
  match (tagType tag).toNat with
  | 0 => if (tagHigh tag).toNat < Config.inlineLitMax then 0 else (tagHigh tag).toNat - 59
  | 1 => 1
  | 2 => 2
  | _ => 0

/-- The literal form of `v = tag[7:2]` with its extension bytes (R74, R108). -/
def literalOf (v : BitVec 6) (ext : List Byte) : Instr :=
  if v.toNat < Config.inlineLitMax then .lit v
  else if v.toNat = 60 then .litX1 (BitVec.ofNat 8 (le ext))
  else if v.toNat = 61 then .litX2 (BitVec.ofNat 16 (le ext))
  else if v.toNat = 62 then .litX3 (BitVec.ofNat 24 (le ext))
  else .litX4 (BitVec.ofNat 32 (le ext))

/-- The element a tag and its extension bytes stand for (R73, R83): one case for each type, so every tag byte is decoded
(R164). Copy-1 puts `tag[7:5]` above its byte (R76); Copy-2's offset is little-endian (R77). -/
def elementOf (tag : Byte) (ext : List Byte) : Instr :=
  match (tagType tag).toNat with
  | 0 => literalOf (tagHigh tag) ext
  | 1 => .copy1 (tag.extractLsb' 2 3) (tag.extractLsb' 5 3 ++ BitVec.ofNat 8 (le ext))
  | 2 => .copy2 (tagHigh tag) (BitVec.ofNat 16 (le ext))
  | _ => .copy4 (tagHigh tag)

/-- Why bytes hold no instruction. -/
inductive DecodeError where
  /-- There is no first byte. -/
  | noTag
  /-- The extension or offset bytes (R108 to R110), or the bytes of a `CMD` word, are cut off. -/
  | truncated
deriving DecidableEq, Repr

/-- The element at the head of the bytes, and the bytes after its tag and extension (R79, R108 to R111). -/
def decodeElement : List Byte → Except DecodeError (Instr × List Byte)
  | [] => .error .noTag
  | tag :: rest =>
    if rest.length < extCount tag then .error .truncated
    else .ok (elementOf tag (rest.take (extCount tag)), rest.drop (extCount tag))

/-- The command of a word written to `CMD`: `OP` is bits [7:0], the other bits are ignored (R23, R84). -/
def decodeCommand (w : Word) : Instr :=
  let op : BitVec 8 := w.extractLsb' 0 8
  if op = 0x01#8 then .compress
  else if op = 0x02#8 then .decompress
  else .cmdReserved op

/-- The decoder of both spaces: an element's bytes as they stand in the source window, or the eight bytes of a `CMD` word. -/
def decode (sp : Space) (bs : List Byte) : Except DecodeError (Instr × List Byte) :=
  match sp with
  | .element => decodeElement bs
  | .command =>
    if bs.length < 8 then .error .truncated
    else .ok (decodeCommand (BitVec.ofNat 64 (le (bs.take 8))), bs.drop 8)

/-- The bytes of an instruction: tag and extension bytes of an element (R74, R76, R77, R101, R104, R105), the eight bytes of
the `CMD` word of a command (R84; its ignored bits 0). For `COPY4` the tag is the whole of what the engine reads (R78). -/
def encode : Instr → List Byte
  | .lit v => [v ++ 0b00#2]
  | .litX1 ext => 0xF0#8 :: leBytes 1 ext.toNat
  | .litX2 ext => 0xF4#8 :: leBytes 2 ext.toNat
  | .litX3 ext => 0xF8#8 :: leBytes 3 ext.toNat
  | .litX4 ext => 0xFC#8 :: leBytes 4 ext.toNat
  | .copy1 len off => [off.extractLsb' 8 3 ++ len ++ 0b01#2, off.extractLsb' 0 8]
  | .copy2 len off => (len ++ 0b10#2) :: leBytes 2 off.toNat
  | .copy4 rest => [rest ++ 0b11#2]
  | .compress => leBytes 8 0x01
  | .decompress => leBytes 8 0x02
  | .cmdReserved op => leBytes 8 op.toNat

/-- Which space a table word is of (log 9). The table numbers both spaces' rows as words, and two words of one byte stand in
both: 0x01 is COPY1's least tag and COMPRESS's code, 0x02 COPY2's and DECOMPRESS's. The row with the longer mask is taken, as
the table's LIT row does for its neighbours: 0x01 and 0x02 alone in one byte are the commands. A word of no fixed bits is
CMD.RESERVED's, a word longer than an element's header (five bytes) is a `CMD` word, and every other word is an element. -/
def tableSpace (nbits w : Nat) : Space :=
  if nbits = 0 ∨ 40 < nbits then .command
  else if nbits ≤ 8 ∧ (w = 1 ∨ w = 2) then .command
  else .element

/-- The instruction the decoder reads from a word of the opcode table: bit 0 is the least significant bit of the first byte,
and the bits above `nbits` are 0. -/
def decodeTableWord (nbits w : Nat) : Option Instr :=
  match decode (tableSpace nbits w) (leBytes 8 (w % 2 ^ nbits)) with
  | .ok (i, _) => some i
  | .error _ => none

end Sys2Proof
end

