-- ==== Sys2Proof/Machine/State.lean ====
section
/-! DEFINITION. The state of the machine as plain data (spec 10_state.md), why a step can stop, and the state after reset
(spec R42). -/

namespace Sys2Proof.Machine

/-- `PHASE` (R34). -/
inductive Phase where
  | idle
  | compressing
  | decompressing
deriving DecidableEq, Repr

/-- The fields of `STATUS` (R28). Its bits [3] and [63:16] read 0 and store nothing. -/
structure Status where
  /-- Bit [0]: 1 while a command runs. -/
  busy : Bool
  /-- Bit [1]: 1 once a command has completed, until the next one starts. -/
  done : Bool
  /-- Bit [2]: 1 if the last completed command ended with an error. -/
  err : Bool
  /-- Bits [7:4], `ERR_KIND` (R182). -/
  kind : BitVec 4
  /-- Bits [15:8], `ERR_DETAIL` (R183). -/
  detail : BitVec 8
deriving DecidableEq, Repr

/-- `STATUS = 0` (R42). -/
def Status.zero : Status := { busy := false, done := false, err := false, kind := 0, detail := 0 }

/-- The four buffer registers (R24 to R27); the latches of R31 hold the same four values. -/
structure Buffers where
  srcAddr : Word
  srcLen : Word
  dstAddr : Word
  dstCap : Word
deriving DecidableEq, Repr

/-- All four registers 0 (R42). -/
def Buffers.zero : Buffers := { srcAddr := 0, srcLen := 0, dstAddr := 0, dstCap := 0 }

/-- The compressor's cursors (R37). -/
structure CompCursors where
  /-- The scan position in the source. -/
  s : Nat
  /-- The start of the pending literal run. -/
  lit : Nat
  /-- The match candidate position. -/
  t : Nat
  /-- The start of the current match. -/
  s0 : Nat
  /-- The number of bytes written to the destination. -/
  d : Nat
deriving DecidableEq, Repr

/-- All cursors 0: DESIGN CHOICE, R42 leaves them unspecified (log 2). -/
def CompCursors.zero : CompCursors := { s := 0, lit := 0, t := 0, s0 := 0, d := 0 }

/-- The decompressor's cursors and value (R38). -/
structure DecCursors where
  /-- The position of the next unread source byte: the program-counter analogue (R41). -/
  s : Nat
  /-- The number of output bytes produced. -/
  d : Nat
  /-- The declared uncompressed length. -/
  n : Nat
deriving DecidableEq, Repr

/-- All cursors 0: DESIGN CHOICE, R42 leaves them unspecified (log 2). -/
def DecCursors.zero : DecCursors := { s := 0, d := 0, n := 0 }

/-- Host memory (R50): (address, byte) pairs at strictly rising addresses. An unlisted address has no value (log 1). -/
structure Memory where
  cells : List Host.Cell
deriving DecidableEq, Repr

/-- The hash table (R35): (index, value) pairs at strictly rising indexes, none with value 0. An unlisted entry is 0. -/
structure Table where
  entries : List (Nat × Nat)
deriving DecidableEq, Repr

/-- What the HOST agent can do (R20, R213, R221, R210). Register addresses are REG_BASE plus an offset of R22. -/
inductive HostAction where
  /-- Read `bytes` bytes of the register block. -/
  | regRead (addr bytes : Nat)
  /-- Write `bytes` bytes of the register block. -/
  | regWrite (addr bytes : Nat) (value : Word)
  /-- Read `STATUS` until `BUSY = 0` (R213 step 5), the engine moving between the reads. -/
  | poll
  /-- Read one byte of host memory. -/
  | memRead (addr : Nat)
  /-- Write one byte of host memory. -/
  | memWrite (addr : Nat) (value : Byte)
  /-- Let the engine take one step. -/
  | engine
  /-- Assert the reset input (R210). -/
  | reset
deriving DecidableEq, Repr

/-- Error kinds (R182). -/
inductive ErrKind where
  | invalidInput
  | corruptInput
  /-- Reserved: the engine never reports it (R189). -/
  | unsupportedInput
  | internalError
deriving DecidableEq, Repr

/-- Error details: every cause the engine reports (R183). -/
inductive ErrDetail where
  | badCommand
  | srcTooLong
  | dstTooSmall
  | headerTruncated
  | declaredLenTooBig
  | tagTruncated
  | litDstOverrun
  | litSrcOverrun
  | copyOffsetZero
  | copyOffsetBeforeStart
  | copyDstOverrun
  | copy4Unsupported
  | lengthMismatch
  | outputOverrun
deriving DecidableEq, Repr

/-- Why the machine stops with a fault. Errors of a command are no faults: they complete it (R180, R184). -/
inductive Fault where
  /-- The engine or the host read a byte of host memory that nothing has written. Raised by every read of memory; safe: the
  hardware would read some byte and go on (log 1). -/
  | unwrittenRead
  /-- The host accessed an address at or above 2^ADDR_BITS, which does not exist (R50). Raised by `memRead` and `memWrite`;
  safe. -/
  | noSuchAddress
deriving DecidableEq, Repr

/-- Runs the model gives no meaning. -/
inductive Refusal where
  /-- An instruction without a meaning, by its mnemonic. Raised by `exec`'s refused arms, of which there are none; safe. -/
  | notModelled (mnemonic : String)
  /-- A command starts with a window that does not lie below 2^ADDR_BITS (R54 (a), U6). Raised by the command start; safe. -/
  | windowOutsideMemory
  /-- A command starts with overlapping windows (R54 (b), U6). Raised by the command start; safe. -/
  | windowsOverlap
  /-- A register access of a width other than 64 bits, or misaligned (R30, R54 (c), U7). Raised by `regRead` and `regWrite`;
  safe. -/
  | badRegisterAccess
  /-- A register access outside the block's 64 bytes, where the engine has nothing (R30, R196; log 8). Raised by `regRead` and
  `regWrite`; safe. -/
  | outsideRegisterBlock
  /-- The host writes a byte of a window before it has observed `DONE = 1` (R54 (d), R214, U6). Raised by `memWrite`; safe. -/
  | windowWrittenDuringCommand
deriving DecidableEq, Repr

/-- The whole state: the spec's (10_state.md, R50), then the model's own fields. -/
structure State where
  /-- `SRC_ADDR`, `SRC_LEN`, `DST_ADDR`, `DST_CAP` (R24 to R27). -/
  regs : Buffers
  /-- `STATUS` (R28). -/
  status : Status
  /-- `RESULT_LEN` (R29). -/
  resultLen : Word
  /-- `PHASE` (R34). -/
  phase : Phase
  /-- `TABLE` (R35). -/
  table : Table
  /-- `TABLE_SIZE` (R36). -/
  tableSize : Nat
  /-- `SHIFT` (R36). -/
  shift : Nat
  /-- The compressor's cursors (R37). -/
  comp : CompCursors
  /-- The decompressor's cursors and `n` (R38). -/
  dec : DecCursors
  /-- The latched buffer registers (R31, R39). -/
  latch : Buffers
  /-- Host memory (R50). -/
  mem : Memory
  /-- The parameters (R6), which no step changes. -/
  cfg : Config.Params
  /-- MODEL'S OWN: what the HOST agent does next, in order (log 4). -/
  host : List HostAction
  /-- MODEL'S OWN: the value the host's last read returned (log 4). -/
  hostRead : Word
  /-- MODEL'S OWN: the windows of every command since the host last observed a completion (R214, log 7). -/
  unobserved : List Buffers
  /-- MODEL'S OWN: how many free values have been handed out (log 3). -/
  freeCount : Nat
deriving DecidableEq, Repr

/-- The state after reset (R42, R210): what R42 states, and for what it leaves unspecified (the table, its parameters, the
cursors, the latches) the values of log 2; nothing written in memory (log 1); a host with nothing to do (log 4). -/
def State.reset : State where
  regs := Buffers.zero
  status := Status.zero
  resultLen := 0
  phase := .idle
  table := { entries := [] }
  tableSize := 0
  shift := 0
  comp := CompCursors.zero
  dec := DecCursors.zero
  latch := Buffers.zero
  mem := { cells := [] }
  cfg := Config.Params.default
  host := []
  hostRead := 0
  unobserved := []
  freeCount := 0

/-- The three outcomes of a step of this machine. -/
abbrev Outcome := Host.Outcome State Fault Refusal

/-- What the machine does next: an outcome already reached, or an instruction to run in a state. -/
inductive Move where
  | done (o : Outcome)
  | run (i : Instr) (s : State)

end Sys2Proof.Machine
end

