-- ==== Sys2Proof/Machine/Flags.lean ====
section
/-! DEFINITION. `STATUS`: the word a host reads (spec R28), the error codes (spec R182, R183), and the values command start
and the two completions give it (spec R181, R184, R186). -/

namespace Sys2Proof.Machine

/-- `STATUS` as the host reads it: bit [3] and bits [63:16] read 0 (R28). -/
def Status.word (st : Status) : Word :=
  0#48 ++ st.detail ++ st.kind ++ 0#1 ++ BitVec.ofBool st.err ++ BitVec.ofBool st.done ++ BitVec.ofBool st.busy

/-- The code of an error kind in `STATUS.ERR_KIND` (R182). -/
def ErrKind.code : ErrKind → BitVec 4
  | .invalidInput => 1
  | .corruptInput => 2
  | .unsupportedInput => 3
  | .internalError => 4

/-- The code of an error detail in `STATUS.ERR_DETAIL` (R183). -/
def ErrDetail.code : ErrDetail → BitVec 8
  | .badCommand => 0x01
  | .srcTooLong => 0x02
  | .dstTooSmall => 0x03
  | .headerTruncated => 0x10
  | .declaredLenTooBig => 0x11
  | .tagTruncated => 0x12
  | .litDstOverrun => 0x13
  | .litSrcOverrun => 0x14
  | .copyOffsetZero => 0x15
  | .copyOffsetBeforeStart => 0x16
  | .copyDstOverrun => 0x17
  | .copy4Unsupported => 0x18
  | .lengthMismatch => 0x19
  | .outputOverrun => 0x20

/-- The kind a detail is reported with (R183). -/
def ErrDetail.kind : ErrDetail → ErrKind
  | .badCommand => .invalidInput
  | .srcTooLong => .invalidInput
  | .dstTooSmall => .invalidInput
  | .headerTruncated => .corruptInput
  | .declaredLenTooBig => .corruptInput
  | .tagTruncated => .corruptInput
  | .litDstOverrun => .corruptInput
  | .litSrcOverrun => .corruptInput
  | .copyOffsetZero => .corruptInput
  | .copyOffsetBeforeStart => .corruptInput
  | .copyDstOverrun => .corruptInput
  | .copy4Unsupported => .corruptInput
  | .lengthMismatch => .corruptInput
  | .outputOverrun => .internalError

/-- Command start: `STATUS <- 0`, then `BUSY <- 1` (R181 step 2). -/
def Status.started : Status := { Status.zero with busy := true }

/-- Error completion: `ERR_KIND`, `ERR_DETAIL`, `ERR <- 1`, `DONE <- 1`, `BUSY <- 0` (R184 step 1). -/
def Status.failed (e : ErrDetail) : Status :=
  { busy := false, done := true, err := true, kind := e.kind.code, detail := e.code }

/-- Success completion: `DONE <- 1`, `BUSY <- 0`; the error fields stay (R186). -/
def Status.succeeded (st : Status) : Status := { st with busy := false, done := true }

end Sys2Proof.Machine
end

