-- ==== Sys2Proof/Machine/Operands.lean ====
section
/-! DEFINITION. Operand assembly (spec R80): the lengths and offsets the element forms' fields stand for, the canonical
forms the encoder chooses (spec R101, R106), and the sizes computed from a length (spec R121, R124). -/

namespace Sys2Proof.Machine

/-- `LIT`: length `V + 1` (R155). -/
def litLength (v : BitVec 6) : Nat := v.toNat + 1

/-- `LIT.X1` to `LIT.X4`: length `m + 1`, up to 2^32 and not truncated (R156 to R159). -/
def litExtLength {w : Nat} (ext : BitVec w) : Nat := ext.toNat + 1

/-- `COPY1`: length `tag[4:2] + 4` (R161). -/
def copy1Length (len : BitVec 3) : Nat := len.toNat + 4

/-- `COPY2`: length `tag[7:2] + 1` (R162). -/
def copy2Length (len : BitVec 6) : Nat := len.toNat + 1

/-- The literal element the encoder writes for a run of `len` bytes: the smallest class that holds `len - 1` (R101, R75). -/
def canonicalLiteral (len : Nat) : Instr :=
  let m := len - 1
  if m < Config.inlineLitMax then .lit (BitVec.ofNat 6 m)
  else if m < 2 ^ 8 then .litX1 (BitVec.ofNat 8 m)
  else if m < 2 ^ 16 then .litX2 (BitVec.ofNat 16 m)
  else if m < 2 ^ 24 then .litX3 (BitVec.ofNat 24 m)
  else .litX4 (BitVec.ofNat 32 m)

/-- Whether the encoder writes a copy as Copy-1 (R106). -/
abbrev fitsCopy1 (offset length : Nat) : Prop := 4 ≤ length ∧ length ≤ 11 ∧ offset < Config.copy1MaxOffset + 1

/-- The copy elements of `emit_copy(offset, length)` (R106), `fuel` bounding the number of pieces: the Copy-1 test is applied
to the whole remaining length at every piece (D24, log 12). -/
def copyPieces (fuel offset length : Nat) : List Instr :=
  match fuel with
  | 0 => []
  | fuel + 1 =>
    if length = 0 then []
    else if fitsCopy1 offset length then [.copy1 (BitVec.ofNat 3 (length - 4)) (BitVec.ofNat 11 offset)]
    else
      let piece := min length Config.copy2MaxLen
      .copy2 (BitVec.ofNat 6 (piece - 1)) (BitVec.ofNat 16 offset) :: copyPieces fuel offset (length - piece)

/-- The bytes of `emit_copy(offset, length)` (R106). -/
def copyBytes (offset length : Nat) : List Byte := (copyPieces length offset length).flatMap encode

/-- The bytes of `emit_literal(bytes)` (R101). A run longer than 2^32 raises SRC_TOO_LONG, which cannot occur (R102). -/
def literalBytes (bytes : List Byte) : Except ErrDetail (List Byte) :=
  if 2 ^ 32 < bytes.length then .error .srcTooLong
  else .ok (encode (canonicalLiteral bytes.length) ++ bytes)

/-- `max_compressed_len(n) = 32 + n + floor(n/6)` (R6, R121). -/
def maxCompressedLen (n : Nat) : Nat := 32 + n + n / 6

/-- The doubling loop of `table_params`, from a size and a shift, `fuel` bounding its turns (R124). -/
def tableParamsFrom (fuel size shift len : Nat) : Nat × Nat :=
  match fuel with
  | 0 => (size, shift)
  | fuel + 1 =>
    if size < Config.tableMax ∧ size < len then tableParamsFrom fuel (size * 2) (shift - 1) len
    else (size, shift)

/-- `table_params(L)`: `TABLE_SIZE` and `SHIFT` (R124); six doublings take 256 to 16384. -/
def tableParams (len : Nat) : Nat × Nat := tableParamsFrom 6 Config.tableMin 24 len

end Sys2Proof.Machine
end

