-- ==== Sys2Proof/Machine/Sparse.lean ====
section
/-! DEFINITION. Finite maps from natural numbers as lists of pairs in rising order of key: the form of memory and of the
hash table. -/

namespace Sys2Proof.Machine

/-- The value listed at `k`. -/
def sparseGet {α : Type} (k : Nat) : List (Nat × α) → Option α
  | [] => none
  | (j, v) :: rest => if j = k then some v else sparseGet k rest

/-- The list with `v` at `k`: put in key order, or in the place of the value listed there. -/
def sparsePut {α : Type} (k : Nat) (v : α) : List (Nat × α) → List (Nat × α)
  | [] => [(k, v)]
  | (j, w) :: rest =>
    if j < k then (j, w) :: sparsePut k v rest
    else if j = k then (k, v) :: rest
    else (k, v) :: (j, w) :: rest

/-- The keys rise strictly. -/
abbrev sparseSorted {α : Type} (l : List (Nat × α)) : Prop := l.Pairwise (fun x y => x.1 < y.1)

end Sys2Proof.Machine
end

