-- ==== Sys2Proof/Machine/Ops.lean ====
section
/-! DEFINITION. The named operations over memory, the hash table and the registers, command start (spec R181), and the two
ways a command ends: error completion (spec R184), the engine's form of taking an exception, and success completion
(spec R186) beside it. -/

namespace Sys2Proof.Machine

/-! ### Host memory -/

/-- One byte of host memory: the only access the engine makes (R58). None where nothing has been written (log 1). -/
def Memory.read (m : Memory) (a : Nat) : Option Byte := sparseGet a m.cells

/-- `MemWrite(a, 1, b)` (R11). -/
def Memory.write (m : Memory) (a : Nat) (b : Byte) : Memory := { cells := sparsePut a b m.cells }

/-- The canonical form: addresses rise strictly. An unlisted address has no value, so no entry can equal it. -/
abbrev Memory.wf (m : Memory) : Prop := sparseSorted m.cells

/-- `MemRead(a, n)` (R11): none if one of the bytes has not been written. -/
def Memory.readBytes (m : Memory) (a : Nat) : Nat → Option (List Byte)
  | 0 => some []
  | n + 1 =>
    match m.read a, m.readBytes (a + 1) n with
    | some b, some bs => some (b :: bs)
    | _, _ => none

/-- The bytes written at `a` and up, in ascending order (R12, R68). -/
def Memory.writeBytes (m : Memory) (a : Nat) : List Byte → Memory
  | [] => m
  | b :: bs => (m.write a b).writeBytes (a + 1) bs

/-- The copy loop of both element kinds (R154, R160): `len` times, the byte at `src` is read and written at `dst`, and both
addresses advance. Each turn sees the bytes the turns before it wrote (R62, R216). -/
def Memory.copyUp (m : Memory) (src dst : Nat) : Nat → Option Memory
  | 0 => some m
  | len + 1 =>
    match m.read src with
    | none => none
    | some b => (m.write dst b).copyUp (src + 1) (dst + 1) len

/-- `len` free values from the `k`-th on (log 3). -/
def freeBytes (k : Nat) : Nat → List Byte
  | 0 => []
  | len + 1 => Config.freeByte k :: freeBytes (k + 1) len

/-! ### The hash table -/

/-- `TABLE[h]` (R35): an unlisted entry is 0, "empty". -/
def Table.get (t : Table) (h : Nat) : Nat := (sparseGet h t.entries).getD 0

/-- `TABLE[h] <- p + 1` (R128). -/
def Table.put (t : Table) (h p : Nat) : Table := { entries := sparsePut h (p + 1) t.entries }

/-- Entries `0 .. size - 1` set to 0; the others keep their values (R125). -/
def Table.clear (t : Table) (size : Nat) : Table := { entries := t.entries.filter fun e => decide (size ≤ e.1) }

/-- The canonical form: indexes rise strictly and no listed value is 0. -/
abbrev Table.wf (t : Table) : Prop := sparseSorted t.entries ∧ ∀ e ∈ t.entries, e.2 ≠ 0

/-! ### Windows (R51, R52, R54) -/

/-- A window of `len` bytes at `addr` lies below 2^bits; an empty one has no address (R24, R54 (a)). -/
def windowInMemory (bits addr len : Nat) : Bool := decide (len = 0) || decide (addr + len ≤ 2 ^ bits)

/-- An address of the window of `len` bytes at `addr`. -/
def inWindow (a addr len : Nat) : Bool := decide (addr ≤ a) && decide (a < addr + len)

/-- Two windows share an address (R54 (b)). -/
def windowsMeet (a1 l1 a2 l2 : Nat) : Bool := decide (0 < l1) && decide (0 < l2) && decide (a1 < a2 + l2) && decide (a2 < a1 + l1)

/-- `a` is an address of the source window (R51). -/
def Buffers.inSrc (b : Buffers) (a : Nat) : Bool := inWindow a b.srcAddr.toNat b.srcLen.toNat

/-- `a` is an address of the destination window (R52). -/
def Buffers.inDst (b : Buffers) (a : Nat) : Bool := inWindow a b.dstAddr.toNat b.dstCap.toNat

/-- The host precondition on the windows that a command start breaks, if any (R54 (a), (b)). -/
def Buffers.violation (b : Buffers) (p : Config.Params) : Option Refusal :=
  if !(windowInMemory p.addrBits b.srcAddr.toNat b.srcLen.toNat && windowInMemory p.addrBits b.dstAddr.toNat b.dstCap.toNat) then
    some .windowOutsideMemory
  else if windowsMeet b.srcAddr.toNat b.srcLen.toNat b.dstAddr.toNat b.dstCap.toNat then some .windowsOverlap
  else none

/-! ### The latched windows of the running command -/

/-- The latched `SRC_LEN`, `L` of the command rules (R31). -/
def State.srcLen (s : State) : Nat := s.latch.srcLen.toNat

/-- The latched `DST_CAP` (R31). -/
def State.dstCap (s : State) : Nat := s.latch.dstCap.toNat

/-- The host address of `src[i]` (R11). -/
def State.srcAddr (s : State) (i : Nat) : Nat := s.latch.srcAddr.toNat + i

/-- The host address of `dst[i]` (R11). -/
def State.dstAddr (s : State) (i : Nat) : Nat := s.latch.dstAddr.toNat + i

/-- `src[i]` (R11). -/
def State.src (s : State) (i : Nat) : Option Byte := s.mem.read (s.srcAddr i)

/-- `src[lo .. lo + len)` (R11). -/
def State.srcBytes (s : State) (lo len : Nat) : Option (List Byte) := s.mem.readBytes (s.srcAddr lo) len

/-! ### The life of a command -/

/-- The length of the running command's write range: `dst[0..n)` for DECOMPRESS, `dst[0 .. max_compressed_len(SRC_LEN))`
for COMPRESS (R184 step 3). -/
def State.writeRange (s : State) : Nat :=
  match s.phase with
  | .idle => 0
  | .compressing => maxCompressedLen s.srcLen
  | .decompressing => s.dec.n

/-- The running command has written a byte of its destination (R184 step 3). -/
def State.hasWritten (s : State) : Bool :=
  match s.phase with
  | .idle => false
  | .compressing => decide (0 < s.comp.d)
  | .decompressing => decide (0 < s.dec.d)

/-- Every byte of the write range is unspecified: free values (R184 step 3, R210; log 3). -/
def State.loseRange (s : State) : State :=
  { s with
    mem := s.mem.writeBytes (s.dstAddr 0) (freeBytes s.freeCount s.writeRange)
    freeCount := s.freeCount + s.writeRange }

/-- The state an error completion leaves (R184): `RESULT_LEN` stays, the write range is lost if a byte of it was written, and
the destination is unchanged otherwise. -/
def State.raised (s : State) (e : ErrDetail) : State :=
  { (if s.hasWritten then s.loseRange else s) with status := Status.failed e, phase := .idle }

/-- `raise Kind(DETAIL)`: the command ends here with the error (R11, R180, R184). -/
def raise (e : ErrDetail) (s : State) : Outcome := .next (s.raised e)

/-- The state a success completion leaves (R186). -/
def State.completed (s : State) (r : Nat) : State :=
  { s with resultLen := BitVec.ofNat 64 r, status := s.status.succeeded, phase := .idle }

/-- `return r`: the command ends successfully (R11, R186). -/
def complete (r : Nat) (s : State) : Outcome := .next (s.completed r)

/-- Command start, steps 1 to 3 (R181): latch the buffer registers, `STATUS <- BUSY`, `RESULT_LEN <- 0`. -/
def State.start (s : State) : State := { s with latch := s.regs, status := Status.started, resultLen := 0 }

/-- Command start, step 4 for a command (R181): the phase, the cursors at 0, and the windows the host must now leave alone
(R214, log 7). -/
def State.begin (s : State) (p : Phase) : State :=
  { s.start with phase := p, comp := CompCursors.zero, dec := DecCursors.zero, unobserved := s.regs :: s.unobserved }

/-- Reset (R210): every register and internal value at its reset value; the write range of a command cut short is
unspecified, whether or not it had been written. Host memory outside it and what belongs to the host stay. -/
def assertReset (s : State) : State :=
  let s := s.loseRange
  { State.reset with
    mem := s.mem, cfg := s.cfg, host := s.host, hostRead := s.hostRead, freeCount := s.freeCount }

/-! ### The register block -/

/-- A read of the register block at an offset (R22 to R30): `CMD` and the reserved offset read 0. -/
def State.readReg (s : State) (offset : Nat) : Word :=
  match offset with
  | 0x08 => s.regs.srcAddr
  | 0x10 => s.regs.srcLen
  | 0x18 => s.regs.dstAddr
  | 0x20 => s.regs.dstCap
  | 0x28 => s.status.word
  | 0x30 => s.resultLen
  | _ => 0

/-- A write of a register other than `CMD` (R22 to R31): the four buffer registers take it while `BUSY = 0`; every other
offset ignores it. -/
def State.writeReg (s : State) (offset : Nat) (v : Word) : State :=
  if s.status.busy then s
  else match offset with
    | 0x08 => { s with regs := { s.regs with srcAddr := v } }
    | 0x10 => { s with regs := { s.regs with srcLen := v } }
    | 0x18 => { s with regs := { s.regs with dstAddr := v } }
    | 0x20 => { s with regs := { s.regs with dstCap := v } }
    | _ => s

/-- A host read of a register, with what it tells the host: a read of `STATUS` that returns `DONE = 1` ends the time the
windows must be left alone (R214, log 7). -/
def State.observe (s : State) (offset : Nat) : State :=
  { s with
    hostRead := s.readReg offset
    unobserved := if offset = 0x28 ∧ s.status.done then [] else s.unobserved }

end Sys2Proof.Machine
end

