-- ==== Sys2Proof/Machine/MatchFinder.lean ====
section
/-! DEFINITION. The match-finder (spec R126 to R129, R132), as functions of a source given byte by byte. Each is `none` where
a byte it reads has not been written in host memory. -/

namespace Sys2Proof.Machine

/-- `src[lo .. lo + len)` of a source given byte by byte. -/
def sourceRun (src : Nat → Option Byte) (lo : Nat) : Nat → Option (List Byte)
  | 0 => some []
  | len + 1 =>
    match src lo, sourceRun src (lo + 1) len with
    | some b, some bs => some (b :: bs)
    | _, _ => none

/-- `h = mul32(w, 0x1e35a7bd) >> SHIFT` (R127; PRESUMED by the spec from the public format, log 11). -/
def hashIndex (shift : Nat) (w : BitVec 32) : Nat := (w * Config.hashMul).toNat >>> shift

/-- The hash word at a scan position: its four bytes, little-endian (R126). -/
def hashWord (src : Nat → Option Byte) (s : Nat) : Option (BitVec 32) :=
  (sourceRun src s Config.minMatch).map fun bs => BitVec.ofNat 32 (le bs)

/-- The hash index at a scan position (R126, R127). -/
def hashAt (src : Nat → Option Byte) (shift s : Nat) : Option Nat := (hashWord src s).map (hashIndex shift)

/-- `match(v, s)` (R129): the slot is not empty, the distance is in the window, and the four bytes are equal, in this order. -/
def matchTest (src : Nat → Option Byte) (v s : Nat) : Option Bool :=
  if v = 0 then some false
  else if Config.maxOffset ≤ s - (v - 1) then some false
  else
    match sourceRun src (v - 1) Config.minMatch, sourceRun src s Config.minMatch with
    | some x, some y => some (decide (x = y))
    | _, _ => none

/-- The match extension (R132): from `s` and `t` on, forward while the bytes are equal, for at most `fuel` bytes (the source's
end is `fuel` bytes after `s`). The answer is the end of the match in the source. -/
def extendMatch (src : Nat → Option Byte) (fuel s t : Nat) : Option Nat :=
  match fuel with
  | 0 => some s
  | fuel + 1 =>
    match src s, src t with
    | some x, some y => if x = y then extendMatch src fuel (s + 1) (t + 1) else some s
    | _, _ => none

end Sys2Proof.Machine
end

