-- ==== Sys2Proof/Machine/Compressor.lean ====
section
/-! DEFINITION. The engine's steps while it compresses (spec R120, R128 to R136): writing elements, one turn of the scan loop,
and the final flush. -/

namespace Sys2Proof.Machine

/-- `emit` of some bytes (R12): they are written at `dst[d]` and up, and `d` moves past them. A write at or beyond
`dst[max_compressed_len(SRC_LEN)]` is OUTPUT_OVERRUN, which cannot occur (R138, R190). -/
def emit (bytes : List Byte) (s : State) : Except ErrDetail State :=
  if maxCompressedLen s.srcLen < s.comp.d + bytes.length then .error .outputOverrun
  else .ok { s with
    mem := s.mem.writeBytes (s.dstAddr s.comp.d) bytes
    comp := { s.comp with d := s.comp.d + bytes.length } }

/-- `emit_literal` of the pending run (R131, R135), nothing when it is empty (R102). -/
def emitLiteral (run : List Byte) (s : State) : Except ErrDetail State :=
  if run = [] then .ok s
  else
    match literalBytes run with
    | .error e => .error e
    | .ok bytes => emit bytes s

/-- `emit_copy(offset, length)` (R133). -/
def emitCopy (offset length : Nat) (s : State) : Except ErrDetail State := emit (copyBytes offset length) s

/-- A step that may have raised an error: the error completes the command from the state the step began in. -/
def settle (before : State) : Except ErrDetail State → Outcome
  | .ok s => .next s
  | .error e => raise e before

/-- A miss (R130). -/
def scanMiss (s : State) : State := { s with comp := { s.comp with s := s.comp.s + 1 } }

/-- A hit at candidate `t` whose match ends at `e` (R131 to R133): the pending run is flushed, the copy of the whole match is
written, and the scan goes on at `e`. -/
def scanHit (run : List Byte) (t e : Nat) (s : State) : Except ErrDetail State :=
  match emitLiteral run s with
  | .error d => .error d
  | .ok s1 =>
    match emitCopy (s.comp.s - t) (e - s.comp.s) s1 with
    | .error d => .error d
    | .ok s2 =>
      .ok { s2 with comp := { s2.comp with s := e, lit := e, t := t + (e - s.comp.s), s0 := s.comp.s } }

/-- One turn of the scan loop (R126 to R133): the old entry is the candidate, and the position replaces it whether or not a
match follows (R128; D25, log 13). -/
def scanTurn (s : State) : Outcome :=
  match hashAt s.src s.shift s.comp.s with
  | none => .fault .unwrittenRead
  | some h =>
    let v := s.table.get h
    let s1 := { s with table := s.table.put h s.comp.s }
    match matchTest s.src v s.comp.s with
    | none => .fault .unwrittenRead
    | some false => .next (scanMiss s1)
    | some true =>
      match sourceRun s.src s.comp.lit (s.comp.s - s.comp.lit),
          extendMatch s.src (s.srcLen - (s.comp.s + 4)) (s.comp.s + 4) (v - 1 + 4) with
      | some run, some e => settle s1 (scanHit run (v - 1) e s1)
      | _, _ => .fault .unwrittenRead

/-- After the scan (R135, R136): the last pending run is flushed and the command completes with the bytes written. -/
def finalFlush (s : State) : Outcome :=
  match sourceRun s.src s.comp.lit (s.srcLen - s.comp.lit) with
  | none => .fault .unwrittenRead
  | some run =>
    match emitLiteral run s with
    | .error e => raise e s
    | .ok s1 => complete s1.comp.d s1

/-- One engine step of COMPRESS after its start: a turn while four bytes remain (R134), then the final flush. -/
def compressStep (s : State) : Outcome := if s.comp.s + 3 < s.srcLen then scanTurn s else finalFlush s

end Sys2Proof.Machine
end

