-- ==== Sys2Proof/Machine/Decompressor.lean ====
section
/-! DEFINITION. The engine's shared procedures while it decompresses (spec R150 to R154, R160, R165, R166). -/

namespace Sys2Proof.Machine

/-- `s <- s + hsize`: past the tag and the extension bytes (R150, R153). -/
def State.pastHeader (s : State) (hsize : Nat) : State := { s with dec := { s.dec with s := s.dec.s + hsize } }

/-- `exec_literal(length)` (R154), entered with `s` at the first data byte. The comparisons are exact (R9). -/
def literalAt (length : Nat) (s : State) : Outcome :=
  if s.dec.n - s.dec.d < length then raise .litDstOverrun s
  else if s.srcLen - s.dec.s < length then raise .litSrcOverrun s
  else
    match s.mem.copyUp (s.srcAddr s.dec.s) (s.dstAddr s.dec.d) length with
    | none => .fault .unwrittenRead
    | some m => .next { s with mem := m, dec := { s.dec with s := s.dec.s + length, d := s.dec.d + length } }

/-- A literal element: its header of `hsize` bytes, then its data (R155 to R159). -/
def literalElement (hsize length : Nat) (s : State) : Outcome := literalAt length (s.pastHeader hsize)

/-- `exec_copy(offset, length)` (R160): the bounds-checked copy loop, byte by byte. -/
def copyAt (offset length : Nat) (s : State) : Outcome :=
  if offset = 0 then raise .copyOffsetZero s
  else if s.dec.d < offset then raise .copyOffsetBeforeStart s
  else if s.dec.n < s.dec.d + length then raise .copyDstOverrun s
  else
    match s.mem.copyUp (s.dstAddr (s.dec.d - offset)) (s.dstAddr s.dec.d) length with
    | none => .fault .unwrittenRead
    | some m => .next { s with mem := m, dec := { s.dec with d := s.dec.d + length } }

/-- A copy element: its header of `hsize` bytes, then the replay (R161, R162). -/
def copyElement (hsize offset length : Nat) (s : State) : Outcome := copyAt offset length (s.pastHeader hsize)

/-- After the loop (R165, R166): the length check and success. -/
def finishDecompress (s : State) : Outcome :=
  if s.dec.d ≠ s.dec.n then raise .lengthMismatch s else complete s.dec.n s

/-- Fetching the element at the cursor (R108 to R111, R153): the tag, then the extension bytes if they lie in the source; if
they do not, TAG_TRUNCATED before any of them is read (D9). -/
def fetchElement (s : State) : Move :=
  match s.src s.dec.s with
  | none => .done (.fault .unwrittenRead)
  | some tag =>
    if s.srcLen < s.dec.s + 1 + extCount tag then .done (raise .tagTruncated s)
    else
      match s.srcBytes (s.dec.s + 1) (extCount tag) with
      | none => .done (.fault .unwrittenRead)
      | some ext =>
        match decode .element (tag :: ext) with
        | .error _ => .done (raise .tagTruncated s)
        | .ok (i, _) => .run i s

/-- One engine step of DECOMPRESS after its start: an element while `s < L`, then the end (R153). -/
def decompressMove (s : State) : Move := if s.dec.s < s.srcLen then fetchElement s else .done (finishDecompress s)

end Sys2Proof.Machine
end

