-- ==== Sys2Proof/Machine/Command.lean ====
section
/-! DEFINITION. The commands' meanings: what a host write to `CMD` does (spec R181, R188, R201), up to where the engine's own
steps take over (spec R120, R150; log 5). -/

namespace Sys2Proof.Machine

/-- COMPRESS from its header on (R122 to R125): the header, then the short input whole, or the sized and cleared table and the
cursors of the scan. DESIGN CHOICE: a short input is done in this one step (R33), so no reset input finds it running (R210,
log 5). -/
def compressBody (s : State) : Outcome :=
  match emit (leBytes Config.headerBytes s.srcLen) s with
  | .error e => raise e s
  | .ok s1 =>
    if s.srcLen ≤ 4 then finalFlush s1
    else
      let p := tableParams s.srcLen
      .next { s1 with tableSize := p.1, shift := p.2, table := s1.table.clear p.1 }

/-- `COMPRESS` (R120, R121): ignored while `BUSY = 1` (R201); refused when the windows break R54; else the command starts,
checks its lengths in this order before any write, and goes on with its body. -/
def execCompress (s : State) : Outcome :=
  if s.status.busy then .next s
  else
    match s.regs.violation s.cfg with
    | some r => .refused r
    | none =>
      let s1 := s.begin .compressing
      if s1.cfg.maxSrcLen < s1.srcLen then raise .srcTooLong s1
      else if s1.dstCap < maxCompressedLen s1.srcLen then raise .dstTooSmall s1
      else compressBody s1

/-- `DECOMPRESS` (R150 to R152): as `COMPRESS` up to the start; then the header is read and checked, and the element loop
begins at `s = 8`, `d = 0`. -/
def execDecompress (s : State) : Outcome :=
  if s.status.busy then .next s
  else
    match s.regs.violation s.cfg with
    | some r => .refused r
    | none =>
      let s1 := s.begin .decompressing
      if s1.srcLen < Config.headerBytes then raise .headerTruncated s1
      else
        match s1.srcBytes 0 Config.headerBytes with
        | none => .fault .unwrittenRead
        | some header =>
          if s1.dstCap < le header then raise .declaredLenTooBig s1
          else .next { s1 with dec := { s := Config.headerBytes, d := 0, n := le header } }

/-- `CMD.RESERVED` (R188): ignored while `BUSY = 1` (R201); else steps 1 to 3 of the start and BAD_COMMAND at once. No window
is used, so none is checked (log 8). -/
def execCmdReserved (_op : BitVec 8) (s : State) : Outcome :=
  if s.status.busy then .next s else raise .badCommand { s.start with phase := .idle }

end Sys2Proof.Machine
end

