-- ==== Sys2Proof/Machine/Copy.lean ====
section
/-! DEFINITION. The copy elements' meanings (spec R161 to R163). -/

namespace Sys2Proof.Machine

/-- `COPY1` (R161). -/
def execCopy1 (len : BitVec 3) (off : BitVec 11) (s : State) : Outcome := copyElement 2 off.toNat (copy1Length len) s

/-- `COPY2` (R162). -/
def execCopy2 (len : BitVec 6) (off : BitVec 16) (s : State) : Outcome := copyElement 3 off.toNat (copy2Length len) s

/-- `COPY4` (R163): always COPY4_UNSUPPORTED; no byte after the tag is read. -/
def execCopy4 (_rest : BitVec 6) (s : State) : Outcome := raise .copy4Unsupported s

end Sys2Proof.Machine
end

