-- ==== Sys2Proof/Machine/Literal.lean ====
section
/-! DEFINITION. The literal elements' meanings (spec R155 to R159): each is its header's size and its length over the shared
literal procedure. -/

namespace Sys2Proof.Machine

/-- `LIT` (R155). -/
def execLit (v : BitVec 6) (s : State) : Outcome := literalElement 1 (litLength v) s

/-- `LIT.X1` (R156). -/
def execLitX1 (ext : BitVec 8) (s : State) : Outcome := literalElement 2 (litExtLength ext) s

/-- `LIT.X2` (R157). -/
def execLitX2 (ext : BitVec 16) (s : State) : Outcome := literalElement 3 (litExtLength ext) s

/-- `LIT.X3` (R158). -/
def execLitX3 (ext : BitVec 24) (s : State) : Outcome := literalElement 4 (litExtLength ext) s

/-- `LIT.X4` (R159). -/
def execLitX4 (ext : BitVec 32) (s : State) : Outcome := literalElement 5 (litExtLength ext) s

end Sys2Proof.Machine
end

