-- ==== Sys2Proof/Machine/Dispatch.lean ====
section
/-! DEFINITION. What each instruction does: one arm per row of spec/opcode_table.json. -/

namespace Sys2Proof.Machine

/-- The meaning of an instruction in a state. -/
def exec (i : Instr) (s : State) : Host.Outcome State Fault Refusal :=
  match i with
  | .lit v => Sys2Proof.Machine.execLit v s
  | .litX1 ext => Sys2Proof.Machine.execLitX1 ext s
  | .litX2 ext => Sys2Proof.Machine.execLitX2 ext s
  | .litX3 ext => Sys2Proof.Machine.execLitX3 ext s
  | .litX4 ext => Sys2Proof.Machine.execLitX4 ext s
  | .copy1 len off => Sys2Proof.Machine.execCopy1 len off s
  | .copy2 len off => Sys2Proof.Machine.execCopy2 len off s
  | .copy4 rest => Sys2Proof.Machine.execCopy4 rest s
  | .compress => Sys2Proof.Machine.execCompress s
  | .decompress => Sys2Proof.Machine.execDecompress s
  | .cmdReserved op => Sys2Proof.Machine.execCmdReserved op s

end Sys2Proof.Machine
end

