-- ==== Sys2Proof/Machine/HostBus.lean ====
section
/-! DEFINITION. What moves next: the HOST agent's actions on the register block and on host memory (spec R30, R63, R210, R213,
R214, R218, R221), and the ENGINE's own steps (spec R120, R150, R212). -/

namespace Sys2Proof.Machine

/-- The engine's step (R200): none while IDLE (R212), a scan turn or the flush while COMPRESSING, an element or the end while
DECOMPRESSING. -/
def engineMove (s : State) : Move :=
  match s.phase with
  | .idle => .done (.next s)
  | .compressing => .done (compressStep s)
  | .decompressing => decompressMove s

/-- Why a register access is refused, if it is (R30, R54 (c)): it must be 64 bits wide and aligned, and lie in the block's 64
bytes. -/
def accessViolation (p : Config.Params) (addr bytes : Nat) : Option Refusal :=
  if addr < p.regBase ∨ p.regBase + 0x40 ≤ addr then some .outsideRegisterBlock
  else if bytes ≠ 8 ∨ (addr - p.regBase) % 8 ≠ 0 then some .badRegisterAccess
  else none

/-- A host read of a register (R30, R218). -/
def hostRegRead (addr bytes : Nat) (s : State) : Move :=
  match accessViolation s.cfg addr bytes with
  | some r => .done (.refused r)
  | none => .done (.next (s.observe (addr - s.cfg.regBase)))

/-- A host write of a register: at `CMD` it is a command (R23, R181), elsewhere a register write (R31, R218). -/
def hostRegWrite (addr bytes : Nat) (v : Word) (s : State) : Move :=
  match accessViolation s.cfg addr bytes with
  | some r => .done (.refused r)
  | none =>
    if addr = s.cfg.regBase then .run (decodeCommand v) s
    else .done (.next (s.writeReg (addr - s.cfg.regBase) v))

/-- `a` lies in the destination window of a command whose completion the host has not observed (R63, R214; log 7). -/
def State.guardsRead (s : State) (a : Nat) : Bool :=
  s.unobserved.any fun b => b.inDst a

/-- `a` lies in a window of such a command (R54 (d), R214). -/
def State.guardsWrite (s : State) (a : Nat) : Bool :=
  s.unobserved.any fun b => b.inSrc a || b.inDst a

/-- A host read of a byte of memory: any value in the destination window of a command not yet observed complete (R63 (b),
(c)), the byte elsewhere. -/
def hostMemRead (a : Nat) (s : State) : Outcome :=
  if 2 ^ s.cfg.addrBits ≤ a then .fault .noSuchAddress
  else if s.guardsRead a then
    .next { s with hostRead := (Config.freeByte s.freeCount).setWidth 64, freeCount := s.freeCount + 1 }
  else
    match s.mem.read a with
    | none => .fault .unwrittenRead
    | some b => .next { s with hostRead := b.setWidth 64 }

/-- A host write of a byte of memory, refused in a window of a command not yet observed complete (R214). -/
def hostMemWrite (a : Nat) (b : Byte) (s : State) : Outcome :=
  if 2 ^ s.cfg.addrBits ≤ a then .fault .noSuchAddress
  else if s.guardsWrite a then .refused .windowWrittenDuringCommand
  else .next { s with mem := s.mem.write a b }

/-- One host action, in the state whose list no longer holds it. A poll reads `STATUS`; while `BUSY = 1` it stays in the list
and the engine moves (R213 step 5). -/
def hostMove (a : HostAction) (s : State) : Move :=
  match a with
  | .regRead addr bytes => hostRegRead addr bytes s
  | .regWrite addr bytes v => hostRegWrite addr bytes v s
  | .poll =>
    let s := s.observe 0x28
    if s.status.busy then engineMove { s with host := .poll :: s.host } else .done (.next s)
  | .memRead addr => .done (hostMemRead addr s)
  | .memWrite addr b => .done (hostMemWrite addr b s)
  | .engine => engineMove s
  | .reset => .done (.next (assertReset s))

/-- What happens next (R20, log 4): the host's next action, or the engine's step when the host has none. -/
def nextMove (s : State) : Move :=
  match s.host with
  | [] => engineMove s
  | a :: rest => hostMove a { s with host := rest }

/-! ### Placing an instruction where the next step finds it (log 9) -/

/-- The bytes laid down for an element: its word's bytes, then zeros for its data, 64 of them. -/
def elementImage (w : Nat) : List Byte := leBytes 5 w ++ List.replicate 64 0

/-- A state in which the next step runs the element of `w`: a DECOMPRESS is under way (if none is, one at its first element,
with the source window at 0 and the destination window after it), the host has nothing to do, and the element's bytes stand at
the cursor. -/
def State.withElement (s : State) (w : Nat) : State :=
  let image := elementImage w
  let s1 : State :=
    if s.phase = .decompressing then s
    else { s with
      phase := .decompressing
      status := Status.started
      latch := { srcAddr := 0, srcLen := 8, dstAddr := 0x1000, dstCap := 0x1000 }
      dec := { s := 8, d := 0, n := 0x1000 } }
  { s1 with
    host := []
    latch := { s1.latch with srcLen := BitVec.ofNat 64 (s1.dec.s + image.length) }
    mem := s1.mem.writeBytes (s1.srcAddr s1.dec.s) image }

/-- A state in which the next step runs the command of `w`: the engine is not busy and the host's next action writes `w` to
`CMD`. -/
def State.withCommand (s : State) (w : Nat) : State :=
  { s with
    phase := .idle
    status := { s.status with busy := false }
    host := .regWrite s.cfg.regBase 8 (BitVec.ofNat 64 w) :: s.host }

/-- `w` stored where the next step fetches its instruction, in the space `decodeTableWord` reads it in. -/
def State.placeWord (s : State) (nbits w : Nat) : State :=
  match tableSpace nbits w with
  | .element => s.withElement (w % 2 ^ nbits)
  | .command => s.withCommand (w % 2 ^ nbits)

end Sys2Proof.Machine
end

