-- ==== Sys2Proof/Machine/Step.lean ====
section
/-! DEFINITION. One step of the machine: the next move of the host or the engine (Machine/HostBus.lean), and the meaning of the
instruction it runs, if it runs one. -/

namespace Sys2Proof.Machine

/-- One step. -/
def step (s : State) : Host.Outcome State Fault Refusal :=
  match nextMove s with
  | .done o => o
  | .run i s' => exec i s'

/-- `s` with an instruction's word stored where the next step fetches it (log 9). -/
def State.withFetchWord (s : State) (nbits w : Nat) : State := s.placeWord nbits w

end Sys2Proof.Machine
end

