-- ==== Sys2Proof/Safety.lean ====
section
/-! DEFINITION. What claims are stated in: the machine's invariant, the idle engine with a legal command before it, the source
and destination bytes of a command, and runs of the machine. -/

namespace Sys2Proof

/-! ### The element forms (R155 to R162) -/

/-- A literal element's header size and length (R155 to R159). -/
def Instr.literal : Instr → Option (Nat × Nat)
  | .lit v => some (1, v.toNat + 1)
  | .litX1 ext => some (2, ext.toNat + 1)
  | .litX2 ext => some (3, ext.toNat + 1)
  | .litX3 ext => some (4, ext.toNat + 1)
  | .litX4 ext => some (5, ext.toNat + 1)
  | .copy1 _ _ => none
  | .copy2 _ _ => none
  | .copy4 _ => none
  | .compress => none
  | .decompress => none
  | .cmdReserved _ => none

/-- A copy element's size, offset and length (R161, R162). -/
def Instr.copy : Instr → Option (Nat × Nat × Nat)
  | .lit _ => none
  | .litX1 _ => none
  | .litX2 _ => none
  | .litX3 _ => none
  | .litX4 _ => none
  | .copy1 len off => some (2, off.toNat, len.toNat + 4)
  | .copy2 len off => some (3, off.toNat, len.toNat + 1)
  | .copy4 _ => none
  | .compress => none
  | .decompress => none
  | .cmdReserved _ => none

end Sys2Proof

namespace Sys2Proof.Machine

/-! ### The invariant -/

/-- The legal combinations of `STATUS`'s fields (R28): none of the other flags while busy, `ERR` only with `DONE`, and the
error fields 0 without `ERR` and the code of one of R183's causes with it. -/
structure Status.Legal (st : Status) : Prop where
  busy_alone : st.busy = true → st.done = false ∧ st.err = false
  err_done : st.err = true → st.done = true
  no_err : st.err = false → st.kind = 0 ∧ st.detail = 0
  err_code : st.err = true → ∃ e : ErrDetail, st.kind = e.kind.code ∧ st.detail = e.code

/-- What holds while a COMPRESS scans (R35 to R37, R121, R124, R128, R138). -/
structure State.Scanning (s : State) : Prop where
  long : 4 < s.srcLen
  accepted : s.srcLen ≤ s.cfg.maxSrcLen
  room : maxCompressedLen s.srcLen ≤ s.dstCap
  params : (s.tableSize, s.shift) = tableParams s.srcLen
  lit_le : s.comp.lit ≤ s.comp.s
  s_le : s.comp.s ≤ s.srcLen
  scanned : ∀ h < s.tableSize, s.table.get h ≤ s.comp.s
  header : 8 ≤ s.comp.d
  bound : s.comp.d ≤ 8 + s.comp.lit + s.comp.lit / 6

/-- What holds while a DECOMPRESS runs its elements (R38, R152). -/
structure State.Decoding (s : State) : Prop where
  past_header : 8 ≤ s.dec.s
  s_le : s.dec.s ≤ s.srcLen
  d_le : s.dec.d ≤ s.dec.n
  n_le : s.dec.n ≤ s.dstCap
  written : ∀ i < s.dec.d, (s.mem.read (s.dstAddr i)).isSome

/-- The invariant of the machine. -/
structure State.Inv (s : State) : Prop where
  /-- Memory and table are in their canonical form. -/
  mem_wf : s.mem.wf
  table_wf : s.table.wf
  /-- `PHASE` is IDLE exactly when `BUSY = 0` (R34). -/
  busy_phase : s.status.busy = true ↔ s.phase ≠ .idle
  status_legal : s.status.Legal
  /-- `RESULT_LEN` is 0 while a command runs and after an error (R29). -/
  result_busy : s.status.busy = true → s.resultLen = 0
  result_err : s.status.err = true → s.resultLen = 0
  /-- While a command runs the buffer registers keep the values latched (R31). -/
  latched : s.status.busy = true → s.regs = s.latch
  /-- The running command's windows meet R54 (a) and (b). -/
  windows : s.status.busy = true → s.latch.violation s.cfg = none
  /-- The host has not observed the running command complete (R214, log 7). -/
  guarded : s.status.busy = true → s.latch ∈ s.unobserved
  scanning : s.phase = .compressing → s.Scanning
  decoding : s.phase = .decompressing → s.Decoding

/-! ### A command before the engine -/

/-- The engine may start a command on the buffer registers' windows: it is not busy, and the windows meet R54. -/
structure State.MayStart (s : State) : Prop where
  free : s.status.busy = false
  legal : s.regs.violation s.cfg = none

/-- The `n` bytes of host memory from `a` on are `bytes`. -/
abbrev Memory.Holds (m : Memory) (a : Nat) (bytes : List Byte) : Prop :=
  ∀ i, (h : i < bytes.length) → m.read (a + i) = some bytes[i]

/-- The source window of the buffer registers holds `bytes`. -/
abbrev State.SourceIs (s : State) (bytes : List Byte) : Prop :=
  s.regs.srcLen.toNat = bytes.length ∧ s.mem.Holds s.regs.srcAddr.toNat bytes

/-- Every byte of the running command's source window has been written. -/
abbrev State.SourceReadable (s : State) : Prop := ∀ i < s.srcLen, (s.src i).isSome

/-- Memory is the same outside `len` bytes at `a`. -/
abbrev Memory.SameOutside (m' m : Memory) (a len : Nat) : Prop := ∀ x, x < a ∨ a + len ≤ x → m'.read x = m.read x

/-- How a command of `s` ends with an error (R184): `STATUS` reads `word`; the engine is IDLE; memory is as before if the
command had written nothing, and as before outside its write range in any case; every field but `STATUS`, `PHASE`, memory, the
decompressor's cursors (no rule reads them in IDLE) and the count of free values is as before, `RESULT_LEN` among them. That the table and the other
internal values stay in IDLE is the model's (log 16). -/
structure State.FailsTo (s t : State) (word : Word) : Prop where
  word : t.status.word = word
  idle : t.phase = .idle
  frame : { t with mem := s.mem, status := s.status, phase := s.phase, dec := s.dec, freeCount := s.freeCount } = s
  untouched : s.hasWritten = false → t.mem = s.mem
  outside : t.mem.SameOutside s.mem (s.dstAddr 0) s.writeRange

/-- How a command that starts in `s` is turned down before it writes (R121, R151, R152): the start has happened (R181 steps 1
to 3), `STATUS` reads `word`, and memory, the buffer registers, the table and what belongs to the host are as before (of the table in IDLE, log 16). -/
structure State.RejectedTo (s t : State) (word : Word) : Prop where
  word : t.status.word = word
  idle : t.phase = .idle
  result : t.resultLen = 0
  latched : t.latch = s.regs
  frame : { t with
    status := s.status, phase := s.phase, resultLen := s.resultLen, latch := s.latch, comp := s.comp, dec := s.dec,
    unobserved := s.unobserved } = s

/-! ### Runs -/

/-- `k` steps of the machine, ending early where it stops. -/
def State.run (s : State) : Nat → Outcome
  | 0 => .next s
  | k + 1 =>
    match step s with
    | .next t => t.run k
    | .fault f => .fault f
    | .refused r => .refused r

/-- The engine comes to rest (R219, R220): within `k` steps of `s` the engine is IDLE, in `t`. -/
abbrev State.RestsIn (s : State) (k : Nat) (t : State) : Prop := ∃ j ≤ k, s.run j = .next t ∧ t.phase = .idle

end Sys2Proof.Machine
end

