-- ==== Sys2Proof/Certificates/Slice0/Obligations.lean ====
section
/-! DEFINITION. The statements about the machine, from the numbered rules of spec/. -/

open Sys2Proof Sys2Proof.Machine

/-! ### Reset and the invariant -/

/-- R210: the reset input sets every register to its reset value and abandons a running command: no byte outside the write
range is changed, and every byte of it is a free value (log 3), whether or not it had been written. That the input stands in a
list of host actions, and that the parameters and the rest of the list stay, is the model's choice (log 4, log 15). A command that
its start completes is never found running (log 5). -/
def Obligations.ResetInputRestoresEngine : Prop :=
  ∀ (s : State) (rest : List HostAction), s.host = .reset :: rest →
    ∃ t, step s = .next t ∧ t.regs = Buffers.zero ∧ t.status.word = 0 ∧ t.resultLen = 0 ∧ t.phase = .idle ∧
      t.mem.SameOutside s.mem (s.dstAddr 0) s.writeRange ∧
      (∀ i < s.writeRange, t.mem.read (s.dstAddr i) = some (Config.freeByte (s.freeCount + i))) ∧
      t.cfg = s.cfg ∧ t.host = rest

/-- The state after reset meets the invariant of `State.Inv`. -/
def Obligations.ResetStateMeetsInvariant : Prop := State.reset.Inv

/-- Every step keeps the invariant: canonical memory and table, PHASE and BUSY in step (R34), legal STATUS combinations (R28),
RESULT_LEN 0 while busy and after an error (R29), buffer registers latched (R31), legal windows (R54), and the cursor bounds of
R35 to R38 and R138. -/
def Obligations.StepKeepsInvariant : Prop := ∀ s t : State, s.Inv → step s = .next t → t.Inv

/-- No step changes a parameter (R6). -/
def Obligations.ParametersNeverChange : Prop := ∀ s t : State, step s = .next t → t.cfg = s.cfg

/-! ### Encodings -/

/-- Decoding an instruction's own bytes, whatever follows them, gives the instruction back (R74, R76, R77, R84). -/
def Obligations.DecodeOfEncodeIsIdentity : Prop :=
  ∀ (i : Instr) (rest : List Byte), i.wellFormed = true → decode i.space (encode i ++ rest) = .ok (i, rest)

/-- Every element the decoder gives is a well-formed element and stands for exactly the bytes it was decoded from: no two
encodings of an element's header agree, and no bit of it is dropped (R79, R164). -/
def Obligations.DecodedElementIsItsBytes : Prop :=
  ∀ (bs rest : List Byte) (i : Instr), decode .element bs = .ok (i, rest) →
    i.wellFormed = true ∧ i.space = .element ∧ encode i ++ rest = bs

/-- R83: the form of every one of the 256 tag bytes, with the operands R74, R76 and R77 give it. The type codes are the spec's
general knowledge (R73, log 10). -/
def Obligations.TagByteSelectsForm : Prop :=
  ∀ (tag : Byte) (bs : List Byte), 4 ≤ bs.length →
    (tag.toNat % 4 = 0 → tag.toNat / 4 < 60 → decode .element (tag :: bs) = .ok (.lit (BitVec.ofNat 6 (tag.toNat / 4)), bs)) ∧
    (tag = 0xF0#8 → decode .element (tag :: bs) = .ok (.litX1 (BitVec.ofNat 8 (le (bs.take 1))), bs.drop 1)) ∧
    (tag = 0xF4#8 → decode .element (tag :: bs) = .ok (.litX2 (BitVec.ofNat 16 (le (bs.take 2))), bs.drop 2)) ∧
    (tag = 0xF8#8 → decode .element (tag :: bs) = .ok (.litX3 (BitVec.ofNat 24 (le (bs.take 3))), bs.drop 3)) ∧
    (tag = 0xFC#8 → decode .element (tag :: bs) = .ok (.litX4 (BitVec.ofNat 32 (le (bs.take 4))), bs.drop 4)) ∧
    (tag.toNat % 4 = 1 → decode .element (tag :: bs) =
      .ok (.copy1 (BitVec.ofNat 3 (tag.toNat / 4)) (BitVec.ofNat 11 (tag.toNat / 32 * 256 + le (bs.take 1))), bs.drop 1)) ∧
    (tag.toNat % 4 = 2 → decode .element (tag :: bs) =
      .ok (.copy2 (BitVec.ofNat 6 (tag.toNat / 4)) (BitVec.ofNat 16 (le (bs.take 2))), bs.drop 2)) ∧
    (tag.toNat % 4 = 3 → decode .element (tag :: bs) = .ok (.copy4 (BitVec.ofNat 6 (tag.toNat / 4)), bs))

/-- A few encodings written out from the tables of R74, R76, R77, R78 and R84; the type codes are R73's (log 10). -/
def Obligations.KnownEncodingsDecode : Prop :=
  decode .element [0x08#8] = .ok (.lit 2#6, []) ∧
  decode .element [0xF0#8, 0x3C#8] = .ok (.litX1 60#8, []) ∧
  decode .element [0xF4#8, 0x00#8, 0x01#8] = .ok (.litX2 256#16, []) ∧
  decode .element [0xF8#8, 0x02#8, 0x00#8, 0x00#8] = .ok (.litX3 2#24, []) ∧
  decode .element [0xFC#8, 0xFF#8, 0xFF#8, 0xFF#8, 0xFF#8] = .ok (.litX4 0xFFFFFFFF#32, []) ∧
  decode .element [0x15#8, 0x0F#8] = .ok (.copy1 5#3 15#11, []) ∧
  decode .element [0x1E#8, 0xB8#8, 0x0B#8] = .ok (.copy2 7#6 3000#16, []) ∧
  decode .element [0x03#8] = .ok (.copy4 0#6, []) ∧
  decodeCommand 0x101#64 = .compress ∧ decodeCommand 0x02#64 = .decompress ∧ decodeCommand 0x7F#64 = .cmdReserved 0x7F#8

/-- R23 and R84: bits [7:0] of a word written to CMD are the command code and the other bits are ignored. -/
def Obligations.CommandCodeIsLowByte : Prop :=
  ∀ w : Word, decodeCommand w =
    if w.toNat % 256 = 1 then .compress
    else if w.toNat % 256 = 2 then .decompress
    else .cmdReserved (BitVec.ofNat 8 w.toNat)

/-! ### A step runs the decoded instruction -/

/-- While a DECOMPRESS has source bytes left, the engine's step is the meaning of the element its cursor stands at (R153); the
engine moves when the host has nothing to do, and when the host lets it (log 4). -/
def Obligations.StepRunsElementAtCursor : Prop :=
  ∀ (s : State) (rest : List HostAction) (tag : Byte) (ext : List Byte) (i : Instr),
    s.phase = .decompressing → s.src s.dec.s = some tag → s.dec.s + 1 + extCount tag ≤ s.srcLen →
    s.srcBytes (s.dec.s + 1) (extCount tag) = some ext → decode .element (tag :: ext) = .ok (i, []) →
    (s.host = [] → step s = exec i s) ∧
    (s.host = .engine :: rest → step s = exec i { s with host := rest })

/-- A host write of a word to CMD runs the command the word decodes to, in the state whose host has done it (R23, R181); the list
of host actions is the model's (log 4). -/
def Obligations.StepRunsCommandWritten : Prop :=
  ∀ (s : State) (rest : List HostAction) (w : Word), s.host = .regWrite s.cfg.regBase 8 w :: rest →
    step s = exec (decodeCommand w) { s with host := rest }

/-! ### The literal elements -/

/-- LIT and LIT.X1 to LIT.X4 (R154 to R159): where the checks pass and the data bytes have been written, the element runs; the
data stand in the output, every other byte of memory is as before, the cursors advance past header and data and past the output,
and no other field changes. The data and the output do not meet (R54 (b)). A byte that nothing has written cannot be read (log 1). -/
def Obligations.LiteralElementsCopyTheirData : Prop :=
  ∀ (i : Instr) (hsize len : Nat) (s : State), i.literal = some (hsize, len) →
    len ≤ s.dec.n - s.dec.d → s.dec.s + hsize + len ≤ s.srcLen →
    (s.srcAddr (s.dec.s + hsize) + len ≤ s.dstAddr s.dec.d ∨ s.dstAddr s.dec.d + len ≤ s.srcAddr (s.dec.s + hsize)) →
    (∀ k < len, (s.src (s.dec.s + hsize + k)).isSome) →
    ∃ t, exec i s = .next t ∧
      (∀ k < len, t.mem.read (s.dstAddr (s.dec.d + k)) = s.src (s.dec.s + hsize + k)) ∧
      t.mem.SameOutside s.mem (s.dstAddr s.dec.d) len ∧
      t.dec = { s := s.dec.s + hsize + len, d := s.dec.d + len, n := s.dec.n } ∧
      { t with mem := s.mem, dec := s.dec } = s

/-- R154's two checks, in its order, for every literal form: too long for the output gives LIT_DST_OVERRUN, else too long for
the source gives LIT_SRC_OVERRUN. The lengths are not truncated (R159). What the frame says of
internal state in IDLE is the model's (log 16). -/
def Obligations.LiteralElementsCheckInOrder : Prop :=
  ∀ (i : Instr) (hsize len : Nat) (s : State), i.literal = some (hsize, len) →
    (s.dec.n - s.dec.d < len → ∃ t, exec i s = .next t ∧ s.FailsTo t 0x1326) ∧
    (len ≤ s.dec.n - s.dec.d → s.srcLen < s.dec.s + hsize + len → ∃ t, exec i s = .next t ∧ s.FailsTo t 0x1426)

/-! ### The copy elements -/

/-- COPY1 and COPY2 (R160 to R162): where the checks pass and the bytes before the output cursor have been written, the element
runs; the output repeats the last `offset` bytes with period `offset`, every other byte of memory is as before, the source
cursor passes the element, and no other field changes. A byte that nothing has written cannot be read (log 1). -/
def Obligations.CopyElementsReplayWithPeriod : Prop :=
  ∀ (i : Instr) (size offset len : Nat) (s : State), i.copy = some (size, offset, len) →
    0 < offset → offset ≤ s.dec.d → s.dec.d + len ≤ s.dec.n →
    (∀ k < offset, (s.mem.read (s.dstAddr (s.dec.d - offset + k))).isSome) →
    ∃ t, exec i s = .next t ∧
      (∀ k < len, t.mem.read (s.dstAddr (s.dec.d + k)) = s.mem.read (s.dstAddr (s.dec.d - offset + k % offset))) ∧
      t.mem.SameOutside s.mem (s.dstAddr s.dec.d) len ∧
      t.dec = { s := s.dec.s + size, d := s.dec.d + len, n := s.dec.n } ∧
      { t with mem := s.mem, dec := s.dec } = s

/-- R160's three checks, in its order, for both copy forms. What the frame says of
internal state in IDLE is the model's (log 16). -/
def Obligations.CopyElementsCheckInOrder : Prop :=
  ∀ (i : Instr) (size offset len : Nat) (s : State), i.copy = some (size, offset, len) →
    (offset = 0 → ∃ t, exec i s = .next t ∧ s.FailsTo t 0x1526) ∧
    (0 < offset → s.dec.d < offset → ∃ t, exec i s = .next t ∧ s.FailsTo t 0x1626) ∧
    (0 < offset → offset ≤ s.dec.d → s.dec.n < s.dec.d + len → ∃ t, exec i s = .next t ∧ s.FailsTo t 0x1726)

/-- R111 and R163: a Copy-4 tag ends the command with COPY4_UNSUPPORTED, whatever follows it and even as the last source byte.
What the frame of the error completion says of internal state in IDLE is the model's (log 16). -/
def Obligations.Copy4IsAlwaysAnError : Prop :=
  (∀ (rest : BitVec 6) (s : State), ∃ t, exec (.copy4 rest) s = .next t ∧ s.FailsTo t 0x1826) ∧
  (∀ (s : State) (tag : Byte), s.host = [] → s.phase = .decompressing → s.dec.s < s.srcLen → s.src s.dec.s = some tag →
    tag.toNat % 4 = 3 → ∃ t, step s = .next t ∧ s.FailsTo t 0x1826)

/-! ### The element loop -/

/-- An element whose extension or offset bytes are cut off by the end of the source gives TAG_TRUNCATED (R108 to R110, D9): a
literal of class 60 to 63, a Copy-1, a Copy-2. What the frame says of
internal state in IDLE is the model's (log 16). -/
def Obligations.CutElementIsTagTruncated : Prop :=
  ∀ (s : State) (tag : Byte), s.host = [] → s.phase = .decompressing → s.dec.s < s.srcLen → s.src s.dec.s = some tag →
    (tag.toNat % 4 = 0 ∧ 60 ≤ tag.toNat / 4 ∧ s.srcLen < s.dec.s + 1 + (tag.toNat / 4 - 59) ∨
      tag.toNat % 4 = 1 ∧ s.srcLen < s.dec.s + 2 ∨ tag.toNat % 4 = 2 ∧ s.srcLen < s.dec.s + 3) →
    ∃ t, step s = .next t ∧ s.FailsTo t 0x1226

/-- R165 and R166: at the end of the source the command fails with LENGTH_MISMATCH unless exactly the declared length has been
produced, and then it succeeds with that length as its result (R186), changing nothing else. That the cursors, table and latches
stay in IDLE, where R40 leaves them unspecified, is the model's (log 16). -/
def Obligations.DecompressEndsWithLengthCheck : Prop :=
  ∀ s : State, s.host = [] → s.phase = .decompressing → s.srcLen ≤ s.dec.s →
    (s.dec.d ≠ s.dec.n → ∃ t, step s = .next t ∧ s.FailsTo t 0x1926) ∧
    (s.dec.d = s.dec.n → ∃ t, step s = .next t ∧ t.resultLen = BitVec.ofNat 64 s.dec.n ∧
      t.status = { s.status with busy := false, done := true } ∧ t.phase = .idle ∧
      { t with resultLen := s.resultLen, status := s.status, phase := s.phase } = s)

/-- R167: while a DECOMPRESS runs, no engine step writes a byte outside `dst[0..n)`. -/
def Obligations.DecompressWritesOnlyDeclaredLength : Prop :=
  ∀ s t : State, s.Inv → s.host = [] → s.phase = .decompressing → step s = .next t →
    t.mem.SameOutside s.mem (s.dstAddr 0) s.dec.n

/-! ### Starting DECOMPRESS -/

/-- R151 and R152, in R185's order: a source shorter than the header gives HEADER_TRUNCATED; a declared length above the
capacity gives DECLARED_LEN_TOO_BIG; both before any write. That the checks are part of the start's step is the model's choice
(log 5), and what the frame says of the table in IDLE is the model's (log 16). -/
def Obligations.DecompressChecksHeader : Prop :=
  ∀ s : State, s.MayStart →
    (s.regs.srcLen.toNat < 8 → ∃ t, exec .decompress s = .next t ∧ s.RejectedTo t 0x1026) ∧
    (∀ hd : List Byte, 8 ≤ s.regs.srcLen.toNat → hd.length = 8 → s.mem.Holds s.regs.srcAddr.toNat hd →
      s.regs.dstCap.toNat < le hd → ∃ t, exec .decompress s = .next t ∧ s.RejectedTo t 0x1126)

/-- DECOMPRESS runs (R150, R181): with a readable header whose length fits the capacity, the windows are latched, STATUS shows
BUSY, RESULT_LEN is 0, and the element loop stands at its first element; memory and every other field are as before. -/
def Obligations.DecompressStartsElementLoop : Prop :=
  ∀ (s : State) (hd : List Byte), s.MayStart → 8 ≤ s.regs.srcLen.toNat → hd.length = 8 →
    s.mem.Holds s.regs.srcAddr.toNat hd → le hd ≤ s.regs.dstCap.toNat →
    ∃ t, exec .decompress s = .next t ∧ t.status.word = 1 ∧ t.resultLen = 0 ∧ t.phase = .decompressing ∧ t.latch = s.regs ∧
      t.dec = { s := 8, d := 0, n := le hd } ∧ t.unobserved = s.regs :: s.unobserved ∧
      { t with
        status := s.status, phase := s.phase, resultLen := s.resultLen, latch := s.latch, comp := s.comp, dec := s.dec,
        unobserved := s.unobserved } = s

/-! ### Starting COMPRESS -/

/-- R121: SRC_TOO_LONG, then DST_TOO_SMALL, both before any write to the destination. That the checks are part of the start's
step is the model's choice (log 5), and what the frame says of the table in IDLE is the model's (log 16). -/
def Obligations.CompressChecksLengthsInOrder : Prop :=
  ∀ s : State, s.MayStart →
    (s.cfg.maxSrcLen < s.regs.srcLen.toNat → ∃ t, exec .compress s = .next t ∧ s.RejectedTo t 0x0216) ∧
    (s.regs.srcLen.toNat ≤ s.cfg.maxSrcLen →
      s.regs.dstCap.toNat < 32 + s.regs.srcLen.toNat + s.regs.srcLen.toNat / 6 →
      ∃ t, exec .compress s = .next t ∧ s.RejectedTo t 0x0316)

/-- R123: a source of at most four bytes is compressed to the header (R122), and one literal element of all of it if it is not
empty (R101), and the command succeeds (R186); the hash table is not used. The result lengths are an inference the spec marks.
That the whole command is one step is the model's choice (R33, log 5), and that the table stays in IDLE is the model's (log 16). -/
def Obligations.CompressShortInputIsOneLiteral : Prop :=
  ∀ (s : State) (x : List Byte), s.MayStart → s.SourceIs x → x.length ≤ 4 → x.length ≤ s.cfg.maxSrcLen →
    32 + x.length + x.length / 6 ≤ s.regs.dstCap.toNat →
    ∃ t block, exec .compress s = .next t ∧
      block = BitVec.ofNat 8 x.length :: List.replicate 7 0#8 ++
        (if x = [] then [] else BitVec.ofNat 8 (4 * (x.length - 1)) :: x) ∧
      t.mem.Holds s.regs.dstAddr.toNat block ∧ t.mem.SameOutside s.mem s.regs.dstAddr.toNat block.length ∧
      t.status.word = 2 ∧ t.resultLen = BitVec.ofNat 64 block.length ∧ t.phase = .idle ∧ t.latch = s.regs ∧
      { t with
        status := s.status, phase := s.phase, resultLen := s.resultLen, latch := s.latch, comp := s.comp, dec := s.dec,
        unobserved := s.unobserved, mem := s.mem } = s

/-- COMPRESS of a longer source runs (R122, R124, R125, R181): the header of eight bytes stands in the destination and nothing
else of memory changes, the table is sized and the entries it uses are empty while the others keep their values, the cursors of
the scan are 0, and STATUS shows BUSY. The scan itself is the engine's steps (log 5); the guard on the windows (log 7), and t and s0
being 0 here (log 2), are the model's choice. -/
def Obligations.CompressStartsScan : Prop :=
  ∀ s : State, s.MayStart → 4 < s.regs.srcLen.toNat → s.regs.srcLen.toNat ≤ s.cfg.maxSrcLen →
    32 + s.regs.srcLen.toNat + s.regs.srcLen.toNat / 6 ≤ s.regs.dstCap.toNat →
    ∃ t hd, exec .compress s = .next t ∧ hd.length = 8 ∧ le hd = s.regs.srcLen.toNat ∧
      t.mem.Holds s.regs.dstAddr.toNat hd ∧ t.mem.SameOutside s.mem s.regs.dstAddr.toNat 8 ∧
      (t.tableSize, t.shift) = tableParams s.regs.srcLen.toNat ∧
      (∀ h, t.table.get h = if h < t.tableSize then 0 else s.table.get h) ∧
      t.comp = { s := 0, lit := 0, t := 0, s0 := 0, d := 8 } ∧
      t.status.word = 1 ∧ t.resultLen = 0 ∧ t.phase = .compressing ∧ t.latch = s.regs ∧ t.unobserved = s.regs :: s.unobserved ∧
      { t with
        status := s.status, phase := s.phase, resultLen := s.resultLen, latch := s.latch, comp := s.comp, dec := s.dec,
        unobserved := s.unobserved, mem := s.mem, table := s.table, tableSize := s.tableSize, shift := s.shift } = s

/-- R124: TABLE_SIZE is the smallest power of two not below the length, clamped to 256 and 16384, and SHIFT is 32 less its
logarithm. The shift is the spec's decision D5 (log 11). -/
def Obligations.TableSizeIsSmallestPower : Prop :=
  ∀ len : Nat, ∃ k, 8 ≤ k ∧ k ≤ 14 ∧ tableParams len = (2 ^ k, 32 - k) ∧ (len ≤ 2 ^ k ∨ k = 14) ∧ (k = 8 ∨ 2 ^ (k - 1) < len)

/-! ### The match-finder and the tag encoder -/

/-- R127: the hash index is the 32-bit wrapping product shifted right, it always indexes the table of the shift, and every entry
of that table is the index of some word (R124: the shift "always indexes the table and uses all of it"). The wrap and the shift
are the spec's general knowledge (log 11). -/
def Obligations.HashIndexesWholeTable : Prop :=
  ∀ k : Nat, 8 ≤ k → k ≤ 14 →
    (∀ w : BitVec 32, hashIndex (32 - k) w = w.toNat * 0x1e35a7bd % 2 ^ 32 / 2 ^ (32 - k) ∧ hashIndex (32 - k) w < 2 ^ k) ∧
    ∀ h < 2 ^ k, ∃ w : BitVec 32, hashIndex (32 - k) w = h

/-- R129: over a source of bytes `x`, the match test of a slot's value and a scan position holds exactly when the slot is not
empty, the distance is below 32768 and the four bytes are equal. -/
def Obligations.MatchTestIsFourEqualBytes : Prop :=
  ∀ (x : List Byte) (v p : Nat), v ≤ p → p + 3 < x.length →
    ∃ b, matchTest (fun i => x[i]?) v p = some b ∧
      (b = true ↔ v ≠ 0 ∧ p - (v - 1) < 32768 ∧ ∀ j < 4, x[v - 1 + j]? = x[p + j]?)

/-- R101 and R103: the canonical literal of a run of `len` bytes is well-formed, holds the length `len`, and has the size of
R103's table. -/
def Obligations.CanonicalLiteralHasItsSize : Prop :=
  ∀ len : Nat, 1 ≤ len → len ≤ 2 ^ 32 →
    (canonicalLiteral len).wellFormed = true ∧
    (canonicalLiteral len).literal = some ((encode (canonicalLiteral len)).length, len) ∧
    (encode (canonicalLiteral len)).length =
      if len ≤ 60 then 1 else if len ≤ 256 then 2 else if len ≤ 65536 then 3 else if len ≤ 2 ^ 24 then 4 else 5

/-- R106, R112 and R113: the elements of `emit_copy(offset, length)` are well-formed Copy-1 and Copy-2 elements, all with that
offset, none empty, whose lengths add up to the length. How a long copy is split is the spec's decision D24 (log 12). -/
def Obligations.CopyPiecesAddUp : Prop :=
  ∀ offset len : Nat, 1 ≤ offset → offset ≤ 32767 → 4 ≤ len →
    (∀ i ∈ copyPieces len offset len, i.wellFormed = true ∧ ∃ size l, i.copy = some (size, offset, l) ∧ 1 ≤ l) ∧
    ((copyPieces len offset len).map fun i => (i.copy.getD (0, 0, 0)).2.2).sum = len

/-- R107: the size of `emit_copy(offset, length)`, which is at most `length - 1`; the split is D24's (log 12). -/
def Obligations.CopySizeIsBelowLength : Prop :=
  ∀ offset len : Nat, 1 ≤ offset → offset ≤ 32767 → 4 ≤ len →
    (copyBytes offset len).length =
      (if 4 ≤ len ∧ len ≤ 11 ∧ offset < 2048 then 2
        else 3 * (len / 64) +
          if len % 64 = 0 then 0 else if 4 ≤ len % 64 ∧ len % 64 ≤ 11 ∧ offset < 2048 then 2 else 3) ∧
    (copyBytes offset len).length ≤ len - 1

/-! ### The scan -/

/-- A miss (R128, R130): the slot takes the position, the scan goes on at the next one, and nothing is written. That the slot
is written on a miss too is the spec's decision D25 (log 13). -/
def Obligations.ScanMissEntersPosition : Prop :=
  ∀ (s : State) (h : Nat), s.host = [] → s.phase = .compressing → s.comp.s + 3 < s.srcLen →
    hashAt s.src s.shift s.comp.s = some h → matchTest s.src (s.table.get h) s.comp.s = some false →
    ∃ t, step s = .next t ∧ t.table.get h = s.comp.s + 1 ∧ (∀ g, g ≠ h → t.table.get g = s.table.get g) ∧
      t.comp = { s.comp with s := s.comp.s + 1 } ∧ { t with table := s.table, comp := s.comp } = s

/-- A hit (R128, R131 to R133): with the match extended to `e`, the furthest position up to which the bytes are equal, the pending
run is written as one literal element if it is not empty, the copy of the whole match after it, and the scan goes on at `e` with
an empty run; the slot takes the position (D25, log 13). -/
def Obligations.ScanHitWritesRunAndCopy : Prop :=
  ∀ (s : State) (h e : Nat) (run out : List Byte), s.host = [] → s.phase = .compressing → s.comp.s + 3 < s.srcLen →
    hashAt s.src s.shift s.comp.s = some h → matchTest s.src (s.table.get h) s.comp.s = some true →
    s.comp.s + 4 ≤ e → e ≤ s.srcLen →
    (∀ j, s.comp.s + 4 ≤ j → j < e →
      (s.src j).isSome ∧ s.src j = s.src (s.table.get h - 1 + (j - s.comp.s))) →
    (e < s.srcLen → (s.src e).isSome ∧ (s.src (s.table.get h - 1 + (e - s.comp.s))).isSome ∧
      s.src e ≠ s.src (s.table.get h - 1 + (e - s.comp.s))) →
    run.length = s.comp.s - s.comp.lit → run.length ≤ 2 ^ 32 →
    (∀ i, (hi : i < run.length) → s.src (s.comp.lit + i) = some run[i]) →
    out = (if run = [] then [] else encode (canonicalLiteral run.length) ++ run) ++
      copyBytes (s.comp.s - (s.table.get h - 1)) (e - s.comp.s) →
    s.comp.d + out.length ≤ 32 + s.srcLen + s.srcLen / 6 →
    ∃ t, step s = .next t ∧
      t.mem.Holds (s.dstAddr s.comp.d) out ∧ t.mem.SameOutside s.mem (s.dstAddr s.comp.d) out.length ∧
      t.table.get h = s.comp.s + 1 ∧ (∀ g, g ≠ h → t.table.get g = s.table.get g) ∧
      t.comp.s = e ∧ t.comp.lit = e ∧ t.comp.s0 = s.comp.s ∧ t.comp.d = s.comp.d + out.length ∧
      { t with mem := s.mem, table := s.table, comp := s.comp } = s

/-- R134 to R136: when fewer than four bytes remain, the last pending run is written if there is one, and the command succeeds
with the number of bytes written as its result (R186). That flush and completion are one step is the model's choice (log 5),
and that the table, its parameters and the latches stay in IDLE is the model's (log 16). -/
def Obligations.FinalFlushCompletes : Prop :=
  ∀ (s : State) (run out : List Byte), s.host = [] → s.phase = .compressing → s.srcLen ≤ s.comp.s + 3 →
    run.length = s.srcLen - s.comp.lit → run.length ≤ 2 ^ 32 →
    (∀ i, (hi : i < run.length) → s.src (s.comp.lit + i) = some run[i]) →
    out = (if run = [] then [] else encode (canonicalLiteral run.length) ++ run) →
    s.comp.d + out.length ≤ 32 + s.srcLen + s.srcLen / 6 →
    ∃ t, step s = .next t ∧
      t.mem.Holds (s.dstAddr s.comp.d) out ∧ t.mem.SameOutside s.mem (s.dstAddr s.comp.d) out.length ∧
      t.resultLen = BitVec.ofNat 64 (s.comp.d + out.length) ∧
      t.status = { s.status with busy := false, done := true } ∧ t.phase = .idle ∧
      { t with
        mem := s.mem, comp := s.comp, resultLen := s.resultLen, status := s.status, phase := s.phase } = s

/-- R138: a COMPRESS step never raises OUTPUT_OVERRUN, nor any other error, and when the command completes its result is at most
`max_compressed_len(SRC_LEN)`. -/
def Obligations.CompressOutputStaysInBound : Prop :=
  ∀ s t : State, s.Inv → s.cfg.Legal → s.host = [] → s.phase = .compressing → step s = .next t →
    t.status.err = false ∧
    (t.phase = .idle → t.status.word = 2 ∧ t.resultLen.toNat ≤ 32 + s.srcLen + s.srcLen / 6)

/-! ### The life of a command -/

/-- R184: error completion, for every cause: STATUS shows DONE, ERR and the cause's kind and detail codes; RESULT_LEN stays; the
destination is unchanged if the command had written nothing, and else each byte of the write range is a free value (log 3) and
every byte outside it is unchanged. -/
def Obligations.ErrorCompletionReportsCause : Prop :=
  ∀ (e : ErrDetail) (s : State), ∃ t, raise e s = .next t ∧
    s.FailsTo t (BitVec.ofNat 64 (256 * e.code.toNat + 16 * e.kind.code.toNat + 6)) ∧
    (s.hasWritten = true → ∀ i < s.writeRange, t.mem.read (s.dstAddr i) = some (Config.freeByte (s.freeCount + i)))

/-- R28 and R183: where each field of STATUS stands, its reserved bits reading 0, and the word an error completion shows for each
cause, as 95_test_vectors.md writes them. -/
def Obligations.StatusWordHoldsItsFields : Prop :=
  (∀ st : Status, st.word.toNat =
    st.busy.toNat + 2 * st.done.toNat + 4 * st.err.toNat + 16 * st.kind.toNat + 256 * st.detail.toNat) ∧
  (Status.failed .badCommand).word = 0x0116 ∧ (Status.failed .srcTooLong).word = 0x0216 ∧
  (Status.failed .dstTooSmall).word = 0x0316 ∧ (Status.failed .headerTruncated).word = 0x1026 ∧
  (Status.failed .declaredLenTooBig).word = 0x1126 ∧ (Status.failed .tagTruncated).word = 0x1226 ∧
  (Status.failed .litDstOverrun).word = 0x1326 ∧ (Status.failed .litSrcOverrun).word = 0x1426 ∧
  (Status.failed .copyOffsetZero).word = 0x1526 ∧ (Status.failed .copyOffsetBeforeStart).word = 0x1626 ∧
  (Status.failed .copyDstOverrun).word = 0x1726 ∧ (Status.failed .copy4Unsupported).word = 0x1826 ∧
  (Status.failed .lengthMismatch).word = 0x1926 ∧ (Status.failed .outputOverrun).word = 0x2046

/-- R188: a reserved code written while the engine is free completes at once with BAD_COMMAND; the buffer registers are latched,
RESULT_LEN is 0, and neither memory nor any other field changes. It holds whatever the windows, since the model checks R54 for
no reserved code (log 8), it starts no guard on windows and ends none (log 7), and internal state stays in IDLE (log 16). -/
def Obligations.ReservedCodeIsBadCommand : Prop :=
  (∀ (op : BitVec 8) (s : State), s.status.busy = false → ∃ t, exec (.cmdReserved op) s = .next t ∧
    t.status.word = 0x0116 ∧ t.resultLen = 0 ∧ t.latch = s.regs ∧ t.phase = .idle ∧
    { t with status := s.status, resultLen := s.resultLen, latch := s.latch, phase := s.phase } = s) ∧
  (∀ (s : State) (rest : List HostAction) (w : Word), s.status.busy = false → w.toNat % 256 ≠ 1 → w.toNat % 256 ≠ 2 →
    s.host = .regWrite s.cfg.regBase 8 w :: rest → ∃ t, step s = .next t ∧ t.status.word = 0x0116 ∧ t.mem = s.mem)

/-- While a command runs, a host write to any offset of the block has no effect: CMD (R201), the buffer registers (R31), STATUS
(R28), RESULT_LEN (R29) and the reserved offset (R30). That the host's actions are a list is the model's choice (log 4). -/
def Obligations.RegisterWritesIgnoredWhileBusy : Prop :=
  ∀ (s : State) (rest : List HostAction) (k : Nat) (w : Word), s.status.busy = true → k < 8 →
    s.host = .regWrite (s.cfg.regBase + 8 * k) 8 w :: rest → step s = .next { s with host := rest }

/-- R54 (a), (b): COMPRESS and DECOMPRESS are refused by a free engine exactly when an address of a window lies at or above
2^ADDR_BITS, or else when the two windows share an address. That the refusal comes before the commands' own checks, and its
order, is the model's choice (log 8). -/
def Obligations.CommandsRefuseBrokenWindows : Prop :=
  ∀ (i : Instr) (s : State), (i = .compress ∨ i = .decompress) → s.status.busy = false →
    (exec i s = .refused .windowOutsideMemory ↔
      ∃ a, (s.regs.inSrc a = true ∨ s.regs.inDst a = true) ∧ 2 ^ s.cfg.addrBits ≤ a) ∧
    (exec i s = .refused .windowsOverlap ↔
      (¬ ∃ a, (s.regs.inSrc a = true ∨ s.regs.inDst a = true) ∧ 2 ^ s.cfg.addrBits ≤ a) ∧
        ∃ a, s.regs.inSrc a = true ∧ s.regs.inDst a = true)

/-- R187 and R32: between commands, STATUS and RESULT_LEN keep their values: no step changes them but a write to CMD and the
reset input. -/
def Obligations.StatusKeptBetweenCommands : Prop :=
  ∀ s t : State, s.phase = .idle → s.status.busy = false →
    (∀ rest w, s.host ≠ .regWrite s.cfg.regBase 8 w :: rest) → (∀ rest, s.host ≠ .reset :: rest) →
    step s = .next t → t.status = s.status ∧ t.resultLen = s.resultLen ∧ t.phase = .idle

/-- R212: an IDLE engine does nothing until the host acts (log 4); internal state stays too (log 16). -/
def Obligations.IdleEngineDoesNothing : Prop := ∀ s : State, s.phase = .idle → s.host = [] → step s = .next s

/-! ### The host interface -/

/-- R24 to R27 and R218: a buffer register read after a write, while no command runs, gives the written value, and the two
accesses change no other register and nothing else. -/
def Obligations.BufferRegisterReadsBack : Prop :=
  ∀ (s : State) (rest : List HostAction) (off : Nat) (v : Word), s.status.busy = false →
    (off = 0x08 ∨ off = 0x10 ∨ off = 0x18 ∨ off = 0x20) →
    s.host = .regWrite (s.cfg.regBase + off) 8 v :: .regRead (s.cfg.regBase + off) 8 :: rest →
    ∃ t, s.run 2 = .next t ∧ t.hostRead = v ∧ t.host = rest ∧
      (∀ off', off' ≠ off → t.readReg off' = s.readReg off') ∧
      { t with regs := s.regs, host := s.host, hostRead := s.hostRead } = s

/-- R23, R28, R29 and R30: what a read of the other offsets returns (CMD and the reserved offset 0), and that writes to STATUS,
RESULT_LEN and the reserved offset are ignored. -/
def Obligations.OtherRegistersReadOnly : Prop :=
  (∀ (s : State) (rest : List HostAction) (off : Nat) (v : Word),
    (off = 0x00 ∧ v = 0 ∨ off = 0x28 ∧ v = s.status.word ∨ off = 0x30 ∧ v = s.resultLen ∨ off = 0x38 ∧ v = 0) →
    s.host = .regRead (s.cfg.regBase + off) 8 :: rest →
    ∃ t, step s = .next t ∧ t.hostRead = v ∧
      { t with host := s.host, hostRead := s.hostRead, unobserved := s.unobserved } = s) ∧
  (∀ (s : State) (rest : List HostAction) (off : Nat) (v : Word), (off = 0x28 ∨ off = 0x30 ∨ off = 0x38) →
    s.host = .regWrite (s.cfg.regBase + off) 8 v :: rest → step s = .next { s with host := rest })

/-- R30: an access of the block that is not 64 bits wide or not aligned is refused. -/
def Obligations.OddRegisterAccessRefused : Prop :=
  ∀ (s : State) (rest : List HostAction) (off bytes : Nat) (v : Word), off < 0x40 → (bytes ≠ 8 ∨ off % 8 ≠ 0) →
    (s.host = .regRead (s.cfg.regBase + off) bytes :: rest ∨ s.host = .regWrite (s.cfg.regBase + off) bytes v :: rest) →
    step s = .refused .badRegisterAccess

/-- R213 step 5: a poll reads STATUS; while BUSY = 1 the engine moves and the poll goes on, and when BUSY = 0 it is over. That
the engine takes one step between two reads is the model's choice (log 4). -/
def Obligations.PollReadsStatusUntilFree : Prop :=
  ∀ (s : State) (rest : List HostAction), s.host = .poll :: rest →
    (s.status.busy = true → s.status.done = false →
      step s = step { s with hostRead := s.status.word, host := .engine :: .poll :: rest }) ∧
    (s.status.busy = false → ∃ t, step s = .next t ∧ t.hostRead = s.status.word ∧ t.host = rest ∧
      { t with host := s.host, hostRead := s.hostRead, unobserved := s.unobserved } = s)

/-- R54 (d) and R214: while a command runs, a host write into either window is refused (log 7). -/
def Obligations.WindowWriteDuringCommandRefused : Prop :=
  ∀ (s : State) (rest : List HostAction) (a : Nat) (b : Byte), s.Inv → s.status.busy = true → a < 2 ^ s.cfg.addrBits →
    (s.latch.inSrc a = true ∨ s.latch.inDst a = true) → s.host = .memWrite a b :: rest →
    step s = .refused .windowWrittenDuringCommand

/-- R63: (c) while a command runs a host read of the destination window returns a free value (log 3); (b) after a read of STATUS
that returns DONE = 1, a host read of memory returns the byte that stands there. What the host has observed is a field of the
model's own (log 7). -/
def Obligations.HostSeesDestinationAfterDone : Prop :=
  (∀ (s : State) (rest : List HostAction) (a : Nat), s.Inv → s.status.busy = true → a < 2 ^ s.cfg.addrBits →
    s.latch.inDst a = true → s.host = .memRead a :: rest →
    ∃ t, step s = .next t ∧ t.hostRead = (Config.freeByte s.freeCount).setWidth 64 ∧ t.mem = s.mem) ∧
  (∀ (s : State) (rest : List HostAction) (a : Nat) (b : Byte), s.status.done = true → a < 2 ^ s.cfg.addrBits →
    s.mem.read a = some b → s.host = .regRead (s.cfg.regBase + 0x28) 8 :: .memRead a :: rest →
    ∃ t, s.run 2 = .next t ∧ t.hostRead = b.setWidth 64 ∧ t.mem = s.mem ∧ t.unobserved = [])

/-- R11: a byte of host memory reads as what was last written there, and a write changes no other byte; the canonical form is
kept. -/
def Obligations.MemoryReadsLastWrite : Prop :=
  ∀ (m : Memory) (a a' : Nat) (b : Byte), m.wf →
    (m.write a b).wf ∧ (m.write a b).read a' = if a' = a then some b else m.read a'

/-! ### Whole-machine rules -/

/-- R52 and R53: no step changes a byte of memory outside the destination window but a host's own write to memory: the window of
the command that starts in it when a free engine's CMD is written, else the latched one. -/
def Obligations.OnlyDestinationIsWritten : Prop :=
  ∀ (s t : State) (a : Nat), s.Inv → step s = .next t → t.mem.read a ≠ s.mem.read a →
    (∃ b rest, s.host = .memWrite a b :: rest) ∨
    (s.status.busy = true ∧ s.latch.inDst a = true) ∨
    (s.status.busy = false ∧ s.regs.inDst a = true ∧ ∃ w rest, s.host = .regWrite s.cfg.regBase 8 w :: rest)

/-- R51, R62 and R66: no step of the machine changes a byte of a running command's source window. -/
def Obligations.SourceKeptDuringCommand : Prop :=
  ∀ (s t : State) (a : Nat), s.Inv → s.status.busy = true → s.latch.inSrc a = true → step s = .next t →
    t.mem.read a = s.mem.read a

/-- R51 and R53, the reading side: an engine step depends on no byte of memory outside the two windows of the running command.
Two states that differ only there stop alike, or step to states that differ only there. -/
def Obligations.EngineReadsOnlyItsWindows : Prop :=
  ∀ (s t : State) (m : Memory), s.Inv → s.status.busy = true → s.host = [] →
    (∀ a, s.latch.inSrc a = true ∨ s.latch.inDst a = true → m.read a = s.mem.read a) → step s = .next t →
    ∃ m', step { s with mem := m } = .next { t with mem := m' } ∧
      ∀ a, s.latch.inSrc a = true ∨ s.latch.inDst a = true → m'.read a = t.mem.read a

/-- R219: a command whose source can be read comes to its end. A COMPRESS takes at most one engine step for each position left to
scan and one for the flush, a DECOMPRESS one for each source byte left and one for the end; the steps are the model's (log 5). -/
def Obligations.CommandsEndInBoundedSteps : Prop :=
  ∀ s : State, s.Inv → s.host = [] → s.SourceReadable →
    (s.phase = .compressing → ∃ t, s.RestsIn (s.srcLen - s.comp.s + 1) t ∧ t.status.done = true) ∧
    (s.phase = .decompressing → ∃ t, s.RestsIn (s.srcLen - s.dec.s + 1) t ∧ t.status.done = true)

/-- COMPRESS as a whole (R120, R136, R138): with legal windows, an accepted and readable source and room for the worst case, the
command runs to success, its result is at most `max_compressed_len` and is the length of what it wrote, the header gives the
source's length, and no byte of memory outside the destination window changes. The bound on the steps counts the model's steps
(log 5). -/
def Obligations.CompressRunsToSuccess : Prop :=
  ∀ (s : State) (x : List Byte), s.Inv → s.MayStart → s.cfg.Legal → s.host = [] → s.SourceIs x →
    x.length ≤ s.cfg.maxSrcLen → 32 + x.length + x.length / 6 ≤ s.regs.dstCap.toNat →
    ∃ u t block, exec .compress s = .next u ∧ u.RestsIn (x.length + 1) t ∧ t.status.word = 2 ∧
      t.resultLen = BitVec.ofNat 64 block.length ∧ 8 ≤ block.length ∧ block.length ≤ 32 + x.length + x.length / 6 ∧
      le (block.take 8) = x.length ∧ t.mem.Holds s.regs.dstAddr.toNat block ∧
      ∀ a, s.regs.inDst a = false → t.mem.read a = s.mem.read a

/-- R137: the block COMPRESS writes and its RESULT_LEN are a function of the source bytes alone: two machines with the same
source bytes, whatever their addresses, capacities, tables, earlier commands and memories, write the same block. R137 is an
inference the spec marks, and the bound on the steps counts the model's steps (log 5). -/
def Obligations.CompressDependsOnSourceAlone : Prop :=
  ∀ (s1 s2 : State) (x : List Byte),
    (∀ s, s = s1 ∨ s = s2 → s.Inv ∧ s.MayStart ∧ s.cfg.Legal ∧ s.host = [] ∧ s.SourceIs x ∧ x.length ≤ s.cfg.maxSrcLen ∧
      32 + x.length + x.length / 6 ≤ s.regs.dstCap.toNat) →
    ∃ block, ∀ s, s = s1 ∨ s = s2 →
      ∃ u t, exec .compress s = .next u ∧ u.RestsIn (x.length + 1) t ∧ t.status.word = 2 ∧
        t.resultLen = BitVec.ofNat 64 block.length ∧ t.mem.Holds s.regs.dstAddr.toNat block

/-- R143: DECOMPRESS of the block COMPRESS writes for a source gives the source back, on any machine whose source window holds
the block and whose capacity is not below the source's length. The bounds on the steps count the model's steps (log 5). -/
def Obligations.DecompressUndoesCompress : Prop :=
  ∀ (s : State) (x : List Byte), s.Inv → s.MayStart → s.cfg.Legal → s.host = [] → s.SourceIs x →
    x.length ≤ s.cfg.maxSrcLen → 32 + x.length + x.length / 6 ≤ s.regs.dstCap.toNat →
    ∃ u t block, exec .compress s = .next u ∧ u.RestsIn (x.length + 1) t ∧ t.status.word = 2 ∧
      t.resultLen = BitVec.ofNat 64 block.length ∧ t.mem.Holds s.regs.dstAddr.toNat block ∧
      ∀ v : State, v.Inv → v.MayStart → v.host = [] → v.SourceIs block → x.length ≤ v.regs.dstCap.toNat →
        ∃ w z, exec .decompress v = .next w ∧ w.RestsIn (block.length + 1) z ∧ z.status.word = 2 ∧
          z.resultLen = BitVec.ofNat 64 x.length ∧ z.mem.Holds v.regs.dstAddr.toNat x

/-! ### Byte order and error kinds -/

/-- R10: `le` is the sum of the bytes by their weights, and `le_k(x)` is the `k` bytes of `x`, lowest first. -/
def Obligations.LittleEndianByWeights : Prop :=
  (∀ bs : List Byte, le bs = ∑ i : Fin bs.length, bs[i].toNat * 2 ^ (8 * i.val)) ∧
  (∀ k x : Nat, x < 2 ^ (8 * k) →
    (leBytes k x).length = k ∧ ∀ i < k, (leBytes k x)[i]? = some (BitVec.ofNat 8 (x / 2 ^ (8 * i))))

/-- R182: the code of each error kind, and of every state of the invariant that the kind field is 0 exactly without an error and
holds one of the codes 1, 2 and 4 with one (R28): UnsupportedInput (R189) and the reserved codes are never reported, and the
kind is 4 exactly with the detail of R190's check (R183). That R190's check never fails is CompressOutputStaysInBound. -/
def Obligations.ErrorKindsAreCoded : Prop :=
  ErrKind.invalidInput.code = 1 ∧ ErrKind.corruptInput.code = 2 ∧ ErrKind.unsupportedInput.code = 3 ∧
  ErrKind.internalError.code = 4 ∧
  ∀ s : State, s.Inv →
    (s.status.kind = 0 ↔ s.status.err = false) ∧
    (s.status.kind = 0 ∨ s.status.kind = 1 ∨ s.status.kind = 2 ∨ s.status.kind = 4) ∧
    (s.status.kind = 4 ↔ s.status.detail = 0x20)

/-- R126: where the four source bytes at a scan position can be read, the hash word there is their little-endian number, with no
bit lost. -/
def Obligations.HashWordIsFourSourceBytes : Prop :=
  ∀ (s : State) (p : Nat) (b0 b1 b2 b3 : Byte),
    s.src p = some b0 → s.src (p + 1) = some b1 → s.src (p + 2) = some b2 → s.src (p + 3) = some b3 →
    ∃ w, hashWord s.src p = some w ∧ w.toNat = le [b0, b1, b2, b3]
end

