-- ==== Sys2Proof/Laws/Sparse.lean ====
section
/-! SUPPORT. Laws of the sorted lists of pairs: what a read gives after a put, and that a put keeps the order. -/

namespace Sys2Proof.Machine

variable {α : Type}

@[simp] theorem sparseGet_nil (k : Nat) : sparseGet k ([] : List (Nat × α)) = none := rfl

@[simp] theorem sparseGet_put_self (k : Nat) (v : α) (l : List (Nat × α)) : sparseGet k (sparsePut k v l) = some v := by
  induction l with
  | nil => simp [sparsePut, sparseGet]
  | cons x xs ih =>
    obtain ⟨j, w⟩ := x
    simp only [sparsePut]
    split
    · simp [sparseGet, ih, Nat.ne_of_lt ‹_›]
    · split <;> simp [sparseGet]

theorem sparseGet_put_ne {k k' : Nat} (h : k' ≠ k) (v : α) (l : List (Nat × α)) :
    sparseGet k' (sparsePut k v l) = sparseGet k' l := by
  induction l with
  | nil => simp [sparsePut, sparseGet, h.symm]
  | cons x xs ih =>
    obtain ⟨j, w⟩ := x
    simp only [sparsePut]
    split
    · simp [sparseGet, ih]
    · split
      · subst j; simp [sparseGet, h.symm]
      · simp [sparseGet, h.symm]

theorem mem_sparsePut {k : Nat} {v : α} {l : List (Nat × α)} {x : Nat × α} (h : x ∈ sparsePut k v l) : x = (k, v) ∨ x ∈ l := by
  induction l with
  | nil => simpa [sparsePut] using h
  | cons y ys ih =>
    obtain ⟨j, w⟩ := y
    simp only [sparsePut] at h
    split at h
    · rcases List.mem_cons.mp h with h | h
      · exact .inr (h ▸ List.mem_cons_self)
      · exact (ih h).imp id (List.mem_cons_of_mem _)
    · split at h
      · rcases List.mem_cons.mp h with h | h
        · exact .inl h
        · exact .inr (List.mem_cons_of_mem _ h)
      · exact (List.mem_cons.mp h)

theorem sparseSorted_put (k : Nat) (v : α) {l : List (Nat × α)} (h : sparseSorted l) : sparseSorted (sparsePut k v l) := by
  induction l with
  | nil => simp [sparsePut, sparseSorted]
  | cons x xs ih =>
    obtain ⟨j, w⟩ := x
    obtain ⟨hx, hxs⟩ := List.pairwise_cons.mp h
    simp only [sparsePut]
    split
    · rename_i hjk
      refine List.pairwise_cons.mpr ⟨fun y hy => ?_, ih hxs⟩
      rcases mem_sparsePut hy with rfl | hy
      · exact hjk
      · exact hx y hy
    · split
      · subst j; exact List.pairwise_cons.mpr ⟨hx, hxs⟩
      · refine List.pairwise_cons.mpr ⟨fun y hy => ?_, h⟩
        rcases List.mem_cons.mp hy with rfl | hy
        · show k < j; omega
        · have := hx y hy; show k < y.1; simp only at this; omega

theorem mem_of_sparseGet {k : Nat} {v : α} {l : List (Nat × α)} (h : sparseGet k l = some v) : (k, v) ∈ l := by
  induction l with
  | nil => simp at h
  | cons x xs ih =>
    obtain ⟨j, w⟩ := x
    simp only [sparseGet] at h
    split at h
    · subst j; cases h; exact List.mem_cons_self
    · exact List.mem_cons_of_mem _ (ih h)

theorem sparseGet_filter_ge {k n : Nat} (hk : n ≤ k) (l : List (Nat × α)) :
    sparseGet k (l.filter fun e => decide (n ≤ e.1)) = sparseGet k l := by
  induction l with
  | nil => rfl
  | cons x xs ih =>
    obtain ⟨j, w⟩ := x
    by_cases hj : n ≤ j
    · simp [sparseGet, hj, ih]
    · simp [sparseGet, hj, ih, show j ≠ k by omega]

theorem sparseGet_filter_lt {k n : Nat} (hk : k < n) (l : List (Nat × α)) :
    sparseGet k (l.filter fun e => decide (n ≤ e.1)) = none := by
  induction l with
  | nil => rfl
  | cons x xs ih =>
    obtain ⟨j, w⟩ := x
    by_cases hj : n ≤ j
    · simp [sparseGet, hj, ih, show j ≠ k by omega]
    · simp [hj, ih]

end Sys2Proof.Machine
end

