-- ==== Sys2Proof/Laws/Memory.lean ====
section
/-! SUPPORT. Laws of host memory and of the hash table: what each operation leaves at every address, and that each keeps the
canonical form. -/

namespace Sys2Proof.Machine

/-! ### One byte -/

@[simp] theorem Memory.read_write_self (m : Memory) (a : Nat) (b : Byte) : (m.write a b).read a = some b := by
  simp [Memory.read, Memory.write]

theorem Memory.read_write_ne {a a' : Nat} (h : a' ≠ a) (m : Memory) (b : Byte) : (m.write a b).read a' = m.read a' := by
  simp [Memory.read, Memory.write, sparseGet_put_ne h]

theorem Memory.read_write (m : Memory) (a a' : Nat) (b : Byte) :
    (m.write a b).read a' = if a' = a then some b else m.read a' := by
  split
  · subst a'; simp
  · exact Memory.read_write_ne ‹_› m b

theorem Memory.wf_write {m : Memory} (h : m.wf) (a : Nat) (b : Byte) : (m.write a b).wf := sparseSorted_put a b h

theorem State.reset_mem_wf : State.reset.mem.wf := List.Pairwise.nil

/-! ### Runs of bytes -/

theorem Memory.read_writeBytes_outside {a a' : Nat} {bs : List Byte} (h : a' < a ∨ a + bs.length ≤ a') (m : Memory) :
    (m.writeBytes a bs).read a' = m.read a' := by
  induction bs generalizing a m with
  | nil => rfl
  | cons b bs ih =>
    simp only [List.length_cons] at h
    rw [Memory.writeBytes, ih (by omega), Memory.read_write_ne (by omega)]

theorem Memory.read_writeBytes_inside {a i : Nat} {bs : List Byte} (h : i < bs.length) (m : Memory) :
    (m.writeBytes a bs).read (a + i) = some bs[i] := by
  induction bs generalizing a i m with
  | nil => simp at h
  | cons b bs ih =>
    rw [Memory.writeBytes]
    cases i with
    | zero => simp [Memory.read_writeBytes_outside (a := a + 1) (a' := a) (bs := bs) (by omega)]
    | succ i =>
      have := ih (a := a + 1) (i := i) (by simpa using h) (m.write a b)
      rw [show a + (i + 1) = a + 1 + i by omega, this]; rfl

theorem Memory.wf_writeBytes {m : Memory} (h : m.wf) (a : Nat) (bs : List Byte) : (m.writeBytes a bs).wf := by
  induction bs generalizing a m with
  | nil => exact h
  | cons b bs ih => exact ih (Memory.wf_write h a b) (a + 1)

theorem Memory.writeBytes_append (m : Memory) (a : Nat) (xs ys : List Byte) :
    m.writeBytes a (xs ++ ys) = (m.writeBytes a xs).writeBytes (a + xs.length) ys := by
  induction xs generalizing a m with
  | nil => rfl
  | cons x xs ih => simp [Memory.writeBytes, ih, Nat.add_assoc, Nat.add_comm 1]

/-- Reading a run gives exactly the bytes at its addresses. -/
theorem Memory.readBytes_eq_some {m : Memory} {a n : Nat} {bs : List Byte} :
    m.readBytes a n = some bs ↔ bs.length = n ∧ ∀ i, (h : i < bs.length) → m.read (a + i) = some bs[i] := by
  induction n generalizing a bs with
  | zero =>
    simp only [Memory.readBytes, Option.some.injEq, List.length_eq_zero_iff]
    constructor
    · rintro rfl; simp
    · rintro ⟨rfl, -⟩; rfl
  | succ n ih =>
    simp only [Memory.readBytes]
    constructor
    · intro h
      split at h
      · rename_i b bs' hb hbs
        cases h
        obtain ⟨hl, hr⟩ := ih.mp hbs
        refine ⟨by simp [hl], fun i hi => ?_⟩
        cases i with
        | zero => simpa using hb
        | succ i => rw [show a + (i + 1) = a + 1 + i by omega, hr i (by simpa using hi)]; rfl
      · cases h
    · rintro ⟨hl, hr⟩
      cases bs with
      | nil => simp at hl
      | cons b bs =>
        have h0 : m.read a = some b := hr 0 (by simp)
        have h1 : m.readBytes (a + 1) n = some bs := by
          refine ih.mpr ⟨by simpa using hl, fun i hi => ?_⟩
          have := hr (i + 1) (by simpa using hi)
          rw [show a + 1 + i = a + (i + 1) by omega, this]; rfl
        simp [h0, h1]

/-- A run can be read when each of its bytes can. -/
theorem Memory.readBytes_isSome {m : Memory} {a n : Nat} (h : ∀ i < n, (m.read (a + i)).isSome) :
    ∃ bs, m.readBytes a n = some bs := by
  induction n generalizing a with
  | zero => exact ⟨[], rfl⟩
  | succ n ih =>
    obtain ⟨b, hb⟩ := Option.isSome_iff_exists.mp (h 0 (by omega))
    obtain ⟨bs, hbs⟩ := ih (a := a + 1) fun i hi => by
      have := h (i + 1) (by omega); rwa [show a + 1 + i = a + (i + 1) by omega]
    exact ⟨b :: bs, by simp [Memory.readBytes, show m.read a = some b from hb, hbs]⟩

@[simp] theorem freeBytes_length (k n : Nat) : (freeBytes k n).length = n := by
  induction n generalizing k with
  | zero => rfl
  | succ n ih => simp [freeBytes, ih]

theorem freeBytes_getElem {k n i : Nat} (h : i < (freeBytes k n).length) : (freeBytes k n)[i] = Config.freeByte (k + i) := by
  induction n generalizing k i with
  | zero => simp at h
  | succ n ih =>
    cases i with
    | zero => rfl
    | succ i =>
      have := ih (k := k + 1) (i := i) (by simpa using h)
      simpa [freeBytes, show k + 1 + i = k + (i + 1) by omega] using this

/-! ### The copy loop -/

theorem Memory.copyUp_read_outside {m m' : Memory} {src dst len a : Nat} (h : m.copyUp src dst len = some m')
    (ha : a < dst ∨ dst + len ≤ a) : m'.read a = m.read a := by
  induction len generalizing m src dst with
  | zero => cases h; rfl
  | succ len ih =>
    simp only [Memory.copyUp] at h
    split at h
    · cases h
    · rw [ih h (by omega), Memory.read_write_ne (by omega)]

theorem Memory.copyUp_wf {m m' : Memory} {src dst len : Nat} (h : m.copyUp src dst len = some m') (hw : m.wf) : m'.wf := by
  induction len generalizing m src dst with
  | zero => cases h; exact hw
  | succ len ih =>
    simp only [Memory.copyUp] at h
    split at h
    · cases h
    · exact ih h (Memory.wf_write hw _ _)

/-- A copy upward leaves, at each address it wrote, what it leaves at the address that byte came from: the bytes it wrote
itself count (R62, R160). -/
theorem Memory.copyUp_read_inside {m m' : Memory} {src dst len i : Nat} (h : m.copyUp src dst len = some m')
    (hsd : src < dst) (hi : i < len) : m'.read (dst + i) = m'.read (src + i) := by
  induction len generalizing m src dst i with
  | zero => omega
  | succ len ih =>
    simp only [Memory.copyUp] at h
    split at h
    · cases h
    · rename_i b hb
      cases i with
      | zero =>
        simp only [Nat.add_zero]
        rw [Memory.copyUp_read_outside h (a := dst) (by omega), Memory.copyUp_read_outside h (a := src) (by omega)]
        rw [Memory.read_write_self, Memory.read_write_ne (by omega), hb]
      | succ i =>
        have := ih h (i := i) (by omega) (by omega)
        rwa [show dst + (i + 1) = dst + 1 + i by omega, show src + (i + 1) = src + 1 + i by omega]

/-- A copy between ranges that do not meet leaves the source bytes at the destination (R154). -/
theorem Memory.copyUp_read_disjoint {m m' : Memory} {src dst len i : Nat} (h : m.copyUp src dst len = some m')
    (hd : src + len ≤ dst ∨ dst + len ≤ src) (hi : i < len) : m'.read (dst + i) = m.read (src + i) := by
  induction len generalizing m src dst i with
  | zero => omega
  | succ len ih =>
    simp only [Memory.copyUp] at h
    split at h
    · cases h
    · rename_i b hb
      cases i with
      | zero =>
        simp only [Nat.add_zero]
        rw [Memory.copyUp_read_outside h (a := dst) (by omega), Memory.read_write_self, hb]
      | succ i =>
        have := ih h (i := i) (by omega) (by omega)
        rw [show dst + (i + 1) = dst + 1 + i by omega, show src + (i + 1) = src + 1 + i by omega, this,
          Memory.read_write_ne (by omega)]

/-- A copy upward goes through when the bytes below the destination have been written: it writes the others itself. -/
theorem Memory.copyUp_isSome {m : Memory} {src dst len : Nat} (hsd : src < dst)
    (h : ∀ i < len, src + i < dst → (m.read (src + i)).isSome) : ∃ m', m.copyUp src dst len = some m' := by
  induction len generalizing m src dst with
  | zero => exact ⟨m, rfl⟩
  | succ len ih =>
    obtain ⟨b, hb⟩ := Option.isSome_iff_exists.mp (h 0 (by omega) (by omega))
    rw [Nat.add_zero] at hb
    simp only [Memory.copyUp, hb]
    refine ih (by omega) fun i hi hlt => ?_
    by_cases hc : src + 1 + i = dst
    · rw [hc, Memory.read_write_self]; rfl
    · have := h (i + 1) (by omega) (by omega)
      rwa [Memory.read_write_ne hc, show src + 1 + i = src + (i + 1) by omega]

/-- Any copy goes through when every byte of its source range has been written. -/
theorem Memory.copyUp_isSome_of_readable {m : Memory} {src dst len : Nat} (h : ∀ i < len, (m.read (src + i)).isSome) :
    ∃ m', m.copyUp src dst len = some m' := by
  induction len generalizing m src dst with
  | zero => exact ⟨m, rfl⟩
  | succ len ih =>
    obtain ⟨b, hb⟩ := Option.isSome_iff_exists.mp (h 0 (by omega))
    rw [Nat.add_zero] at hb
    simp only [Memory.copyUp, hb]
    refine ih fun i hi => ?_
    rw [Memory.read_write]
    split
    · rfl
    · have := h (i + 1) (by omega)
      rwa [show src + 1 + i = src + (i + 1) by omega]

/-! ### The hash table -/

@[simp] theorem Table.get_put_self (t : Table) (h p : Nat) : (t.put h p).get h = p + 1 := by simp [Table.get, Table.put]

theorem Table.get_put_ne {h h' : Nat} (hne : h' ≠ h) (t : Table) (p : Nat) : (t.put h p).get h' = t.get h' := by
  simp [Table.get, Table.put, sparseGet_put_ne hne]

theorem Table.wf_put {t : Table} (h : t.wf) (i p : Nat) : (t.put i p).wf :=
  ⟨sparseSorted_put i (p + 1) h.1, fun e he => by
    rcases mem_sparsePut he with rfl | he
    · simp
    · exact h.2 e he⟩

/-- The clear empties the entries below the size and keeps the others (R125). -/
theorem Table.get_clear (t : Table) (size h : Nat) : (t.clear size).get h = if h < size then 0 else t.get h := by
  split
  · simp [Table.get, Table.clear, sparseGet_filter_lt ‹_›]
  · simp [Table.get, Table.clear, sparseGet_filter_ge (Nat.le_of_not_lt ‹_›)]

theorem Table.wf_clear {t : Table} (h : t.wf) (size : Nat) : (t.clear size).wf :=
  ⟨h.1.filter _, fun e he => h.2 e (List.mem_filter.mp he).1⟩

end Sys2Proof.Machine
end

