-- ==== Sys2Proof/Laws/State.lean ====
section
/-! SUPPORT. One lemma per field per named update of State, so that no proof unfolds an update. -/

namespace Sys2Proof.Machine

/-! ### State.start -/

@[simp] theorem State.start_regs (s : State) : s.start.regs = s.regs := rfl
@[simp] theorem State.start_status (s : State) : s.start.status = Status.started := rfl
@[simp] theorem State.start_resultLen (s : State) : s.start.resultLen = 0 := rfl
@[simp] theorem State.start_phase (s : State) : s.start.phase = s.phase := rfl
@[simp] theorem State.start_table (s : State) : s.start.table = s.table := rfl
@[simp] theorem State.start_tableSize (s : State) : s.start.tableSize = s.tableSize := rfl
@[simp] theorem State.start_shift (s : State) : s.start.shift = s.shift := rfl
@[simp] theorem State.start_comp (s : State) : s.start.comp = s.comp := rfl
@[simp] theorem State.start_dec (s : State) : s.start.dec = s.dec := rfl
@[simp] theorem State.start_latch (s : State) : s.start.latch = s.regs := rfl
@[simp] theorem State.start_mem (s : State) : s.start.mem = s.mem := rfl
@[simp] theorem State.start_cfg (s : State) : s.start.cfg = s.cfg := rfl
@[simp] theorem State.start_host (s : State) : s.start.host = s.host := rfl
@[simp] theorem State.start_hostRead (s : State) : s.start.hostRead = s.hostRead := rfl
@[simp] theorem State.start_unobserved (s : State) : s.start.unobserved = s.unobserved := rfl
@[simp] theorem State.start_freeCount (s : State) : s.start.freeCount = s.freeCount := rfl

/-! ### State.begin -/

@[simp] theorem State.begin_regs (s : State) (p : Phase) : (s.begin p).regs = s.regs := rfl
@[simp] theorem State.begin_status (s : State) (p : Phase) : (s.begin p).status = Status.started := rfl
@[simp] theorem State.begin_resultLen (s : State) (p : Phase) : (s.begin p).resultLen = 0 := rfl
@[simp] theorem State.begin_phase (s : State) (p : Phase) : (s.begin p).phase = p := rfl
@[simp] theorem State.begin_table (s : State) (p : Phase) : (s.begin p).table = s.table := rfl
@[simp] theorem State.begin_tableSize (s : State) (p : Phase) : (s.begin p).tableSize = s.tableSize := rfl
@[simp] theorem State.begin_shift (s : State) (p : Phase) : (s.begin p).shift = s.shift := rfl
@[simp] theorem State.begin_comp (s : State) (p : Phase) : (s.begin p).comp = CompCursors.zero := rfl
@[simp] theorem State.begin_dec (s : State) (p : Phase) : (s.begin p).dec = DecCursors.zero := rfl
@[simp] theorem State.begin_latch (s : State) (p : Phase) : (s.begin p).latch = s.regs := rfl
@[simp] theorem State.begin_mem (s : State) (p : Phase) : (s.begin p).mem = s.mem := rfl
@[simp] theorem State.begin_cfg (s : State) (p : Phase) : (s.begin p).cfg = s.cfg := rfl
@[simp] theorem State.begin_host (s : State) (p : Phase) : (s.begin p).host = s.host := rfl
@[simp] theorem State.begin_hostRead (s : State) (p : Phase) : (s.begin p).hostRead = s.hostRead := rfl
@[simp] theorem State.begin_unobserved (s : State) (p : Phase) : (s.begin p).unobserved = s.regs :: s.unobserved := rfl
@[simp] theorem State.begin_freeCount (s : State) (p : Phase) : (s.begin p).freeCount = s.freeCount := rfl

/-! ### State.pastHeader -/

@[simp] theorem State.pastHeader_regs (s : State) (k : Nat) : (s.pastHeader k).regs = s.regs := rfl
@[simp] theorem State.pastHeader_status (s : State) (k : Nat) : (s.pastHeader k).status = s.status := rfl
@[simp] theorem State.pastHeader_resultLen (s : State) (k : Nat) : (s.pastHeader k).resultLen = s.resultLen := rfl
@[simp] theorem State.pastHeader_phase (s : State) (k : Nat) : (s.pastHeader k).phase = s.phase := rfl
@[simp] theorem State.pastHeader_table (s : State) (k : Nat) : (s.pastHeader k).table = s.table := rfl
@[simp] theorem State.pastHeader_tableSize (s : State) (k : Nat) : (s.pastHeader k).tableSize = s.tableSize := rfl
@[simp] theorem State.pastHeader_shift (s : State) (k : Nat) : (s.pastHeader k).shift = s.shift := rfl
@[simp] theorem State.pastHeader_comp (s : State) (k : Nat) : (s.pastHeader k).comp = s.comp := rfl
@[simp] theorem State.pastHeader_dec (s : State) (k : Nat) : (s.pastHeader k).dec = { s.dec with s := s.dec.s + k } := rfl
@[simp] theorem State.pastHeader_latch (s : State) (k : Nat) : (s.pastHeader k).latch = s.latch := rfl
@[simp] theorem State.pastHeader_mem (s : State) (k : Nat) : (s.pastHeader k).mem = s.mem := rfl
@[simp] theorem State.pastHeader_cfg (s : State) (k : Nat) : (s.pastHeader k).cfg = s.cfg := rfl
@[simp] theorem State.pastHeader_host (s : State) (k : Nat) : (s.pastHeader k).host = s.host := rfl
@[simp] theorem State.pastHeader_hostRead (s : State) (k : Nat) : (s.pastHeader k).hostRead = s.hostRead := rfl
@[simp] theorem State.pastHeader_unobserved (s : State) (k : Nat) : (s.pastHeader k).unobserved = s.unobserved := rfl
@[simp] theorem State.pastHeader_freeCount (s : State) (k : Nat) : (s.pastHeader k).freeCount = s.freeCount := rfl

/-! ### State.loseRange -/

@[simp] theorem State.loseRange_regs (s : State) : s.loseRange.regs = s.regs := rfl
@[simp] theorem State.loseRange_status (s : State) : s.loseRange.status = s.status := rfl
@[simp] theorem State.loseRange_resultLen (s : State) : s.loseRange.resultLen = s.resultLen := rfl
@[simp] theorem State.loseRange_phase (s : State) : s.loseRange.phase = s.phase := rfl
@[simp] theorem State.loseRange_table (s : State) : s.loseRange.table = s.table := rfl
@[simp] theorem State.loseRange_tableSize (s : State) : s.loseRange.tableSize = s.tableSize := rfl
@[simp] theorem State.loseRange_shift (s : State) : s.loseRange.shift = s.shift := rfl
@[simp] theorem State.loseRange_comp (s : State) : s.loseRange.comp = s.comp := rfl
@[simp] theorem State.loseRange_dec (s : State) : s.loseRange.dec = s.dec := rfl
@[simp] theorem State.loseRange_latch (s : State) : s.loseRange.latch = s.latch := rfl
@[simp] theorem State.loseRange_mem (s : State) : s.loseRange.mem = s.mem.writeBytes (s.dstAddr 0) (freeBytes s.freeCount s.writeRange) := rfl
@[simp] theorem State.loseRange_cfg (s : State) : s.loseRange.cfg = s.cfg := rfl
@[simp] theorem State.loseRange_host (s : State) : s.loseRange.host = s.host := rfl
@[simp] theorem State.loseRange_hostRead (s : State) : s.loseRange.hostRead = s.hostRead := rfl
@[simp] theorem State.loseRange_unobserved (s : State) : s.loseRange.unobserved = s.unobserved := rfl
@[simp] theorem State.loseRange_freeCount (s : State) : s.loseRange.freeCount = s.freeCount + s.writeRange := rfl

/-! ### State.observe -/

@[simp] theorem State.observe_regs (s : State) (o : Nat) : (s.observe o).regs = s.regs := rfl
@[simp] theorem State.observe_status (s : State) (o : Nat) : (s.observe o).status = s.status := rfl
@[simp] theorem State.observe_resultLen (s : State) (o : Nat) : (s.observe o).resultLen = s.resultLen := rfl
@[simp] theorem State.observe_phase (s : State) (o : Nat) : (s.observe o).phase = s.phase := rfl
@[simp] theorem State.observe_table (s : State) (o : Nat) : (s.observe o).table = s.table := rfl
@[simp] theorem State.observe_tableSize (s : State) (o : Nat) : (s.observe o).tableSize = s.tableSize := rfl
@[simp] theorem State.observe_shift (s : State) (o : Nat) : (s.observe o).shift = s.shift := rfl
@[simp] theorem State.observe_comp (s : State) (o : Nat) : (s.observe o).comp = s.comp := rfl
@[simp] theorem State.observe_dec (s : State) (o : Nat) : (s.observe o).dec = s.dec := rfl
@[simp] theorem State.observe_latch (s : State) (o : Nat) : (s.observe o).latch = s.latch := rfl
@[simp] theorem State.observe_mem (s : State) (o : Nat) : (s.observe o).mem = s.mem := rfl
@[simp] theorem State.observe_cfg (s : State) (o : Nat) : (s.observe o).cfg = s.cfg := rfl
@[simp] theorem State.observe_host (s : State) (o : Nat) : (s.observe o).host = s.host := rfl
@[simp] theorem State.observe_hostRead (s : State) (o : Nat) : (s.observe o).hostRead = s.readReg o := rfl
@[simp] theorem State.observe_unobserved (s : State) (o : Nat) : (s.observe o).unobserved = if o = 0x28 ∧ s.status.done then [] else s.unobserved := rfl
@[simp] theorem State.observe_freeCount (s : State) (o : Nat) : (s.observe o).freeCount = s.freeCount := rfl

/-! ### The two completions -/

@[simp] theorem raise_eq (s : State) (e : ErrDetail) : raise e s = .next (s.raised e) := rfl

@[simp] theorem complete_eq (s : State) (r : Nat) : complete r s = .next (s.completed r) := rfl

@[simp] theorem State.raised_regs (s : State) (e : ErrDetail) : (s.raised e).regs = s.regs := by
  unfold State.raised; split <;> rfl
@[simp] theorem State.raised_status (s : State) (e : ErrDetail) : (s.raised e).status = Status.failed e := rfl
@[simp] theorem State.raised_resultLen (s : State) (e : ErrDetail) : (s.raised e).resultLen = s.resultLen := by
  unfold State.raised; split <;> rfl
@[simp] theorem State.raised_phase (s : State) (e : ErrDetail) : (s.raised e).phase = .idle := rfl
@[simp] theorem State.raised_table (s : State) (e : ErrDetail) : (s.raised e).table = s.table := by
  unfold State.raised; split <;> rfl
@[simp] theorem State.raised_tableSize (s : State) (e : ErrDetail) : (s.raised e).tableSize = s.tableSize := by
  unfold State.raised; split <;> rfl
@[simp] theorem State.raised_shift (s : State) (e : ErrDetail) : (s.raised e).shift = s.shift := by
  unfold State.raised; split <;> rfl
@[simp] theorem State.raised_comp (s : State) (e : ErrDetail) : (s.raised e).comp = s.comp := by
  unfold State.raised; split <;> rfl
@[simp] theorem State.raised_dec (s : State) (e : ErrDetail) : (s.raised e).dec = s.dec := by
  unfold State.raised; split <;> rfl
@[simp] theorem State.raised_latch (s : State) (e : ErrDetail) : (s.raised e).latch = s.latch := by
  unfold State.raised; split <;> rfl
theorem State.raised_mem (s : State) (e : ErrDetail) :
    (s.raised e).mem = if s.hasWritten then s.mem.writeBytes (s.dstAddr 0) (freeBytes s.freeCount s.writeRange) else s.mem := by
  unfold State.raised; split <;> rfl
@[simp] theorem State.raised_cfg (s : State) (e : ErrDetail) : (s.raised e).cfg = s.cfg := by
  unfold State.raised; split <;> rfl
@[simp] theorem State.raised_host (s : State) (e : ErrDetail) : (s.raised e).host = s.host := by
  unfold State.raised; split <;> rfl
@[simp] theorem State.raised_hostRead (s : State) (e : ErrDetail) : (s.raised e).hostRead = s.hostRead := by
  unfold State.raised; split <;> rfl
@[simp] theorem State.raised_unobserved (s : State) (e : ErrDetail) : (s.raised e).unobserved = s.unobserved := by
  unfold State.raised; split <;> rfl
theorem State.raised_freeCount (s : State) (e : ErrDetail) :
    (s.raised e).freeCount = if s.hasWritten then s.freeCount + s.writeRange else s.freeCount := by
  unfold State.raised; split <;> rfl
@[simp] theorem State.completed_regs (s : State) (r : Nat) : (s.completed r).regs = s.regs := rfl
@[simp] theorem State.completed_status (s : State) (r : Nat) : (s.completed r).status = s.status.succeeded := rfl
@[simp] theorem State.completed_resultLen (s : State) (r : Nat) : (s.completed r).resultLen = BitVec.ofNat 64 r := rfl
@[simp] theorem State.completed_phase (s : State) (r : Nat) : (s.completed r).phase = .idle := rfl
@[simp] theorem State.completed_table (s : State) (r : Nat) : (s.completed r).table = s.table := rfl
@[simp] theorem State.completed_tableSize (s : State) (r : Nat) : (s.completed r).tableSize = s.tableSize := rfl
@[simp] theorem State.completed_shift (s : State) (r : Nat) : (s.completed r).shift = s.shift := rfl
@[simp] theorem State.completed_comp (s : State) (r : Nat) : (s.completed r).comp = s.comp := rfl
@[simp] theorem State.completed_dec (s : State) (r : Nat) : (s.completed r).dec = s.dec := rfl
@[simp] theorem State.completed_latch (s : State) (r : Nat) : (s.completed r).latch = s.latch := rfl
@[simp] theorem State.completed_mem (s : State) (r : Nat) : (s.completed r).mem = s.mem := rfl
@[simp] theorem State.completed_cfg (s : State) (r : Nat) : (s.completed r).cfg = s.cfg := rfl
@[simp] theorem State.completed_host (s : State) (r : Nat) : (s.completed r).host = s.host := rfl
@[simp] theorem State.completed_hostRead (s : State) (r : Nat) : (s.completed r).hostRead = s.hostRead := rfl
@[simp] theorem State.completed_unobserved (s : State) (r : Nat) : (s.completed r).unobserved = s.unobserved := rfl
@[simp] theorem State.completed_freeCount (s : State) (r : Nat) : (s.completed r).freeCount = s.freeCount := rfl

/-! ### What the latched windows give, under each update -/

@[simp] theorem State.begin_srcLen (s : State) (p : Phase) : (s.begin p).srcLen = s.regs.srcLen.toNat := rfl
@[simp] theorem State.begin_dstCap (s : State) (p : Phase) : (s.begin p).dstCap = s.regs.dstCap.toNat := rfl
@[simp] theorem State.begin_srcAddr (s : State) (p : Phase) (i : Nat) : (s.begin p).srcAddr i = s.regs.srcAddr.toNat + i := rfl
@[simp] theorem State.begin_dstAddr (s : State) (p : Phase) (i : Nat) : (s.begin p).dstAddr i = s.regs.dstAddr.toNat + i := rfl
@[simp] theorem State.begin_hasWritten (s : State) (p : Phase) : (s.begin p).hasWritten = false := by cases p <;> rfl
@[simp] theorem State.pastHeader_srcLen (s : State) (k : Nat) : (s.pastHeader k).srcLen = s.srcLen := rfl
@[simp] theorem State.pastHeader_dstCap (s : State) (k : Nat) : (s.pastHeader k).dstCap = s.dstCap := rfl
@[simp] theorem State.pastHeader_srcAddr (s : State) (k : Nat) (i : Nat) : (s.pastHeader k).srcAddr i = s.srcAddr i := rfl
@[simp] theorem State.pastHeader_dstAddr (s : State) (k : Nat) (i : Nat) : (s.pastHeader k).dstAddr i = s.dstAddr i := rfl
@[simp] theorem State.pastHeader_src (s : State) (k : Nat) : (s.pastHeader k).src = s.src := rfl
@[simp] theorem State.pastHeader_writeRange (s : State) (k : Nat) : (s.pastHeader k).writeRange = s.writeRange := rfl
@[simp] theorem State.pastHeader_hasWritten (s : State) (k : Nat) : (s.pastHeader k).hasWritten = s.hasWritten := rfl
@[simp] theorem State.observe_srcLen (s : State) (o : Nat) : (s.observe o).srcLen = s.srcLen := rfl
@[simp] theorem State.observe_dstCap (s : State) (o : Nat) : (s.observe o).dstCap = s.dstCap := rfl
@[simp] theorem State.observe_srcAddr (s : State) (o : Nat) (i : Nat) : (s.observe o).srcAddr i = s.srcAddr i := rfl
@[simp] theorem State.observe_dstAddr (s : State) (o : Nat) (i : Nat) : (s.observe o).dstAddr i = s.dstAddr i := rfl
@[simp] theorem State.observe_src (s : State) (o : Nat) : (s.observe o).src = s.src := rfl
@[simp] theorem State.observe_writeRange (s : State) (o : Nat) : (s.observe o).writeRange = s.writeRange := rfl
@[simp] theorem State.observe_hasWritten (s : State) (o : Nat) : (s.observe o).hasWritten = s.hasWritten := rfl
@[simp] theorem State.loseRange_srcLen (s : State) : s.loseRange.srcLen = s.srcLen := rfl
@[simp] theorem State.loseRange_dstCap (s : State) : s.loseRange.dstCap = s.dstCap := rfl
@[simp] theorem State.loseRange_srcAddr (s : State) (i : Nat) : s.loseRange.srcAddr i = s.srcAddr i := rfl
@[simp] theorem State.loseRange_dstAddr (s : State) (i : Nat) : s.loseRange.dstAddr i = s.dstAddr i := rfl
@[simp] theorem State.raised_srcLen (s : State) (e : ErrDetail) : (s.raised e).srcLen = s.srcLen := by
  unfold State.raised; split <;> rfl
@[simp] theorem State.raised_dstCap (s : State) (e : ErrDetail) : (s.raised e).dstCap = s.dstCap := by
  unfold State.raised; split <;> rfl
@[simp] theorem State.raised_srcAddr (s : State) (e : ErrDetail) (i : Nat) : (s.raised e).srcAddr i = s.srcAddr i := by
  unfold State.raised; split <;> rfl
@[simp] theorem State.raised_dstAddr (s : State) (e : ErrDetail) (i : Nat) : (s.raised e).dstAddr i = s.dstAddr i := by
  unfold State.raised; split <;> rfl
@[simp] theorem State.completed_srcLen (s : State) (r : Nat) : (s.completed r).srcLen = s.srcLen := rfl
@[simp] theorem State.completed_dstCap (s : State) (r : Nat) : (s.completed r).dstCap = s.dstCap := rfl
@[simp] theorem State.completed_srcAddr (s : State) (r : Nat) (i : Nat) : (s.completed r).srcAddr i = s.srcAddr i := rfl
@[simp] theorem State.completed_dstAddr (s : State) (r : Nat) (i : Nat) : (s.completed r).dstAddr i = s.dstAddr i := rfl

/-! ### The guarded windows -/

/-- A held window's destination addresses are guarded against the host's reads. -/
theorem State.guardsRead_of_mem {s : State} {w : Buffers} {a : Nat} (hw : w ∈ s.unobserved) (ha : w.inDst a = true) :
    s.guardsRead a = true := List.any_eq_true.mpr ⟨w, hw, ha⟩

/-- A held window's addresses are guarded against the host's writes. -/
theorem State.guardsWrite_of_mem {s : State} {w : Buffers} {a : Nat} (hw : w ∈ s.unobserved)
    (ha : w.inSrc a = true ∨ w.inDst a = true) : s.guardsWrite a = true :=
  List.any_eq_true.mpr ⟨w, hw, by simpa using ha⟩

end Sys2Proof.Machine
end

