-- ==== Sys2Proof/Laws/Engine.lean ====
section
/-! SUPPORT. What each shared operation of the engine can do, said once: the two element procedures, the fetch, the
match-finder's reads, the compressor's writes and its turns, and the command starts. -/

namespace Sys2Proof.Machine

/-! ### The element procedures (R154, R160) -/

/-- The state a literal of `length` bytes leaves, given its memory (R154). -/
def State.afterLiteral (s : State) (m : Memory) (length : Nat) : State :=
  { s with mem := m, dec := { s.dec with s := s.dec.s + length, d := s.dec.d + length } }

/-- The state a copy of `length` bytes leaves, given its memory (R160). -/
def State.afterCopy (s : State) (m : Memory) (length : Nat) : State :=
  { s with mem := m, dec := { s.dec with d := s.dec.d + length } }

@[simp] theorem State.afterLiteral_mem (s : State) (m : Memory) (k : Nat) : (s.afterLiteral m k).mem = m := rfl
@[simp] theorem State.afterLiteral_latch (s : State) (m : Memory) (k : Nat) : (s.afterLiteral m k).latch = s.latch := rfl
@[simp] theorem State.afterLiteral_phase (s : State) (m : Memory) (k : Nat) : (s.afterLiteral m k).phase = s.phase := rfl
@[simp] theorem State.afterLiteral_dec (s : State) (m : Memory) (k : Nat) :
    (s.afterLiteral m k).dec = { s := s.dec.s + k, d := s.dec.d + k, n := s.dec.n } := rfl
@[simp] theorem State.afterCopy_mem (s : State) (m : Memory) (k : Nat) : (s.afterCopy m k).mem = m := rfl
@[simp] theorem State.afterCopy_latch (s : State) (m : Memory) (k : Nat) : (s.afterCopy m k).latch = s.latch := rfl
@[simp] theorem State.afterCopy_phase (s : State) (m : Memory) (k : Nat) : (s.afterCopy m k).phase = s.phase := rfl
@[simp] theorem State.afterCopy_dec (s : State) (m : Memory) (k : Nat) :
    (s.afterCopy m k).dec = { s := s.dec.s, d := s.dec.d + k, n := s.dec.n } := rfl

theorem literalAt_cases (length : Nat) (s : State) :
    (s.dec.n - s.dec.d < length ∧ literalAt length s = .next (s.raised .litDstOverrun)) ∨
    (length ≤ s.dec.n - s.dec.d ∧ s.srcLen - s.dec.s < length ∧ literalAt length s = .next (s.raised .litSrcOverrun)) ∨
    (length ≤ s.dec.n - s.dec.d ∧ length ≤ s.srcLen - s.dec.s ∧
      ((s.mem.copyUp (s.srcAddr s.dec.s) (s.dstAddr s.dec.d) length = none ∧ literalAt length s = .fault .unwrittenRead) ∨
        ∃ m, s.mem.copyUp (s.srcAddr s.dec.s) (s.dstAddr s.dec.d) length = some m ∧
          literalAt length s = .next (s.afterLiteral m length))) := by
  unfold literalAt
  by_cases h1 : s.dec.n - s.dec.d < length
  · exact .inl ⟨h1, by simp [h1]⟩
  · by_cases h2 : s.srcLen - s.dec.s < length
    · exact .inr (.inl ⟨by omega, h2, by simp [h1, h2]⟩)
    · refine .inr (.inr ⟨by omega, by omega, ?_⟩)
      rw [if_neg h1, if_neg h2]
      cases h : s.mem.copyUp (s.srcAddr s.dec.s) (s.dstAddr s.dec.d) length with
      | none => exact .inl ⟨rfl, rfl⟩
      | some m => exact .inr ⟨m, rfl, rfl⟩

theorem copyAt_cases (offset length : Nat) (s : State) :
    (offset = 0 ∧ copyAt offset length s = .next (s.raised .copyOffsetZero)) ∨
    (0 < offset ∧ s.dec.d < offset ∧ copyAt offset length s = .next (s.raised .copyOffsetBeforeStart)) ∨
    (0 < offset ∧ offset ≤ s.dec.d ∧ s.dec.n < s.dec.d + length ∧ copyAt offset length s = .next (s.raised .copyDstOverrun)) ∨
    (0 < offset ∧ offset ≤ s.dec.d ∧ s.dec.d + length ≤ s.dec.n ∧
      ((s.mem.copyUp (s.dstAddr (s.dec.d - offset)) (s.dstAddr s.dec.d) length = none ∧
          copyAt offset length s = .fault .unwrittenRead) ∨
        ∃ m, s.mem.copyUp (s.dstAddr (s.dec.d - offset)) (s.dstAddr s.dec.d) length = some m ∧
          copyAt offset length s = .next (s.afterCopy m length))) := by
  unfold copyAt
  by_cases h1 : offset = 0
  · exact .inl ⟨h1, by simp [h1]⟩
  · by_cases h2 : s.dec.d < offset
    · exact .inr (.inl ⟨by omega, h2, by simp [h1, h2]⟩)
    · by_cases h3 : s.dec.n < s.dec.d + length
      · exact .inr (.inr (.inl ⟨by omega, by omega, h3, by simp [h1, h2, h3]⟩))
      · refine .inr (.inr (.inr ⟨by omega, by omega, by omega, ?_⟩))
        rw [if_neg h1, if_neg h2, if_neg h3]
        cases h : s.mem.copyUp (s.dstAddr (s.dec.d - offset)) (s.dstAddr s.dec.d) length with
        | none => exact .inl ⟨rfl, rfl⟩
        | some m => exact .inr ⟨m, rfl, rfl⟩

/-- A tag and as many bytes as it asks for decode to the element of the two, with nothing left. -/
theorem decode_element_exact {tag : Byte} {ext : List Byte} (h : ext.length = extCount tag) :
    decode .element (tag :: ext) = .ok (elementOf tag ext, []) := by
  simp [decode, decodeElement, h, List.take_of_length_le (Nat.le_of_eq h)]

/-- Everything the fetch can do (R108 to R111). -/
theorem fetchElement_cases (s : State) :
    (s.src s.dec.s = none ∧ fetchElement s = .done (.fault .unwrittenRead)) ∨
    ∃ tag, s.src s.dec.s = some tag ∧
      ((s.srcLen < s.dec.s + 1 + extCount tag ∧ fetchElement s = .done (.next (s.raised .tagTruncated))) ∨
        (s.dec.s + 1 + extCount tag ≤ s.srcLen ∧
          ((s.srcBytes (s.dec.s + 1) (extCount tag) = none ∧ fetchElement s = .done (.fault .unwrittenRead)) ∨
            ∃ ext, s.srcBytes (s.dec.s + 1) (extCount tag) = some ext ∧ ext.length = extCount tag ∧
              fetchElement s = .run (elementOf tag ext) s))) := by
  unfold fetchElement
  cases h : s.src s.dec.s with
  | none => exact .inl ⟨rfl, rfl⟩
  | some tag =>
    refine .inr ⟨tag, rfl, ?_⟩
    by_cases h1 : s.srcLen < s.dec.s + 1 + extCount tag
    · exact .inl ⟨h1, by simp [h1]⟩
    · refine .inr ⟨by omega, ?_⟩
      cases h2 : s.srcBytes (s.dec.s + 1) (extCount tag) with
      | none => exact .inl ⟨rfl, by simp [h1, h2]⟩
      | some ext =>
        have hl : ext.length = extCount tag := (Memory.readBytes_eq_some.mp h2).1
        exact .inr ⟨ext, rfl, hl, by simp [h1, h2, decode_element_exact hl]⟩

/-! ### The match-finder's reads (R126, R129, R132) -/

theorem sourceRun_eq_some {src : Nat → Option Byte} {lo n : Nat} {bs : List Byte} :
    sourceRun src lo n = some bs ↔ bs.length = n ∧ ∀ i, (h : i < bs.length) → src (lo + i) = some bs[i] := by
  induction n generalizing lo bs with
  | zero =>
    simp only [sourceRun, Option.some.injEq, List.length_eq_zero_iff]
    constructor
    · rintro rfl; simp
    · rintro ⟨rfl, -⟩; rfl
  | succ n ih =>
    simp only [sourceRun]
    constructor
    · intro h
      split at h
      · rename_i b bs' hb hbs
        cases h
        obtain ⟨hl, hr⟩ := ih.mp hbs
        refine ⟨by simp [hl], fun i hi => ?_⟩
        cases i with
        | zero => simpa using hb
        | succ i => rw [show lo + (i + 1) = lo + 1 + i by omega, hr i (by simpa using hi)]; rfl
      · cases h
    · rintro ⟨hl, hr⟩
      cases bs with
      | nil => simp at hl
      | cons b bs =>
        have h0 : src lo = some b := hr 0 (by simp)
        have h1 : sourceRun src (lo + 1) n = some bs := by
          refine ih.mpr ⟨by simpa using hl, fun i hi => ?_⟩
          have := hr (i + 1) (by simpa using hi)
          rw [show lo + 1 + i = lo + (i + 1) by omega, this]; rfl
        simp [h0, h1]

theorem sourceRun_isSome {src : Nat → Option Byte} {lo n : Nat} (h : ∀ i < n, (src (lo + i)).isSome) :
    ∃ bs, sourceRun src lo n = some bs := by
  induction n generalizing lo with
  | zero => exact ⟨[], rfl⟩
  | succ n ih =>
    obtain ⟨b, hb⟩ := Option.isSome_iff_exists.mp (h 0 (by omega))
    obtain ⟨bs, hbs⟩ := ih (lo := lo + 1) fun i hi => by
      have := h (i + 1) (by omega); rwa [show lo + 1 + i = lo + (i + 1) by omega]
    exact ⟨b :: bs, by simp [sourceRun, show src lo = some b from hb, hbs]⟩

/-- A run depends on the source at its own positions only. -/
theorem sourceRun_congr {src src' : Nat → Option Byte} {lo n : Nat} (h : ∀ i < n, src (lo + i) = src' (lo + i)) :
    sourceRun src lo n = sourceRun src' lo n := by
  induction n generalizing lo with
  | zero => rfl
  | succ n ih =>
    have h0 := h 0 (by omega)
    have h1 := ih (lo := lo + 1) fun i hi => by
      have := h (i + 1) (by omega); rwa [show lo + 1 + i = lo + (i + 1) by omega]
    simp only [Nat.add_zero] at h0
    simp only [sourceRun, h0, h1]

theorem matchTest_eq_true {src : Nat → Option Byte} {v s : Nat} :
    matchTest src v s = some true ↔
      v ≠ 0 ∧ s - (v - 1) < Config.maxOffset ∧
        ∃ bs, sourceRun src (v - 1) Config.minMatch = some bs ∧ sourceRun src s Config.minMatch = some bs := by
  unfold matchTest
  by_cases h0 : v = 0
  · simp [h0]
  · by_cases h1 : Config.maxOffset ≤ s - (v - 1)
    · simp only [h0, h1, if_true, if_false]
      constructor
      · intro h; cases h
      · rintro ⟨-, h, -⟩; omega
    · simp only [h0, h1, if_false]
      cases hx : sourceRun src (v - 1) Config.minMatch with
      | none => simp
      | some x =>
        cases hy : sourceRun src s Config.minMatch with
        | none => simp
        | some y =>
          simp only [Option.some.injEq, decide_eq_true_eq]
          constructor
          · rintro rfl; exact ⟨h0, by omega, x, rfl, rfl⟩
          · rintro ⟨-, -, bs, rfl, h⟩; exact h.symm

/-- The extension stops at the first unequal byte or at the end of the source, and passes over equal bytes only (R132). -/
theorem extendMatch_eq_some {src : Nat → Option Byte} {fuel s t e : Nat} (h : extendMatch src fuel s t = some e) :
    s ≤ e ∧ e ≤ s + fuel ∧ (∀ j, s + j < e → ∃ b, src (s + j) = some b ∧ src (t + j) = some b) ∧
      (e = s + fuel ∨ ∃ x y, src e = some x ∧ src (t + (e - s)) = some y ∧ x ≠ y) := by
  induction fuel generalizing s t with
  | zero => cases h; exact ⟨Nat.le_refl _, by omega, fun j hj => by omega, .inl rfl⟩
  | succ fuel ih =>
    simp only [extendMatch] at h
    split at h
    · rename_i x y hx hy
      split at h
      · subst y
        obtain ⟨h1, h2, h3, h4⟩ := ih h
        refine ⟨by omega, by omega, fun j hj => ?_, ?_⟩
        · cases j with
          | zero => exact ⟨x, hx, hy⟩
          | succ j =>
            have := h3 j (by omega)
            rwa [show s + 1 + j = s + (j + 1) by omega, show t + 1 + j = t + (j + 1) by omega] at this
        · rcases h4 with h4 | h4
          · exact .inl (by omega)
          · exact .inr (by rwa [show t + 1 + (e - (s + 1)) = t + (e - s) by omega] at h4)
      · cases h
        exact ⟨Nat.le_refl _, by omega, fun j hj => by omega, .inr ⟨x, y, hx, by simpa using hy, ‹_›⟩⟩
    · cases h

theorem extendMatch_isSome {src : Nat → Option Byte} {fuel s t : Nat} (hs : ∀ i < fuel, (src (s + i)).isSome)
    (ht : ∀ i < fuel, (src (t + i)).isSome) : ∃ e, extendMatch src fuel s t = some e := by
  induction fuel generalizing s t with
  | zero => exact ⟨s, rfl⟩
  | succ fuel ih =>
    obtain ⟨x, hx⟩ := Option.isSome_iff_exists.mp (hs 0 (by omega))
    obtain ⟨y, hy⟩ := Option.isSome_iff_exists.mp (ht 0 (by omega))
    simp only [Nat.add_zero] at hx hy
    simp only [extendMatch, hx, hy]
    split
    · refine ih (fun i hi => ?_) (fun i hi => ?_)
      · have := hs (i + 1) (by omega); rwa [show s + 1 + i = s + (i + 1) by omega]
      · have := ht (i + 1) (by omega); rwa [show t + 1 + i = t + (i + 1) by omega]
    · exact ⟨s, rfl⟩

/-! ### The compressor's writes (R12, R101, R106, R131, R133, R135) -/

/-- The state after `bytes` have been emitted. -/
def State.emitted (s : State) (bytes : List Byte) : State :=
  { s with
    mem := s.mem.writeBytes (s.dstAddr s.comp.d) bytes
    comp := { s.comp with d := s.comp.d + bytes.length } }

@[simp] theorem State.emitted_mem (s : State) (bs : List Byte) :
    (s.emitted bs).mem = s.mem.writeBytes (s.dstAddr s.comp.d) bs := rfl
@[simp] theorem State.emitted_latch (s : State) (bs : List Byte) : (s.emitted bs).latch = s.latch := rfl
@[simp] theorem State.emitted_phase (s : State) (bs : List Byte) : (s.emitted bs).phase = s.phase := rfl
@[simp] theorem State.emitted_srcLen (s : State) (bs : List Byte) : (s.emitted bs).srcLen = s.srcLen := rfl
@[simp] theorem State.emitted_comp (s : State) (bs : List Byte) :
    (s.emitted bs).comp = { s.comp with d := s.comp.d + bs.length } := rfl

theorem emit_ok {bytes : List Byte} {s : State} (h : s.comp.d + bytes.length ≤ maxCompressedLen s.srcLen) :
    emit bytes s = .ok (s.emitted bytes) := by
  simp [emit, State.emitted, Nat.not_lt.mpr h]

theorem emit_cases (bytes : List Byte) (s : State) :
    (s.comp.d + bytes.length ≤ maxCompressedLen s.srcLen ∧ emit bytes s = .ok (s.emitted bytes)) ∨
    (maxCompressedLen s.srcLen < s.comp.d + bytes.length ∧ emit bytes s = .error .outputOverrun) := by
  by_cases h : maxCompressedLen s.srcLen < s.comp.d + bytes.length
  · exact .inr ⟨h, by simp [emit, h]⟩
  · exact .inl ⟨by omega, emit_ok (by omega)⟩

theorem State.emitted_append (s : State) (xs ys : List Byte) : (s.emitted xs).emitted ys = s.emitted (xs ++ ys) := by
  simp [State.emitted, Memory.writeBytes_append, State.dstAddr, Nat.add_assoc]

/-- The bytes a pending run becomes (R101, R102). -/
def runBytes (run : List Byte) : List Byte := if run = [] then [] else encode (canonicalLiteral run.length) ++ run

theorem State.emitted_nil (s : State) : s.emitted [] = s := rfl

theorem emitLiteral_cases (run : List Byte) (s : State) :
    (run.length ≤ 2 ^ 32 ∧ (run = [] ∨ s.comp.d + (runBytes run).length ≤ maxCompressedLen s.srcLen) ∧
      emitLiteral run s = .ok (s.emitted (runBytes run))) ∨
    (run.length ≤ 2 ^ 32 ∧ maxCompressedLen s.srcLen < s.comp.d + (runBytes run).length ∧
      emitLiteral run s = .error .outputOverrun) ∨
    (2 ^ 32 < run.length ∧ emitLiteral run s = .error .srcTooLong) := by
  unfold emitLiteral
  by_cases h0 : run = []
  · exact .inl ⟨by simp [h0], .inl h0, by simp [h0, runBytes, State.emitted_nil]⟩
  · by_cases h1 : 2 ^ 32 < run.length
    · exact .inr (.inr ⟨h1, by rw [if_neg h0, literalBytes, if_pos h1]⟩)
    · have hb : literalBytes run = .ok (runBytes run) := by rw [literalBytes, if_neg h1, runBytes, if_neg h0]
      rw [if_neg h0, hb]
      rcases emit_cases (runBytes run) s with ⟨h2, h3⟩ | ⟨h2, h3⟩
      · exact .inl ⟨by omega, .inr h2, h3⟩
      · exact .inr (.inl ⟨by omega, h2, h3⟩)

theorem emitLiteral_ok {run : List Byte} {s : State} (hl : run.length ≤ 2 ^ 32)
    (h : s.comp.d + (runBytes run).length ≤ maxCompressedLen s.srcLen) :
    emitLiteral run s = .ok (s.emitted (runBytes run)) := by
  rcases emitLiteral_cases run s with ⟨-, -, h'⟩ | ⟨-, h', -⟩ | ⟨h', -⟩
  · exact h'
  · omega
  · omega

/-! ### A scan turn and the final flush (R126 to R136) -/

/-- The bytes a hit writes: the pending run, then the copy of the match (R131, R133). -/
def hitBytes (run : List Byte) (offset length : Nat) : List Byte := runBytes run ++ copyBytes offset length

/-- The state a hit leaves (R131 to R133). -/
def State.afterHit (s : State) (run : List Byte) (t e : Nat) : State :=
  let s1 := s.emitted (hitBytes run (s.comp.s - t) (e - s.comp.s))
  { s1 with comp := { s1.comp with s := e, lit := e, t := t + (e - s.comp.s), s0 := s.comp.s } }

theorem scanHit_cases (run : List Byte) (t e : Nat) (s : State) :
    (scanHit run t e s = .ok (s.afterHit run t e)) ∨
    (2 ^ 32 < run.length ∧ scanHit run t e s = .error .srcTooLong) ∨
    (maxCompressedLen s.srcLen < s.comp.d + (hitBytes run (s.comp.s - t) (e - s.comp.s)).length ∧
      scanHit run t e s = .error .outputOverrun) := by
  unfold scanHit emitCopy
  rcases emitLiteral_cases run s with ⟨-, -, h⟩ | ⟨-, h', h⟩ | ⟨h', h⟩
  · rw [h]
    rcases emit_cases (copyBytes (s.comp.s - t) (e - s.comp.s)) (s.emitted (runBytes run)) with ⟨h2, h3⟩ | ⟨h2, h3⟩
    · exact .inl (by simp only [h3, State.emitted_append, State.afterHit, hitBytes])
    · refine .inr (.inr ⟨?_, by simp only [h3]⟩)
      simp only [State.emitted, State.srcLen, hitBytes, List.length_append] at h2 ⊢
      omega
  · exact .inr (.inr ⟨by simp only [hitBytes, List.length_append]; omega, by rw [h]⟩)
  · exact .inr (.inl ⟨h', by rw [h]⟩)

theorem scanHit_ok {run : List Byte} {t e : Nat} {s : State} (hl : run.length ≤ 2 ^ 32)
    (h : s.comp.d + (hitBytes run (s.comp.s - t) (e - s.comp.s)).length ≤ maxCompressedLen s.srcLen) :
    scanHit run t e s = .ok (s.afterHit run t e) := by
  rcases scanHit_cases run t e s with h' | ⟨h', -⟩ | ⟨h', -⟩
  · exact h'
  · omega
  · omega

/-- The table after the turn at the scan position (R128). -/
def State.entered (s : State) (h : Nat) : State := { s with table := s.table.put h s.comp.s }

/-- Everything a scan turn can do. -/
theorem scanTurn_cases (s : State) :
    scanTurn s = .fault .unwrittenRead ∨
    ∃ h, hashAt s.src s.shift s.comp.s = some h ∧
      ((matchTest s.src (s.table.get h) s.comp.s = some false ∧ scanTurn s = .next (scanMiss (s.entered h))) ∨
        (matchTest s.src (s.table.get h) s.comp.s = some true ∧
          ∃ run e, sourceRun s.src s.comp.lit (s.comp.s - s.comp.lit) = some run ∧
            extendMatch s.src (s.srcLen - (s.comp.s + 4)) (s.comp.s + 4) (s.table.get h - 1 + 4) = some e ∧
            scanTurn s = settle (s.entered h) (scanHit run (s.table.get h - 1) e (s.entered h)))) := by
  unfold scanTurn
  cases h : hashAt s.src s.shift s.comp.s with
  | none => exact .inl rfl
  | some i =>
    cases hm : matchTest s.src (s.table.get i) s.comp.s with
    | none => exact .inl (by simp [hm])
    | some b =>
      cases b with
      | false => exact .inr ⟨i, rfl, .inl ⟨hm, by simp [hm, State.entered]⟩⟩
      | true =>
        cases hr : sourceRun s.src s.comp.lit (s.comp.s - s.comp.lit) with
        | none => exact .inl (by simp [hm])
        | some run =>
          cases he : extendMatch s.src (s.srcLen - (s.comp.s + 4)) (s.comp.s + 4) (s.table.get i - 1 + 4) with
          | none => exact .inl (by simp [hm, he])
          | some e => exact .inr ⟨i, rfl, .inr ⟨hm, run, e, rfl, he, by simp [hm, he, State.entered]⟩⟩

/-- Everything the final flush can do. -/
theorem finalFlush_cases (s : State) :
    (sourceRun s.src s.comp.lit (s.srcLen - s.comp.lit) = none ∧ finalFlush s = .fault .unwrittenRead) ∨
    ∃ run, sourceRun s.src s.comp.lit (s.srcLen - s.comp.lit) = some run ∧
      ((run.length ≤ 2 ^ 32 ∧ finalFlush s = .next ((s.emitted (runBytes run)).completed (s.comp.d + (runBytes run).length))) ∨
        (2 ^ 32 < run.length ∧ finalFlush s = .next (s.raised .srcTooLong)) ∨
        (maxCompressedLen s.srcLen < s.comp.d + (runBytes run).length ∧ finalFlush s = .next (s.raised .outputOverrun))) := by
  unfold finalFlush
  cases h : sourceRun s.src s.comp.lit (s.srcLen - s.comp.lit) with
  | none => exact .inl ⟨rfl, rfl⟩
  | some run =>
    refine .inr ⟨run, rfl, ?_⟩
    rcases emitLiteral_cases run s with ⟨h1, -, h2⟩ | ⟨-, h1, h2⟩ | ⟨h1, h2⟩
    · exact .inl ⟨h1, by simp [h2, State.emitted]⟩
    · exact .inr (.inr ⟨h1, by simp [h2]⟩)
    · exact .inr (.inl ⟨h1, by simp [h2]⟩)

/-! ### Command starts (R120, R150, R181, R188) -/

/-- The state in which a COMPRESS begins to scan, from the one its header has been emitted in (R124, R125). -/
def State.scanReady (s : State) : State :=
  { s with
    tableSize := (tableParams s.srcLen).1
    shift := (tableParams s.srcLen).2
    table := s.table.clear (tableParams s.srcLen).1 }

@[simp] theorem leBytes_length (k x : Nat) : (leBytes k x).length = k := by
  induction k generalizing x with
  | zero => rfl
  | succ k ih => simp [leBytes, ih]

/-- A COMPRESS that passes its checks emits its header, then flushes a short input or makes ready to scan. -/
theorem compressBody_eq {s : State} (h : s.comp.d = 0) :
    compressBody s =
      if s.srcLen ≤ 4 then finalFlush (s.emitted (leBytes 8 s.srcLen))
      else .next ((s.emitted (leBytes 8 s.srcLen)).scanReady) := by
  unfold compressBody
  rw [show Config.headerBytes = 8 from rfl, emit_ok (by simp [h, maxCompressedLen]; omega)]
  rfl

/-- Everything the write of the COMPRESS code can do while the engine is free. -/
theorem execCompress_cases {s : State} (hb : s.status.busy = false) :
    (∃ r, s.regs.violation s.cfg = some r ∧ execCompress s = .refused r) ∨
    (s.regs.violation s.cfg = none ∧
      ((s.cfg.maxSrcLen < s.regs.srcLen.toNat ∧ execCompress s = .next ((s.begin .compressing).raised .srcTooLong)) ∨
        (s.regs.srcLen.toNat ≤ s.cfg.maxSrcLen ∧ s.regs.dstCap.toNat < maxCompressedLen s.regs.srcLen.toNat ∧
          execCompress s = .next ((s.begin .compressing).raised .dstTooSmall)) ∨
        (s.regs.srcLen.toNat ≤ s.cfg.maxSrcLen ∧ maxCompressedLen s.regs.srcLen.toNat ≤ s.regs.dstCap.toNat ∧
          execCompress s = compressBody (s.begin .compressing)))) := by
  unfold execCompress
  rw [hb]
  cases hv : s.regs.violation s.cfg with
  | some r => exact .inl ⟨r, rfl, rfl⟩
  | none =>
    refine .inr ⟨rfl, ?_⟩
    by_cases h1 : s.cfg.maxSrcLen < s.regs.srcLen.toNat
    · exact .inl ⟨h1, by simp [State.srcLen, h1]⟩
    · by_cases h2 : s.regs.dstCap.toNat < maxCompressedLen s.regs.srcLen.toNat
      · exact .inr (.inl ⟨by omega, h2, by simp [State.srcLen, State.dstCap, h1, h2]⟩)
      · exact .inr (.inr ⟨by omega, by omega, by simp [State.srcLen, State.dstCap, h1, h2]⟩)

/-- The state in which a DECOMPRESS begins its elements (R150). -/
def State.decodeReady (s : State) (n : Nat) : State :=
  { s.begin .decompressing with dec := { s := 8, d := 0, n := n } }

/-- Everything the write of the DECOMPRESS code can do while the engine is free. -/
theorem execDecompress_cases {s : State} (hb : s.status.busy = false) :
    (∃ r, s.regs.violation s.cfg = some r ∧ execDecompress s = .refused r) ∨
    (s.regs.violation s.cfg = none ∧
      ((s.regs.srcLen.toNat < 8 ∧ execDecompress s = .next ((s.begin .decompressing).raised .headerTruncated)) ∨
        (8 ≤ s.regs.srcLen.toNat ∧
          ((s.mem.readBytes s.regs.srcAddr.toNat 8 = none ∧ execDecompress s = .fault .unwrittenRead) ∨
            ∃ hd, s.mem.readBytes s.regs.srcAddr.toNat 8 = some hd ∧
              ((s.regs.dstCap.toNat < le hd ∧
                  execDecompress s = .next ((s.begin .decompressing).raised .declaredLenTooBig)) ∨
                (le hd ≤ s.regs.dstCap.toNat ∧ execDecompress s = .next (s.decodeReady (le hd)))))))) := by
  unfold execDecompress
  rw [hb]
  cases hv : s.regs.violation s.cfg with
  | some r => exact .inl ⟨r, rfl, rfl⟩
  | none =>
    refine .inr ⟨rfl, ?_⟩
    by_cases h1 : s.regs.srcLen.toNat < 8
    · exact .inl ⟨h1, by simp [State.srcLen, Config.headerBytes, h1]⟩
    · refine .inr ⟨by omega, ?_⟩
      cases h2 : s.mem.readBytes s.regs.srcAddr.toNat 8 with
      | none => exact .inl ⟨rfl, by simp [State.srcLen, State.srcBytes, State.srcAddr, Config.headerBytes, h1, h2]⟩
      | some hd =>
        refine .inr ⟨hd, rfl, ?_⟩
        by_cases h3 : s.regs.dstCap.toNat < le hd
        · exact .inl ⟨h3, by
            simp [State.srcLen, State.srcBytes, State.srcAddr, State.dstCap, Config.headerBytes, h1, h2, h3]⟩
        · exact .inr ⟨by omega, by
            simp [State.srcLen, State.srcBytes, State.srcAddr, State.dstCap, Config.headerBytes, h1, h2, h3,
              State.decodeReady]⟩

/-- The write of a reserved code while the engine is free (R188). -/
theorem execCmdReserved_eq {s : State} (hb : s.status.busy = false) (op : BitVec 8) :
    execCmdReserved op s = .next (State.raised { s.start with phase := .idle } .badCommand) := by
  simp [execCmdReserved, hb]

/-- A command written while one runs does nothing (R201). -/
theorem exec_command_busy {s : State} (hb : s.status.busy = true) (w : Word) : exec (decodeCommand w) s = .next s := by
  unfold decodeCommand
  simp only
  split
  · simp [exec, execCompress, hb]
  · split
    · simp [exec, execDecompress, hb]
    · simp [exec, execCmdReserved, hb]

end Sys2Proof.Machine
end

