-- ==== Sys2Proof/Laws/Encoding.lean ====
section
/-! SUPPORT. Laws of byte order and of the tag fields, and what the decoder does with a tag and the bytes it asks for. -/

namespace Sys2Proof

/-! ### Byte order (R10) -/

/-- Assembling the `k` low bytes of a number gives the number modulo 256^k. -/
theorem le_leBytes (k x : Nat) : le (leBytes k x) = x % 256 ^ k := by
  induction k generalizing x with
  | zero => simp [leBytes, le, Nat.mod_one]
  | succ k ih =>
    simp only [leBytes, le, ih, BitVec.toNat_ofNat]
    rw [show 256 ^ (k + 1) = 256 * 256 ^ k by rw [Nat.pow_succ, Nat.mul_comm], Nat.mod_mul]

theorem le_lt (bs : List Byte) : le bs < 256 ^ bs.length := by
  induction bs with
  | nil => simp [le]
  | cons b bs ih =>
    have := b.isLt
    simp only [le, List.length_cons, Nat.pow_succ]; omega

/-- Taking a list's assembled number apart gives the list back. -/
theorem leBytes_le (bs : List Byte) : leBytes bs.length (le bs) = bs := by
  induction bs with
  | nil => rfl
  | cons b bs ih =>
    have hb := b.isLt
    simp only [List.length_cons, leBytes, le]
    congr 1
    · apply BitVec.eq_of_toNat_eq; simp; omega
    · rw [show (b.toNat + 256 * le bs) / 256 = le bs by omega, ih]

/-! ### Tag fields (R72, R74) -/

theorem tagType_toNat (tag : Byte) : (tagType tag).toNat = tag.toNat % 4 := by
  rw [tagType, BitVec.extractLsb'_toNat]; simp

theorem tagHigh_toNat (tag : Byte) : (tagHigh tag).toNat = tag.toNat / 4 := by
  have := tag.isLt
  rw [tagHigh, BitVec.extractLsb'_toNat]; simp [Nat.shiftRight_eq_div_pow]; omega

theorem extCount_val (tag : Byte) :
    extCount tag =
      if tag.toNat % 4 = 0 then (if tag.toNat / 4 < 60 then 0 else tag.toNat / 4 - 59)
      else if tag.toNat % 4 = 1 then 1 else if tag.toNat % 4 = 2 then 2 else 0 := by
  revert tag; decide

/-- A tag and the bytes it asks for decode to the element of the two, whatever follows (R79). -/
theorem decode_element_cons {tag : Byte} {ext rest : List Byte} (h : ext.length = extCount tag) :
    decode .element (tag :: (ext ++ rest)) = .ok (elementOf tag ext, rest) := by
  simp [decode, decodeElement, ← h]

end Sys2Proof
end

