-- ==== Sys2Proof/Laws/Step.lean ====
section
/-! SUPPORT. What one step is, by what the host has next, and what the engine's own step is, by phase. -/

namespace Sys2Proof.Machine

/-- The outcome of a move. -/
def Move.outcome : Move → Outcome
  | .done o => o
  | .run i s => exec i s

theorem step_eq (s : State) : step s = (nextMove s).outcome := by
  unfold step Move.outcome; cases nextMove s <;> rfl

theorem step_of_nil {s : State} (h : s.host = []) : step s = (engineMove s).outcome := by
  rw [step_eq, nextMove, h]

theorem step_of_cons {s : State} {a : HostAction} {rest : List HostAction} (h : s.host = a :: rest) :
    step s = (hostMove a { s with host := rest }).outcome := by
  rw [step_eq, nextMove, h]

theorem engineMove_idle {s : State} (h : s.phase = .idle) : engineMove s = .done (.next s) := by
  simp [engineMove, h]

theorem engineMove_compressing {s : State} (h : s.phase = .compressing) : engineMove s = .done (compressStep s) := by
  simp [engineMove, h]

theorem engineMove_decompressing {s : State} (h : s.phase = .decompressing) : engineMove s = decompressMove s := by
  simp [engineMove, h]

theorem compressStep_scan {s : State} (h : s.comp.s + 3 < s.srcLen) : compressStep s = scanTurn s := by
  simp [compressStep, h]

theorem compressStep_flush {s : State} (h : s.srcLen ≤ s.comp.s + 3) : compressStep s = finalFlush s := by
  simp [compressStep, Nat.not_lt.mpr h]

theorem decompressMove_fetch {s : State} (h : s.dec.s < s.srcLen) : decompressMove s = fetchElement s := by
  simp [decompressMove, h]

theorem decompressMove_end {s : State} (h : s.srcLen ≤ s.dec.s) : decompressMove s = .done (finishDecompress s) := by
  simp [decompressMove, Nat.not_lt.mpr h]

/-- An aligned 64-bit access at an offset of the block is legal (R30). -/
theorem accessViolation_none {p : Config.Params} {k : Nat} (h : k < 8) : accessViolation p (p.regBase + 8 * k) 8 = none := by
  unfold accessViolation
  rw [if_neg (by omega), if_neg (by simp)]

/-- Each step of a run that goes on is the first step of the rest. -/
theorem State.run_succ {s t : State} (h : step s = .next t) (k : Nat) : s.run (k + 1) = t.run k := by
  simp [State.run, h]

end Sys2Proof.Machine
end

