-- ==== Sys2Proof/Laws/Inversion.lean ====
section
/-! SUPPORT. Inversion of the step, said once: every way the engine's own step, a command's write, and a host action can answer
a next state, with what held when it did. -/

namespace Sys2Proof.Machine

/-- What one element does: the element forms' procedures applied to their operands. -/
theorem exec_literal {i : Instr} {h len : Nat} (hi : i.literal = some (h, len)) (s : State) :
    exec i s = literalElement h len s ∧ 1 ≤ len := by
  cases i <;> simp [Instr.literal] at hi <;> obtain ⟨rfl, rfl⟩ := hi <;> exact ⟨rfl, by omega⟩

theorem exec_copy {i : Instr} {h o len : Nat} (hi : i.copy = some (h, o, len)) (s : State) :
    exec i s = copyElement h o len s ∧ 1 ≤ len := by
  cases i <;> simp [Instr.copy] at hi <;> obtain ⟨rfl, rfl, rfl⟩ := hi <;> exact ⟨rfl, by omega⟩

/-- The element of a tag and its extension bytes is a literal, a copy, or a Copy-4; a literal's or copy's header is the tag and
the bytes it asks for. -/
theorem elementOf_cases (tag : Byte) (ext : List Byte) :
    (∃ len, (elementOf tag ext).literal = some (1 + extCount tag, len)) ∨
    (∃ o len, (elementOf tag ext).copy = some (1 + extCount tag, o, len)) ∨
    (∃ r, elementOf tag ext = .copy4 r) := by
  have hlt := tag.isLt
  have hm : tag.toNat % 4 = 0 ∨ tag.toNat % 4 = 1 ∨ tag.toNat % 4 = 2 ∨ tag.toNat % 4 = 3 := by omega
  rcases hm with h | h | h | h <;>
    simp only [elementOf, tagType_toNat, h, extCount_val, literalOf, tagHigh_toNat, Config.inlineLitMax]
  · left
    by_cases h60 : tag.toNat / 4 < 60
    · simp [h60, Instr.literal]
    · by_cases h1 : tag.toNat / 4 = 60
      · simp [h1, Instr.literal]
      · by_cases h2 : tag.toNat / 4 = 61
        · simp [h2, Instr.literal]
        · by_cases h3 : tag.toNat / 4 = 62
          · simp [h3, Instr.literal]
          · simp [h60, h1, h2, h3, Instr.literal]; omega
  · exact .inr (.inl ⟨_, _, rfl⟩)
  · exact .inr (.inl ⟨_, _, rfl⟩)
  · exact .inr (.inr ⟨_, rfl⟩)

/-- Every way the engine's own step answers a next state. -/
inductive EngineStep (s : State) : State → Prop
  | idle (hp : s.phase = .idle) : EngineStep s s
  | miss (h : Nat) (hp : s.phase = .compressing) (hs : s.comp.s + 3 < s.srcLen)
      (hh : hashAt s.src s.shift s.comp.s = some h) (hm : matchTest s.src (s.table.get h) s.comp.s = some false) :
      EngineStep s (scanMiss (s.entered h))
  | hit (h e : Nat) (run : List Byte) (hp : s.phase = .compressing) (hs : s.comp.s + 3 < s.srcLen)
      (hh : hashAt s.src s.shift s.comp.s = some h) (hm : matchTest s.src (s.table.get h) s.comp.s = some true)
      (hr : sourceRun s.src s.comp.lit (s.comp.s - s.comp.lit) = some run)
      (he : extendMatch s.src (s.srcLen - (s.comp.s + 4)) (s.comp.s + 4) (s.table.get h - 1 + 4) = some e) :
      EngineStep s ((s.entered h).afterHit run (s.table.get h - 1) e)
  | hitError (h e : Nat) (run : List Byte) (d : ErrDetail) (hp : s.phase = .compressing) (hs : s.comp.s + 3 < s.srcLen)
      (hh : hashAt s.src s.shift s.comp.s = some h) (hm : matchTest s.src (s.table.get h) s.comp.s = some true)
      (hr : sourceRun s.src s.comp.lit (s.comp.s - s.comp.lit) = some run)
      (he : extendMatch s.src (s.srcLen - (s.comp.s + 4)) (s.comp.s + 4) (s.table.get h - 1 + 4) = some e)
      (hd : 2 ^ 32 < run.length ∨
        maxCompressedLen s.srcLen <
          s.comp.d + (hitBytes run (s.comp.s - (s.table.get h - 1)) (e - s.comp.s)).length) :
      EngineStep s ((s.entered h).raised d)
  | flush (run : List Byte) (hp : s.phase = .compressing) (hs : s.srcLen ≤ s.comp.s + 3)
      (hr : sourceRun s.src s.comp.lit (s.srcLen - s.comp.lit) = some run) :
      EngineStep s ((s.emitted (runBytes run)).completed (s.comp.d + (runBytes run).length))
  | flushError (run : List Byte) (d : ErrDetail) (hp : s.phase = .compressing) (hs : s.srcLen ≤ s.comp.s + 3)
      (hr : sourceRun s.src s.comp.lit (s.srcLen - s.comp.lit) = some run)
      (hd : 2 ^ 32 < run.length ∨ maxCompressedLen s.srcLen < s.comp.d + (runBytes run).length) :
      EngineStep s (s.raised d)
  | elementError (k : Nat) (d : ErrDetail) (hp : s.phase = .decompressing) (hs : s.dec.s < s.srcLen) :
      EngineStep s ((s.pastHeader k).raised d)
  | literal (tag : Byte) (len : Nat) (m : Memory) (hp : s.phase = .decompressing) (ht : s.src s.dec.s = some tag)
      (hn : len ≤ s.dec.n - s.dec.d) (hl : 1 ≤ len) (hs : s.dec.s + 1 + extCount tag + len ≤ s.srcLen)
      (hc : s.mem.copyUp (s.srcAddr (s.dec.s + (1 + extCount tag))) (s.dstAddr s.dec.d) len = some m) :
      EngineStep s ((s.pastHeader (1 + extCount tag)).afterLiteral m len)
  | copy (tag : Byte) (o len : Nat) (m : Memory) (hp : s.phase = .decompressing) (ht : s.src s.dec.s = some tag)
      (ho : 0 < o) (hd : o ≤ s.dec.d) (hn : s.dec.d + len ≤ s.dec.n) (hs : s.dec.s + 1 + extCount tag ≤ s.srcLen)
      (hc : s.mem.copyUp (s.dstAddr (s.dec.d - o)) (s.dstAddr s.dec.d) len = some m) :
      EngineStep s ((s.pastHeader (1 + extCount tag)).afterCopy m len)
  | finish (hp : s.phase = .decompressing) (hs : s.srcLen ≤ s.dec.s) (hn : s.dec.d = s.dec.n) :
      EngineStep s (s.completed s.dec.n)
  | mismatch (hp : s.phase = .decompressing) (hs : s.srcLen ≤ s.dec.s) (hn : s.dec.d ≠ s.dec.n) :
      EngineStep s (s.raised .lengthMismatch)

theorem State.pastHeader_zero (s : State) : s.pastHeader 0 = s := rfl

theorem EngineStep.of_literal {s t : State} {tag : Byte} {len : Nat} (hp : s.phase = .decompressing)
    (hd : s.dec.s < s.srcLen) (ht : s.src s.dec.s = some tag) (hx : s.dec.s + 1 + extCount tag ≤ s.srcLen) (hl : 1 ≤ len)
    (h : literalElement (1 + extCount tag) len s = .next t) : EngineStep s t := by
  rcases literalAt_cases len (s.pastHeader (1 + extCount tag)) with ⟨-, h1⟩ | ⟨-, -, h1⟩ | ⟨h2, h3, h1⟩
  · cases h.symm.trans h1; exact .elementError _ _ hp hd
  · cases h.symm.trans h1; exact .elementError _ _ hp hd
  · rcases h1 with ⟨-, h1⟩ | ⟨m, hm, h1⟩
    · cases h.symm.trans h1
    · cases h.symm.trans h1
      simp only [State.pastHeader_srcLen, State.pastHeader_dec] at h2 h3
      exact .literal tag len m hp ht h2 hl (by omega) hm

theorem EngineStep.of_copy {s t : State} {tag : Byte} {o len : Nat} (hp : s.phase = .decompressing)
    (hd : s.dec.s < s.srcLen) (ht : s.src s.dec.s = some tag) (hx : s.dec.s + 1 + extCount tag ≤ s.srcLen)
    (h : copyElement (1 + extCount tag) o len s = .next t) : EngineStep s t := by
  rcases copyAt_cases o len (s.pastHeader (1 + extCount tag)) with
    ⟨-, h1⟩ | ⟨-, -, h1⟩ | ⟨-, -, -, h1⟩ | ⟨h2, h3, h4, h1⟩
  · cases h.symm.trans h1; exact .elementError _ _ hp hd
  · cases h.symm.trans h1; exact .elementError _ _ hp hd
  · cases h.symm.trans h1; exact .elementError _ _ hp hd
  · rcases h1 with ⟨-, h1⟩ | ⟨m, hm, h1⟩
    · cases h.symm.trans h1
    · cases h.symm.trans h1
      exact .copy tag o len m hp ht h2 h3 h4 hx hm

/-- The engine's own step, inverted. -/
theorem engineStep_of_next {s t : State} (h : (engineMove s).outcome = .next t) : EngineStep s t := by
  cases hp : s.phase with
  | idle => rw [engineMove_idle hp] at h; cases h; exact .idle hp
  | compressing =>
    rw [engineMove_compressing hp] at h
    change compressStep s = _ at h
    by_cases hs : s.comp.s + 3 < s.srcLen
    · rw [compressStep_scan hs] at h
      rcases scanTurn_cases s with h1 | ⟨i, hi, ⟨hm, h1⟩ | ⟨hm, run, e, hr, he, h1⟩⟩
      · cases h.symm.trans h1
      · cases h.symm.trans h1; exact .miss i hp hs hi hm
      · rw [h1] at h
        rcases scanHit_cases run (s.table.get i - 1) e (s.entered i) with h2 | ⟨h3, h2⟩ | ⟨h3, h2⟩ <;>
          rw [h2] at h <;> cases h
        · exact .hit i e run hp hs hi hm hr he
        · exact .hitError i e run _ hp hs hi hm hr he (.inl h3)
        · exact .hitError i e run _ hp hs hi hm hr he (.inr h3)
    · rw [compressStep_flush (by omega)] at h
      rcases finalFlush_cases s with ⟨-, h1⟩ | ⟨run, hr, ⟨-, h1⟩ | ⟨h2, h1⟩ | ⟨h2, h1⟩⟩ <;> cases h.symm.trans h1
      · exact .flush run hp (by omega) hr
      · exact .flushError run _ hp (by omega) hr (.inl h2)
      · exact .flushError run _ hp (by omega) hr (.inr h2)
  | decompressing =>
    rw [engineMove_decompressing hp] at h
    by_cases hs : s.dec.s < s.srcLen
    · rw [decompressMove_fetch hs] at h
      rcases fetchElement_cases s with ⟨-, h1⟩ | ⟨tag, ht, ⟨-, h1⟩ | ⟨hx, ⟨-, h1⟩ | ⟨ext, -, -, h1⟩⟩⟩ <;> rw [h1] at h
      · cases h
      · cases h; exact EngineStep.elementError 0 _ hp hs
      · cases h
      · change exec (elementOf tag ext) s = _ at h
        rcases elementOf_cases tag ext with ⟨len, hi⟩ | ⟨o, len, hi⟩ | ⟨r, hi⟩
        · obtain ⟨h2, h3⟩ := exec_literal hi s
          exact .of_literal hp hs ht hx h3 (h2 ▸ h)
        · obtain ⟨h2, -⟩ := exec_copy hi s
          exact .of_copy hp hs ht hx (h2 ▸ h)
        · rw [hi] at h; cases h; exact EngineStep.elementError 0 _ hp hs
    · rw [decompressMove_end (by omega)] at h
      change finishDecompress s = _ at h
      unfold finishDecompress at h
      split at h <;> cases h
      · exact .mismatch hp (by omega) ‹_›
      · exact .finish hp (by omega) (Decidable.not_not.mp ‹_›)

/-- Every way a word written to `CMD` answers a next state. -/
inductive CommandStep (s : State) : State → Prop
  | ignored (hb : s.status.busy = true) : CommandStep s s
  | reserved (hb : s.status.busy = false) : CommandStep s (State.raised { s.start with phase := .idle } .badCommand)
  | rejected (p : Phase) (d : ErrDetail) (hb : s.status.busy = false) : CommandStep s ((s.begin p).raised d)
  | flush (run : List Byte) (hb : s.status.busy = false) (hv : s.regs.violation s.cfg = none)
      (hl : s.regs.srcLen.toNat ≤ 4) (hmax : s.regs.srcLen.toNat ≤ s.cfg.maxSrcLen)
      (hc : maxCompressedLen s.regs.srcLen.toNat ≤ s.regs.dstCap.toNat) (hr : run.length = s.regs.srcLen.toNat) :
      CommandStep s (((s.begin .compressing).emitted (leBytes 8 s.regs.srcLen.toNat ++ runBytes run)).completed
        (8 + (runBytes run).length))
  | compress (hb : s.status.busy = false) (hv : s.regs.violation s.cfg = none) (hl : 4 < s.regs.srcLen.toNat)
      (hmax : s.regs.srcLen.toNat ≤ s.cfg.maxSrcLen)
      (hc : maxCompressedLen s.regs.srcLen.toNat ≤ s.regs.dstCap.toNat) :
      CommandStep s (((s.begin .compressing).emitted (leBytes 8 s.regs.srcLen.toNat)).scanReady)
  | decompress (n : Nat) (hb : s.status.busy = false) (hv : s.regs.violation s.cfg = none) (hl : 8 ≤ s.regs.srcLen.toNat)
      (hn : n ≤ s.regs.dstCap.toNat) : CommandStep s (s.decodeReady n)

/-- A run of at most sixty bytes becomes one byte and the run (R101). -/
theorem runBytes_length_le {run : List Byte} (h : run.length ≤ 60) : (runBytes run).length ≤ run.length + 1 := by
  unfold runBytes
  split
  · simp
  · have : canonicalLiteral run.length = .lit (BitVec.ofNat 6 (run.length - 1)) := by
      simp [canonicalLiteral, Config.inlineLitMax, show run.length - 1 < 60 by omega]
    simp [this, encode]

theorem commandStep_compress {s t : State} (h : execCompress s = .next t) : CommandStep s t := by
  cases hb : s.status.busy with
  | true => rw [execCompress, hb] at h; cases h; exact .ignored hb
  | false =>
    rcases execCompress_cases hb with ⟨r, -, h1⟩ | ⟨hv, ⟨-, h1⟩ | ⟨-, -, h1⟩ | ⟨hm, hc, h1⟩⟩
    · cases h.symm.trans h1
    · cases h.symm.trans h1; exact .rejected _ _ hb
    · cases h.symm.trans h1; exact .rejected _ _ hb
    · rw [h1, compressBody_eq rfl] at h
      by_cases hl : s.regs.srcLen.toNat ≤ 4
      · rw [if_pos (by simpa using hl)] at h
        rcases finalFlush_cases ((s.begin .compressing).emitted (leBytes 8 s.regs.srcLen.toNat)) with
          ⟨-, h2⟩ | ⟨run, hr, h2⟩
        · cases h.symm.trans h2
        · have hlen : run.length = s.regs.srcLen.toNat := (sourceRun_eq_some.mp hr).1
          have hlr := runBytes_length_le (run := run) (by omega)
          rcases h2 with ⟨-, h2⟩ | ⟨h3, -⟩ | ⟨h3, -⟩
          · cases h.symm.trans h2
            rw [State.emitted_append]
            simp only [State.emitted_comp, State.begin_comp, CompCursors.zero, leBytes_length, Nat.zero_add]
            exact .flush run hb hv hl hm hc hlen
          · omega
          · simp only [State.emitted_srcLen, State.begin_srcLen, State.emitted_comp, State.begin_comp, CompCursors.zero,
              leBytes_length, maxCompressedLen] at h3
            omega
      · rw [if_neg (by simpa using hl)] at h
        cases h; exact .compress hb hv (by omega) hm hc

theorem commandStep_decompress {s t : State} (h : execDecompress s = .next t) : CommandStep s t := by
  cases hb : s.status.busy with
  | true => rw [execDecompress, hb] at h; cases h; exact .ignored hb
  | false =>
    rcases execDecompress_cases hb with ⟨r, -, h1⟩ | ⟨hv, ⟨-, h1⟩ | ⟨hl, ⟨-, h1⟩ | ⟨hd, -, ⟨-, h1⟩ | ⟨hn, h1⟩⟩⟩⟩ <;>
      cases h.symm.trans h1
    · exact .rejected _ _ hb
    · exact .rejected _ _ hb
    · exact .decompress _ hb hv hl hn

/-- A command's write, inverted. -/
theorem commandStep_of_next {s t : State} {w : Word} (h : exec (decodeCommand w) s = .next t) : CommandStep s t := by
  unfold decodeCommand at h
  simp only at h
  split at h
  · exact commandStep_compress h
  · split at h
    · exact commandStep_decompress h
    · cases hb : s.status.busy with
      | true => simp only [exec, execCmdReserved, hb] at h; cases h; exact .ignored hb
      | false => cases h.symm.trans (execCmdReserved_eq hb (w.extractLsb' 0 8)); exact .reserved hb

/-- Every way a step answers a next state. -/
inductive StepTo (s : State) : State → Prop
  | engine {t : State} (hh : s.host = []) (h : EngineStep s t) : StepTo s t
  | letEngine {t : State} (rest : List HostAction) (hh : s.host = .engine :: rest) (h : EngineStep { s with host := rest } t) :
      StepTo s t
  | pollBusy {t : State} (rest : List HostAction) (hh : s.host = .poll :: rest) (hb : s.status.busy = true)
      (h : EngineStep { State.observe { s with host := rest } 0x28 with host := .poll :: rest } t) : StepTo s t
  | pollFree (rest : List HostAction) (hh : s.host = .poll :: rest) (hb : s.status.busy = false) :
      StepTo s (State.observe { s with host := rest } 0x28)
  | regRead (rest : List HostAction) (a n o : Nat) (hh : s.host = .regRead a n :: rest) :
      StepTo s (State.observe { s with host := rest } o)
  | command {t : State} (rest : List HostAction) (w : Word) (hh : s.host = .regWrite s.cfg.regBase 8 w :: rest)
      (h : CommandStep { s with host := rest } t) : StepTo s t
  | regWrite (rest : List HostAction) (a n o : Nat) (v : Word) (hh : s.host = .regWrite a n v :: rest)
      (ha : a ≠ s.cfg.regBase) : StepTo s (State.writeReg { s with host := rest } o v)
  | memReadFree (rest : List HostAction) (a : Nat) (hh : s.host = .memRead a :: rest) :
      StepTo s { s with
        host := rest, hostRead := (Config.freeByte s.freeCount).setWidth 64, freeCount := s.freeCount + 1 }
  | memRead (rest : List HostAction) (a : Nat) (b : Byte) (hh : s.host = .memRead a :: rest) (hm : s.mem.read a = some b) :
      StepTo s { s with host := rest, hostRead := b.setWidth 64 }
  | memWrite (rest : List HostAction) (a : Nat) (b : Byte) (hh : s.host = .memWrite a b :: rest)
      (hg : s.guardsWrite a = false) : StepTo s { s with host := rest, mem := s.mem.write a b }
  | reset (rest : List HostAction) (hh : s.host = .reset :: rest) : StepTo s (assertReset { s with host := rest })

/-- A step, inverted. -/
theorem stepTo_of_next {s t : State} (h : step s = .next t) : StepTo s t := by
  cases hh : s.host with
  | nil => rw [step_of_nil hh] at h; exact .engine hh (engineStep_of_next h)
  | cons a rest =>
    rw [step_of_cons hh] at h
    cases a with
    | regRead a n =>
      simp only [hostMove, hostRegRead] at h
      split at h <;> cases h
      exact .regRead rest a n _ hh
    | regWrite a n v =>
      simp only [hostMove, hostRegWrite] at h
      split at h
      · cases h
      · rename_i hv
        split at h
        · rename_i ha
          subst ha
          have hn : n = 8 := by
            unfold accessViolation at hv
            split at hv
            · cases hv
            · split at hv
              · cases hv
              · rename_i h2; exact Decidable.not_not.mp fun h3 => h2 (.inl h3)
          subst hn
          exact .command rest v hh (commandStep_of_next h)
        · cases h; exact .regWrite rest a n _ v hh ‹_›
    | poll =>
      simp only [hostMove] at h
      split at h
      · rename_i hb; exact .pollBusy rest hh hb (engineStep_of_next h)
      · rename_i hb; cases h; exact .pollFree rest hh (Bool.eq_false_iff.mpr hb)
    | memRead a =>
      simp only [hostMove, Move.outcome, hostMemRead] at h
      split at h
      · cases h
      · split at h
        · cases h; exact .memReadFree rest a hh
        · split at h
          · cases h
          · cases h; exact .memRead rest a _ hh ‹_›
    | memWrite a b =>
      simp only [hostMove, Move.outcome, hostMemWrite] at h
      split at h
      · cases h
      · split at h
        · cases h
        · rename_i hg; cases h; exact .memWrite rest a b hh (Bool.eq_false_iff.mpr hg)
    | engine => exact .letEngine rest hh (engineStep_of_next h)
    | reset => cases h; exact .reset rest hh

end Sys2Proof.Machine
end

