-- ==== Sys2Proof/Laws/PerInstr.lean ====
section
/-! SUPPORT. A law of every instruction's encoding, one lemma a constructor: an element is a tag and as many bytes as the tag
asks for (spec R74, R76 to R79), a command is the eight bytes of a `CMD` word (spec R84). -/

namespace Sys2Proof.Laws.HeaderSize

/-- The encoding has the size its space and its tag give it. -/
def Statement (i : Instr) : Prop :=
  i.wellFormed = true →
    match i.space with
    | .element => ∃ tag ext, encode i = tag :: ext ∧ ext.length = extCount tag
    | .command => (encode i).length = 8

theorem lit (v : BitVec 6) : Statement (.lit v) := fun hw =>
  ⟨_, _, rfl, by
    have hv : v.toNat < 60 := of_decide_eq_true hw
    have key : ∀ w : BitVec 6, w.toNat < 60 → 0 = extCount (w ++ 0b00#2) := by decide
    exact key v hv⟩

theorem litX1 (ext : BitVec 8) : Statement (.litX1 ext) := fun _ =>
  ⟨_, _, rfl, (Machine.leBytes_length 1 _).trans (by decide)⟩

theorem litX2 (ext : BitVec 16) : Statement (.litX2 ext) := fun _ =>
  ⟨_, _, rfl, (Machine.leBytes_length 2 _).trans (by decide)⟩

theorem litX3 (ext : BitVec 24) : Statement (.litX3 ext) := fun _ =>
  ⟨_, _, rfl, (Machine.leBytes_length 3 _).trans (by decide)⟩

theorem litX4 (ext : BitVec 32) : Statement (.litX4 ext) := fun _ =>
  ⟨_, _, rfl, (Machine.leBytes_length 4 _).trans (by decide)⟩

theorem copy1 (len : BitVec 3) (off : BitVec 11) : Statement (.copy1 len off) := fun _ =>
  ⟨_, _, rfl, by
    have key : ∀ a b : BitVec 3, 1 = extCount (a ++ b ++ 0b01#2) := by decide
    exact key _ _⟩

theorem copy2 (len : BitVec 6) (off : BitVec 16) : Statement (.copy2 len off) := fun _ =>
  ⟨_, _, rfl, by
    have key : ∀ a : BitVec 6, 2 = extCount (a ++ 0b10#2) := by decide
    exact (Machine.leBytes_length 2 _).trans (key _)⟩

theorem copy4 (rest : BitVec 6) : Statement (.copy4 rest) := fun _ =>
  ⟨_, _, rfl, by
    have key : ∀ a : BitVec 6, 0 = extCount (a ++ 0b11#2) := by decide
    exact key _⟩

theorem compress : Statement .compress := fun _ => Machine.leBytes_length 8 _

theorem decompress : Statement .decompress := fun _ => Machine.leBytes_length 8 _

theorem cmdReserved (op : BitVec 8) : Statement (.cmdReserved op) := fun _ => Machine.leBytes_length 8 _

end Sys2Proof.Laws.HeaderSize
end

