-- ==== Sys2Proof/Tests/Slice0.lean ====
section
/-! SUPPORT. Tests of the model, with expected results written out from the spec's encodings, worked examples and test vectors,
and for every obligation with hypotheses a witness: concrete states and operands that meet all of them. -/

namespace Sys2Proof.Tests

open Sys2Proof.Machine

/-! ### Small states -/

/-- A memory that holds `bs` at `a`. -/
def mem (a : Nat) (bs : List Byte) : Memory := Memory.writeBytes { cells := [] } a bs

/-- Buffer registers with the source at 0x20 and the destination at 0x100. -/
def windows (srcLen dstCap : Nat) : Buffers :=
  { srcAddr := 0x20, srcLen := BitVec.ofNat 64 srcLen, dstAddr := 0x100, dstCap := BitVec.ofNat 64 dstCap }

/-- An idle engine before a command on the source bytes `src`. -/
def idle (src : List Byte) (dstCap : Nat) : State :=
  { State.reset with regs := windows src.length dstCap, mem := mem 0x20 src }

/-- A running DECOMPRESS of a block with body `body` and declared length `n`, at the element at `8 + at_`, with `out` produced. -/
def decoding (body : List Byte) (at_ n : Nat) (out : List Byte) : State :=
  { State.reset with
    regs := windows (8 + body.length) 0x40
    latch := windows (8 + body.length) 0x40
    status := Status.started
    phase := .decompressing
    dec := { s := 8 + at_, d := out.length, n := n }
    mem := (mem 0x20 (leBytes 8 n ++ body)).writeBytes 0x100 out
    unobserved := [windows (8 + body.length) 0x40] }

/-- A running COMPRESS of `src` at scan position `s` with the pending run from `lit` on, `out` written and the table `tab`. -/
def scanning (src : List Byte) (s lit : Nat) (out : List Byte) (tab : List (Nat × Nat)) : State :=
  { State.reset with
    regs := windows src.length 0x40
    latch := windows src.length 0x40
    status := Status.started
    phase := .compressing
    table := { entries := tab }
    tableSize := 256
    shift := 24
    comp := { s := s, lit := lit, t := 0, s0 := 0, d := out.length }
    mem := (mem 0x20 src).writeBytes 0x100 out
    unobserved := [windows src.length 0x40] }

/-- What `f` gives of the next state an outcome answers, if it answers one. -/
def see {α : Type} (f : State → α) (o : Outcome) : Option α :=
  match o with
  | .next t => some (f t)
  | .fault _ => none
  | .refused _ => none

/-- The state an outcome answers; `State.reset` where it stops. -/
def nextOf (o : Outcome) : State := (see id o).getD State.reset

/-- The five bytes of "aaaaa" (R140). -/
def fiveA : List Byte := [0x61, 0x61, 0x61, 0x61, 0x61]

/-- The header COMPRESS writes for five bytes (R122, R140). -/
def header5 : List Byte := [5, 0, 0, 0, 0, 0, 0, 0]

/-! ### Well-formedness: an ill-formed term for each check -/

theorem test_lit_60_refused : (Instr.lit 60).wellFormed = false := by decide
theorem test_lit_63_refused : (Instr.lit 63).wellFormed = false := by decide
theorem test_lit_59_accepted : (Instr.lit 59).wellFormed = true := by decide
theorem test_reserved_compress_code_refused : (Instr.cmdReserved 0x01).wellFormed = false := by decide
theorem test_reserved_decompress_code_refused : (Instr.cmdReserved 0x02).wellFormed = false := by decide
theorem test_reserved_zero_accepted : (Instr.cmdReserved 0x00).wellFormed = true := by decide

/-! ### Decoding, from the words of the encoding tables (R74, R76, R77, R78, R84; 40_tag_codec.md's examples) -/

theorem test_decode_lit : decode .element [0b00001000#8, 0x61#8] = .ok (.lit 2, [0x61#8]) := by decide
theorem test_decode_lit_longest_inline : decode .element [0xEC#8] = .ok (.lit 59, []) := by decide
theorem test_decode_litX1 : decode .element [0b11110000#8, 0x3C#8] = .ok (.litX1 0x3C, []) := by decide
theorem test_decode_litX2 : decode .element [0b11110100#8, 0x02#8, 0x01#8] = .ok (.litX2 0x0102, []) := by decide
theorem test_decode_litX3 : decode .element [0b11111000#8, 0x03#8, 0x02#8, 0x01#8] = .ok (.litX3 0x010203, []) := by decide
theorem test_decode_litX4 :
    decode .element [0b11111100#8, 0x04#8, 0x03#8, 0x02#8, 0x01#8] = .ok (.litX4 0x01020304, []) := by decide
/-- `encode_copy1(1, 7)` is `0D 01` (R104). -/
theorem test_decode_copy1 : decode .element [0x0D#8, 0x01#8] = .ok (.copy1 3 1, []) := by decide
/-- `encode_copy1(2047, 11)` is `FD FF` (R104). -/
theorem test_decode_copy1_top : decode .element [0xFD#8, 0xFF#8] = .ok (.copy1 7 2047, []) := by decide
/-- `encode_copy2(3000, 8)` is `1E B8 0B` (R105). -/
theorem test_decode_copy2 : decode .element [0x1E#8, 0xB8#8, 0x0B#8] = .ok (.copy2 7 3000, []) := by decide
theorem test_decode_copy4 : decode .element [0b10101011#8] = .ok (.copy4 0b101010, []) := by decide
theorem test_decode_compress : decode .command [0x01#8, 0, 0, 0, 0, 0, 0, 0xFF#8] = .ok (.compress, []) := by decide
theorem test_decode_decompress : decode .command [0x02#8, 0xAB#8, 0, 0, 0, 0, 0, 0] = .ok (.decompress, []) := by decide
theorem test_decode_reserved : decode .command [0x03#8, 0, 0, 0, 0, 0, 0, 0] = .ok (.cmdReserved 3, []) := by decide
theorem test_decode_truncated : decode .element [0xF4#8, 0x02#8] = .error .truncated := by decide
theorem test_decode_nothing : decode .element [] = .error .noTag := by decide

/-- The opcode table's rows, by their fixed bits (log 9). -/
theorem test_table_rows :
    decodeTableWord 8 0x00 = some (.lit 0) ∧ decodeTableWord 8 0xF0 = some (.litX1 0) ∧
    decodeTableWord 8 0xF4 = some (.litX2 0) ∧ decodeTableWord 8 0xF8 = some (.litX3 0) ∧
    decodeTableWord 8 0xFC = some (.litX4 0) ∧ decodeTableWord 8 0x05 = some (.copy1 1 0) ∧
    decodeTableWord 8 0x06 = some (.copy2 1 0) ∧ decodeTableWord 8 0x03 = some (.copy4 0) ∧
    decodeTableWord 8 0x01 = some .compress ∧ decodeTableWord 8 0x02 = some .decompress ∧
    decodeTableWord 0 0 = some (.cmdReserved 0) := by decide

/-- The word is where the next step finds it: a literal of one byte at the first element (its zero tag is the data's first
byte too, after which the cursor stands at 10). -/
theorem test_fetch_word_element :
    see (·.dec) (step (State.reset.withFetchWord 8 0x00)) = some { s := 10, d := 1, n := 0x1000 } := by decide

/-- COMPRESS right after reset: an empty destination is too small (R213). -/
theorem test_fetch_word_command :
    see (·.status.word) (step (State.reset.withFetchWord 8 0x01)) = some 0x0316 := by decide

/-! ### One step of each element (95_test_vectors.md; R155 to R163) -/

/-- `08 61 62 63` writes "abc". -/
theorem test_lit :
    see (fun t => (t.mem.readBytes 0x100 3, t.dec)) (step (decoding [0x08, 0x61, 0x62, 0x63] 0 3 [])) =
      some (some [0x61, 0x62, 0x63], { s := 12, d := 3, n := 3 }) := by decide

/-- A literal longer than the declared length is LIT_DST_OVERRUN, checked before the source's end. -/
theorem test_lit_dst_overrun :
    see (·.status.word) (step (decoding [0x08, 0x61] 0 2 [])) = some 0x1326 := by decide

/-- `F0 00 7A`, a non-canonical literal of one byte. -/
theorem test_litX1 :
    see (fun t => (t.mem.read 0x100, t.dec.s)) (step (decoding [0xF0, 0x00, 0x7A] 0 1 [])) = some (some 0x7A, 11) := by decide

theorem test_litX2 :
    see (fun t => (t.mem.readBytes 0x100 2, t.dec.s)) (step (decoding [0xF4, 0x01, 0x00, 0x61, 0x62] 0 2 [])) =
      some (some [0x61, 0x62], 13) := by decide

/-- `F8 02 00 00 61 62 63` writes "abc". -/
theorem test_litX3 :
    see (fun t => (t.mem.readBytes 0x100 3, t.dec.s)) (step (decoding [0xF8, 0x02, 0x00, 0x00, 0x61, 0x62, 0x63] 0 3 [])) =
      some (some [0x61, 0x62, 0x63], 15) := by decide

/-- `FC 00 00 00 00 7A` writes one byte. -/
theorem test_litX4 :
    see (fun t => (t.mem.read 0x100, t.dec.s)) (step (decoding [0xFC, 0x00, 0x00, 0x00, 0x00, 0x7A] 0 1 [])) =
      some (some 0x7A, 14) := by decide

/-- A length of 2^32 is not truncated (R159). -/
theorem test_litX4_longest :
    see (·.status.word) (step (decoding [0xFC, 0xFF, 0xFF, 0xFF, 0xFF] 0 3 [])) = some 0x1326 := by decide

/-- `01 01` after one byte replays it four times (R140, R160). -/
theorem test_copy1_overlap :
    see (fun t => (t.mem.readBytes 0x100 5, t.dec)) (step (decoding [0x00, 0x61, 0x01, 0x01] 2 5 [0x61])) =
      some (some fiveA, { s := 12, d := 5, n := 5 }) := by decide

/-- `01 00` has offset 0. -/
theorem test_copy1_offset_zero :
    see (·.status.word) (step (decoding [0x00, 0x61, 0x01, 0x00] 2 5 [0x61])) = some 0x1526 := by decide

/-- `22 02 00` after "ab" writes "ababababa" (length 9, offset 2). -/
theorem test_copy2_period :
    see (fun t => t.mem.readBytes 0x100 11) (step (decoding [0x04, 0x61, 0x62, 0x22, 0x02, 0x00] 3 11 [0x61, 0x62])) =
      some (some [0x61, 0x62, 0x61, 0x62, 0x61, 0x62, 0x61, 0x62, 0x61, 0x62, 0x61]) := by decide

/-- An offset beyond the output is COPY_OFFSET_BEFORE_START. -/
theorem test_copy2_before_start :
    see (·.status.word) (step (decoding [0x00, 0x61, 0x02, 0x02, 0x00] 2 3 [0x61])) = some 0x1626 := by decide

/-- A Copy-4 tag, even as the last byte of the source. -/
theorem test_copy4 : see (·.status.word) (step (decoding [0x00, 0x61, 0x03] 2 3 [0x61])) = some 0x1826 := by decide

/-- An error raised before anything was written leaves the destination alone (R184). -/
theorem test_copy4_first :
    see (fun t => (t.status.word, t.mem.cells)) (step (decoding [0xFF] 0 0 [])) =
      some (0x1826, (decoding [0xFF] 0 0 []).mem.cells) := by decide

/-! ### The commands (95_test_vectors.md; R120, R140, R150 to R152, R188) -/

/-- COMPRESS of "a": the header and `00 61`, ten bytes. -/
theorem test_compress_short :
    see (fun t => (t.status.word, t.resultLen, t.mem.readBytes 0x100 10)) (exec .compress (idle [0x61] 33)) =
      some (2, 10, some [1, 0, 0, 0, 0, 0, 0, 0, 0x00, 0x61]) := by decide

/-- One byte less than the worst case of five bytes. -/
theorem test_compress_dst_too_small : see (·.status.word) (exec .compress (idle fiveA 36)) = some 0x0316 := by decide

/-- R140's trace: the hit at position 1, its candidate 0 in slot 242, writes `00 61 01 01`. -/
theorem test_scan_hit :
    see (fun t => (t.mem.readBytes 0x108 4, t.comp.s, t.comp.lit, t.table.get 242))
        (step (scanning fiveA 1 0 header5 [(242, 1)])) =
      some (some [0x00, 0x61, 0x01, 0x01], 5, 5, 2) := by decide

/-- R140's trace: the first position misses. -/
theorem test_scan_miss :
    see (fun t => (t.comp.s, t.comp.lit, t.table.get 242)) (step (scanning fiveA 0 0 header5 [])) = some (1, 0, 1) := by
  decide

/-- A source shorter than the header. -/
theorem test_decompress_header_truncated :
    see (·.status.word) (exec .decompress (idle [5, 0, 0, 0, 0, 0, 0] 16)) = some 0x1026 := by decide

/-- A declared length equal to the capacity is allowed (R152). -/
theorem test_decompress_starts :
    see (fun t => (t.status.word, t.dec)) (exec .decompress (idle (header5 ++ [0x00, 0x61, 0x01, 0x01]) 5)) =
      some (1, { s := 8, d := 0, n := 5 }) := by decide

theorem test_reserved_command : see (·.status.word) (exec (.cmdReserved 0x7F) (idle [1, 2] 50)) = some 0x0116 := by decide

/-- A command written while one runs changes nothing (R201). -/
theorem test_reserved_while_busy :
    see (·.status.word) (exec (.cmdReserved 0x7F) (decoding [0x03] 0 0 [])) = some 1 := by decide

/-! ### The host -/

/-- A register of the block read with a 32-bit access (R30). -/
theorem test_narrow_access_refused :
    ∃ r, step { State.reset with host := [.regRead 0x28 4] } = .refused r := ⟨_, rfl⟩

/-- A read of memory that nothing has written (log 1). -/
theorem test_unwritten_read_faults : step { State.reset with host := [.memRead 7] } = .fault .unwrittenRead := rfl

/-- Copies are split as 95_test_vectors.md 2.2 says. -/
theorem test_emit_copy :
    copyBytes 1 68 = [0xFE, 0x01, 0x00, 0x01, 0x01] ∧ copyBytes 1 65 = [0xFE, 0x01, 0x00, 0x02, 0x01, 0x00] ∧
    copyBytes 2048 4 = [0x0E, 0x00, 0x08] ∧ copyBytes 3000 68 = [0xFE, 0xB8, 0x0B, 0x0E, 0xB8, 0x0B] := by decide

/-- The headers of canonical literals, as 95_test_vectors.md 2.1 has them. -/
theorem test_literal_headers :
    encode (canonicalLiteral 60) = [0xEC] ∧ encode (canonicalLiteral 61) = [0xF0, 0x3C] ∧
    encode (canonicalLiteral 257) = [0xF4, 0x00, 0x01] ∧ encode (canonicalLiteral 65537) = [0xF8, 0x00, 0x00, 0x01] ∧
    encode (canonicalLiteral (2 ^ 32)) = [0xFC, 0xFF, 0xFF, 0xFF, 0xFF] := by decide

/-- The hash of "1111" at both ends of the shift (R127). -/
theorem test_hash : hashIndex 24 0x31313131 = 85 ∧ hashIndex 18 0x31313131 = 5475 := by decide

/-! ### Witnesses: states that meet the hypotheses of the obligations

`block5` is the block of "aaaaa" (R140). `lit3` stands before a literal of three bytes, `copy4` before a Copy-1 of four,
`ended` past the last element, `hit` before the hit of R140, `miss` before its first miss, `hitShort` before a match that ends
inside its source, `flushing` before a final flush of one byte. -/

def block5 : List Byte := header5 ++ [0x00, 0x61, 0x01, 0x01]
def lit3 : State := decoding [0x08, 0x61, 0x62, 0x63] 0 3 []
def copy4 : State := decoding [0x00, 0x61, 0x01, 0x01] 2 5 [0x61]
def ended : State := decoding [0x00, 0x61, 0x01, 0x01] 4 5 fiveA
def hit : State := scanning fiveA 1 0 header5 [(242, 1)]
def miss : State := scanning fiveA 0 0 header5 []
def hitShort : State := scanning (fiveA ++ [0x62]) 1 1 (header5 ++ [0x00, 0x61]) [(242, 1)]
def flushing : State := scanning (fiveA ++ [0x62]) 5 5 (header5 ++ [0x00, 0x61, 0x01, 0x01]) [(242, 2)]
def flushed : State := scanning fiveA 5 5 (header5 ++ [0x00, 0x61, 0x01, 0x01]) [(242, 2)]

/-- `s` with the host about to do `acts`. -/
def doing (acts : List HostAction) (s : State) : State := { s with host := acts }

/-- An engine whose last command succeeded, before the host has read `STATUS`. -/
def finished : State := { idle fiveA 0x40 with status := { Status.zero with done := true }, resultLen := 12, mem := mem 0x100 block5 }

theorem started_legal : Status.started.Legal :=
  ⟨by decide, by decide, by decide, fun h => absurd h (by decide)⟩

/-- A running DECOMPRESS meets the invariant when what can be computed of it does. -/
theorem inv_of_decoding {s : State} (h1 : s.mem.wf) (h2 : s.table.wf) (h3 : s.phase = .decompressing)
    (h4 : s.status = Status.started) (h5 : s.resultLen = 0 ∧ s.regs = s.latch ∧ s.unobserved = [s.latch])
    (h6 : s.latch.violation s.cfg = none)
    (h7 : 8 ≤ s.dec.s ∧ s.dec.s ≤ s.srcLen ∧ s.dec.d ≤ s.dec.n ∧ s.dec.n ≤ s.dstCap)
    (h8 : ∀ i < s.dec.d, (s.mem.read (s.dstAddr i)).isSome) : s.Inv :=
  ⟨h1, h2, by simp [h3, h4, Status.started], h4 ▸ started_legal, fun _ => h5.1, fun _ => h5.1, fun _ => h5.2.1, fun _ => h6,
    fun _ => by simp [h5.2.2], fun h => absurd (h3.symm.trans h) (by decide), fun _ => ⟨h7.1, h7.2.1, h7.2.2.1, h7.2.2.2, h8⟩⟩

/-- An entry of a table is at most what its listed values are at most. -/
theorem table_get_le {t : Table} {n : Nat} (h : ∀ e ∈ t.entries, e.2 ≤ n) (i : Nat) : t.get i ≤ n := by
  unfold Table.get
  cases hg : sparseGet i t.entries with
  | none => exact Nat.zero_le n
  | some v => exact h _ (mem_of_sparseGet hg)

/-- A running COMPRESS meets the invariant when what can be computed of it does. -/
theorem inv_of_scanning {s : State} (h1 : s.mem.wf) (h2 : s.table.wf) (h3 : s.phase = .compressing)
    (h4 : s.status = Status.started) (h5 : s.resultLen = 0 ∧ s.regs = s.latch ∧ s.unobserved = [s.latch])
    (h6 : s.latch.violation s.cfg = none)
    (h7 : 4 < s.srcLen ∧ s.srcLen ≤ s.cfg.maxSrcLen ∧ maxCompressedLen s.srcLen ≤ s.dstCap ∧
      (s.tableSize, s.shift) = tableParams s.srcLen)
    (h8 : s.comp.lit ≤ s.comp.s ∧ s.comp.s ≤ s.srcLen ∧ 8 ≤ s.comp.d ∧ s.comp.d ≤ 8 + s.comp.lit + s.comp.lit / 6)
    (h9 : ∀ e ∈ s.table.entries, e.2 ≤ s.comp.s) : s.Inv :=
  ⟨h1, h2, by simp [h3, h4, Status.started], h4 ▸ started_legal, fun _ => h5.1, fun _ => h5.1, fun _ => h5.2.1, fun _ => h6,
    fun _ => by simp [h5.2.2],
    fun _ => ⟨h7.1, h7.2.1, h7.2.2.1, h7.2.2.2, h8.1, h8.2.1, fun h _ => table_get_le h9 h, h8.2.2.1, h8.2.2.2⟩,
    fun h => absurd (h3.symm.trans h) (by decide)⟩

/-- A free engine without an error meets the invariant when its lists are in canonical form. -/
theorem inv_of_idle {s : State} (h1 : s.mem.wf) (h2 : s.table.wf) (h3 : s.phase = .idle)
    (h4 : s.status.busy = false ∧ s.status.err = false ∧ s.status.kind = 0 ∧ s.status.detail = 0) : s.Inv :=
  ⟨h1, h2, by simp [h3, h4.1],
    ⟨fun h => by simp [h4.1] at h, fun h => by simp [h4.2.1] at h, fun _ => h4.2.2, fun h => by simp [h4.2.1] at h⟩,
    fun h => by simp [h4.1] at h, fun h => by simp [h4.2.1] at h, fun h => by simp [h4.1] at h, fun h => by simp [h4.1] at h,
    fun h => by simp [h4.1] at h, fun h => absurd (h3.symm.trans h) (by decide),
    fun h => absurd (h3.symm.trans h) (by decide)⟩

theorem inv_lit3 : lit3.Inv := inv_of_decoding (by decide) (by decide) rfl rfl (by decide) (by decide) (by decide) (by decide)
theorem inv_copy4 : copy4.Inv := inv_of_decoding (by decide) (by decide) rfl rfl (by decide) (by decide) (by decide) (by decide)
theorem inv_ended : ended.Inv := inv_of_decoding (by decide) (by decide) rfl rfl (by decide) (by decide) (by decide) (by decide)
theorem inv_hit : hit.Inv :=
  inv_of_scanning (by decide) (by decide) rfl rfl (by decide) (by decide) (by decide) (by decide) (by decide)
theorem inv_miss : miss.Inv :=
  inv_of_scanning (by decide) (by decide) rfl rfl (by decide) (by decide) (by decide) (by decide) (by decide)
theorem inv_flushed : flushed.Inv :=
  inv_of_scanning (by decide) (by decide) rfl rfl (by decide) (by decide) (by decide) (by decide) (by decide)
theorem inv_idle5 : (idle fiveA 37).Inv := inv_of_idle (by decide) (by decide) rfl (by decide)
theorem inv_block5 : (idle block5 5).Inv := inv_of_idle (by decide) (by decide) rfl (by decide)
theorem mayStart5 : (idle fiveA 37).MayStart := ⟨rfl, by decide⟩
theorem mayStart_block5 : (idle block5 5).MayStart := ⟨rfl, by decide⟩

/-! #### Reset, invariant, encodings -/

theorem witness_ResetInputRestoresEngine :
    (doing [.reset] copy4).host = .reset :: [] ∧ 0 < (doing [.reset] copy4).writeRange ∧
    4 < (doing [.reset] copy4).writeRange := by decide

theorem witness_StepKeepsInvariant :
    (lit3.Inv ∧ ∃ t, step lit3 = .next t) ∧ (hit.Inv ∧ ∃ t, step hit = .next t) ∧
    ((idle fiveA 37).Inv ∧ ∃ t, step (idle fiveA 37) = .next t) :=
  ⟨⟨inv_lit3, _, rfl⟩, ⟨inv_hit, _, rfl⟩, inv_idle5, _, rfl⟩

theorem witness_ParametersNeverChange : ∃ t, step (doing [.reset] hit) = .next t := ⟨_, rfl⟩

theorem witness_DecodeOfEncodeIsIdentity :
    (Instr.lit 59).wellFormed = true ∧ (Instr.litX4 0xFFFFFFFF).wellFormed = true ∧ (Instr.copy1 7 2047).wellFormed = true ∧
    (Instr.copy2 63 65535).wellFormed = true ∧ (Instr.copy4 63).wellFormed = true ∧
    (Instr.cmdReserved 0xFF).wellFormed = true := by decide

theorem witness_DecodedElementIsItsBytes :
    decode .element [0xFD#8, 0xFF#8, 0x00#8] = .ok (.copy1 7 2047, [0x00#8]) ∧
    decode .element [0xEC#8] = .ok (.lit 59, []) := by decide

/-- A tag for each clause, at the ends of its range. -/
theorem witness_TagByteSelectsForm :
    4 ≤ fiveA.length ∧ ((0xEC : Byte).toNat % 4 = 0 ∧ (0xEC : Byte).toNat / 4 < 60) ∧
    ((0x00 : Byte).toNat % 4 = 0 ∧ (0x00 : Byte).toNat / 4 < 60) ∧
    ((0x01 : Byte).toNat % 4 = 1 ∧ (0xFD : Byte).toNat % 4 = 1) ∧
    ((0x02 : Byte).toNat % 4 = 2 ∧ (0xFE : Byte).toNat % 4 = 2) ∧
    ((0x03 : Byte).toNat % 4 = 3 ∧ (0xFF : Byte).toNat % 4 = 3) := by decide

/-! #### Steps and elements -/

theorem witness_StepRunsElementAtCursor :
    copy4.phase = .decompressing ∧ copy4.src copy4.dec.s = some 0x01 ∧ copy4.dec.s + 1 + extCount 0x01 ≤ copy4.srcLen ∧
    copy4.srcBytes (copy4.dec.s + 1) (extCount 0x01) = some [0x01] ∧
    decode .element [0x01#8, 0x01#8] = .ok (.copy1 0 1, []) ∧ copy4.host = [] ∧
    (doing [.engine] copy4).host = .engine :: [] := by decide

theorem witness_StepRunsCommandWritten :
    (doing [.regWrite 0 8 1] (idle fiveA 37)).host = .regWrite (idle fiveA 37).cfg.regBase 8 1 :: [] := rfl

/-- Each literal form, with a state it runs in. -/
theorem witness_LiteralElementsCopyTheirData :
    (Instr.lit 2).literal = some (1, 3) ∧ (Instr.litX1 0).literal = some (2, 1) ∧ (Instr.litX2 0).literal = some (3, 1) ∧
    (Instr.litX3 0).literal = some (4, 1) ∧ (Instr.litX4 0).literal = some (5, 1) ∧
    3 ≤ lit3.dec.n - lit3.dec.d ∧ lit3.dec.s + 1 + 3 ≤ lit3.srcLen ∧
    lit3.srcAddr (lit3.dec.s + 1) + 3 ≤ lit3.dstAddr lit3.dec.d ∧
    (∀ k < 3, (lit3.src (lit3.dec.s + 1 + k)).isSome) := by decide

theorem witness_LiteralElementsCheckInOrder :
    (Instr.lit 3).literal = some (1, 4) ∧ lit3.dec.n - lit3.dec.d < 4 ∧
    (Instr.litX1 2).literal = some (2, 3) ∧ 3 ≤ lit3.dec.n - lit3.dec.d ∧ lit3.srcLen < lit3.dec.s + 2 + 3 := by decide

theorem witness_CopyElementsReplayWithPeriod :
    (Instr.copy1 0 1).copy = some (2, 1, 4) ∧ (Instr.copy2 3 1).copy = some (3, 1, 4) ∧ 0 < 1 ∧ 1 ≤ copy4.dec.d ∧
    copy4.dec.d + 4 ≤ copy4.dec.n ∧ (∀ k < 1, (copy4.mem.read (copy4.dstAddr (copy4.dec.d - 1 + k))).isSome) := by decide

theorem witness_CopyElementsCheckInOrder :
    (Instr.copy1 0 0).copy = some (2, 0, 4) ∧ ((Instr.copy2 0 2).copy = some (3, 2, 1) ∧ 0 < 2 ∧ copy4.dec.d < 2) ∧
    ((Instr.copy1 1 1).copy = some (2, 1, 5) ∧ 1 ≤ copy4.dec.d ∧ copy4.dec.n < copy4.dec.d + 5) := by decide

/-- A state whose last source byte is a Copy-4 tag. -/
theorem witness_Copy4IsAlwaysAnError :
    (decoding [0xFF] 0 0 []).host = [] ∧ (decoding [0xFF] 0 0 []).phase = .decompressing ∧
    (decoding [0xFF] 0 0 []).dec.s < (decoding [0xFF] 0 0 []).srcLen ∧
    (decoding [0xFF] 0 0 []).src (decoding [0xFF] 0 0 []).dec.s = some 0xFF ∧ (0xFF : Byte).toNat % 4 = 3 := by decide

/-- One cut element for each clause, each with one byte too few. -/
theorem witness_CutElementIsTagTruncated :
    (∀ s : State, s = decoding [0xF0] 0 3 [] ∨ s = decoding [0x01] 0 3 [] ∨ s = decoding [0x0A, 0x01] 0 3 [] →
      s.host = [] ∧ s.phase = .decompressing ∧ s.dec.s < s.srcLen) ∧
    ((decoding [0xF0] 0 3 []).src 8 = some 0xF0 ∧ (0xF0 : Byte).toNat % 4 = 0 ∧ 60 ≤ (0xF0 : Byte).toNat / 4 ∧
      (decoding [0xF0] 0 3 []).srcLen < 8 + 1 + ((0xF0 : Byte).toNat / 4 - 59)) ∧
    ((decoding [0x01] 0 3 []).src 8 = some 0x01 ∧ (0x01 : Byte).toNat % 4 = 1 ∧ (decoding [0x01] 0 3 []).srcLen < 8 + 2) ∧
    ((decoding [0x0A, 0x01] 0 3 []).src 8 = some 0x0A ∧ (0x0A : Byte).toNat % 4 = 2 ∧
      (decoding [0x0A, 0x01] 0 3 []).srcLen < 8 + 3) := by
  refine ⟨?_, by decide, by decide, by decide⟩
  rintro s (rfl | rfl | rfl) <;> decide

theorem witness_DecompressEndsWithLengthCheck :
    (ended.host = [] ∧ ended.phase = .decompressing ∧ ended.srcLen ≤ ended.dec.s ∧ ended.dec.d = ended.dec.n) ∧
    ((decoding [] 0 1 []).srcLen ≤ (decoding [] 0 1 []).dec.s ∧ (decoding [] 0 1 []).dec.d ≠ (decoding [] 0 1 []).dec.n) := by
  decide

theorem witness_DecompressWritesOnlyDeclaredLength :
    copy4.Inv ∧ copy4.host = [] ∧ copy4.phase = .decompressing ∧ ∃ t, step copy4 = .next t :=
  ⟨inv_copy4, rfl, rfl, _, rfl⟩

/-! #### Starts -/

theorem witness_DecompressChecksHeader :
    ((idle [1, 2, 3, 4, 5, 6, 7] 0).MayStart ∧ (idle [1, 2, 3, 4, 5, 6, 7] 0).regs.srcLen.toNat < 8) ∧
    ((idle block5 4).MayStart ∧ 8 ≤ (idle block5 4).regs.srcLen.toNat ∧ header5.length = 8 ∧
      (idle block5 4).mem.Holds (idle block5 4).regs.srcAddr.toNat header5 ∧
      (idle block5 4).regs.dstCap.toNat < le header5) :=
  ⟨⟨⟨rfl, by decide⟩, by decide⟩, ⟨rfl, by decide⟩, by decide⟩

theorem witness_DecompressStartsElementLoop :
    (idle block5 5).MayStart ∧ 8 ≤ (idle block5 5).regs.srcLen.toNat ∧ header5.length = 8 ∧
    (idle block5 5).mem.Holds (idle block5 5).regs.srcAddr.toNat header5 ∧
    le header5 ≤ (idle block5 5).regs.dstCap.toNat :=
  ⟨mayStart_block5, by decide⟩

/-- A source one byte too long for a machine that accepts four, and a capacity one byte below the worst case. -/
theorem witness_CompressChecksLengthsInOrder :
    (State.MayStart { idle fiveA 37 with cfg := { Config.Params.default with maxSrcLen := 4 } } ∧
      4 < (idle fiveA 37).regs.srcLen.toNat) ∧
    ((idle fiveA 36).MayStart ∧ (idle fiveA 36).regs.srcLen.toNat ≤ (idle fiveA 36).cfg.maxSrcLen ∧
      (idle fiveA 36).regs.dstCap.toNat <
        32 + (idle fiveA 36).regs.srcLen.toNat + (idle fiveA 36).regs.srcLen.toNat / 6) :=
  ⟨⟨⟨rfl, by decide⟩, by decide⟩, ⟨rfl, by decide⟩, by decide⟩

/-- The empty source and four bytes. -/
theorem witness_CompressShortInputIsOneLiteral :
    ((idle [] 32).MayStart ∧ (idle [] 32).SourceIs [] ∧ 32 ≤ (idle [] 32).regs.dstCap.toNat) ∧
    ((idle [1, 2, 3, 4] 36).MayStart ∧ (idle [1, 2, 3, 4] 36).SourceIs [1, 2, 3, 4] ∧
      4 ≤ (idle [1, 2, 3, 4] 36).cfg.maxSrcLen ∧ 32 + 4 + 4 / 6 ≤ (idle [1, 2, 3, 4] 36).regs.dstCap.toNat) :=
  ⟨⟨⟨rfl, by decide⟩, by decide⟩, ⟨rfl, by decide⟩, by decide⟩

theorem witness_CompressStartsScan :
    (idle fiveA 37).MayStart ∧ 4 < (idle fiveA 37).regs.srcLen.toNat ∧
    (idle fiveA 37).regs.srcLen.toNat ≤ (idle fiveA 37).cfg.maxSrcLen ∧
    32 + (idle fiveA 37).regs.srcLen.toNat + (idle fiveA 37).regs.srcLen.toNat / 6 ≤ (idle fiveA 37).regs.dstCap.toNat :=
  ⟨mayStart5, by decide⟩

/-! #### The match-finder, the encoder and the scan -/

theorem witness_HashIndexesWholeTable : 8 ≤ 8 ∧ 8 ≤ 14 ∧ 14 ≤ 14 ∧ 0 < 2 ^ 8 ∧ 2 ^ 14 - 1 < 2 ^ 14 := by decide

/-- The last position a scan reaches, with a slot that names the position before it. -/
theorem witness_MatchTestIsFourEqualBytes : 1 ≤ 1 ∧ 1 + 3 < fiveA.length := by decide

theorem witness_CanonicalLiteralHasItsSize : 1 ≤ 1 ∧ 1 ≤ 2 ^ 32 ∧ 1 ≤ 2 ^ 32 ∧ 2 ^ 32 ≤ 2 ^ 32 := by decide

theorem witness_CopyPiecesAddUp : 1 ≤ 1 ∧ 1 ≤ 32767 ∧ 1 ≤ 32767 ∧ 32767 ≤ 32767 ∧ 4 ≤ 4 := by decide

theorem witness_CopySizeIsBelowLength : 1 ≤ 2047 ∧ 2047 ≤ 32767 ∧ 4 ≤ 68 := by decide

theorem witness_ScanMissEntersPosition :
    miss.host = [] ∧ miss.phase = .compressing ∧ miss.comp.s + 3 < miss.srcLen ∧
    hashAt miss.src miss.shift miss.comp.s = some 242 ∧
    matchTest miss.src (miss.table.get 242) miss.comp.s = some false := by decide

/-- A match to the end of the source with a run pending (R140), and one that ends before an unequal byte with none. -/
theorem witness_ScanHitWritesRunAndCopy :
    (hit.host = [] ∧ hit.phase = .compressing ∧ hit.comp.s + 3 < hit.srcLen ∧
      hashAt hit.src hit.shift hit.comp.s = some 242 ∧ matchTest hit.src (hit.table.get 242) hit.comp.s = some true ∧
      hit.comp.s + 4 ≤ 5 ∧ 5 ≤ hit.srcLen ∧ ([0x61] : List Byte).length = hit.comp.s - hit.comp.lit ∧
      hit.src (hit.comp.lit + 0) = some 0x61 ∧
      ([0x00, 0x61, 0x01, 0x01] : List Byte) =
        (encode (canonicalLiteral 1) ++ [0x61]) ++ copyBytes (hit.comp.s - (hit.table.get 242 - 1)) (5 - hit.comp.s) ∧
      hit.comp.d + 4 ≤ 32 + hit.srcLen + hit.srcLen / 6) ∧
    (hitShort.host = [] ∧ hitShort.phase = .compressing ∧ hitShort.comp.s + 3 < hitShort.srcLen ∧
      hashAt hitShort.src hitShort.shift hitShort.comp.s = some 242 ∧
      matchTest hitShort.src (hitShort.table.get 242) hitShort.comp.s = some true ∧
      hitShort.comp.s + 4 ≤ 5 ∧ 5 < hitShort.srcLen ∧ (hitShort.src 5).isSome ∧
      (hitShort.src (hitShort.table.get 242 - 1 + (5 - hitShort.comp.s))).isSome ∧
      hitShort.src 5 ≠ hitShort.src (hitShort.table.get 242 - 1 + (5 - hitShort.comp.s)) ∧
      ([] : List Byte).length = hitShort.comp.s - hitShort.comp.lit ∧
      hitShort.comp.d + (copyBytes (hitShort.comp.s - (hitShort.table.get 242 - 1)) (5 - hitShort.comp.s)).length ≤
        32 + hitShort.srcLen + hitShort.srcLen / 6) := by decide

/-- A last run of one byte, and no last run. -/
theorem witness_FinalFlushCompletes :
    (flushing.host = [] ∧ flushing.phase = .compressing ∧ flushing.srcLen ≤ flushing.comp.s + 3 ∧
      ([0x62] : List Byte).length = flushing.srcLen - flushing.comp.lit ∧ flushing.src (flushing.comp.lit + 0) = some 0x62 ∧
      flushing.comp.d + (encode (canonicalLiteral 1) ++ ([0x62] : List Byte)).length ≤
        32 + flushing.srcLen + flushing.srcLen / 6) ∧
    (flushed.host = [] ∧ flushed.phase = .compressing ∧ flushed.srcLen ≤ flushed.comp.s + 3 ∧
      ([] : List Byte).length = flushed.srcLen - flushed.comp.lit ∧
      flushed.comp.d + 0 ≤ 32 + flushed.srcLen + flushed.srcLen / 6) := by decide

theorem witness_CompressOutputStaysInBound :
    (hit.Inv ∧ hit.cfg.Legal ∧ hit.host = [] ∧ hit.phase = .compressing ∧ ∃ t, step hit = .next t) ∧
    (flushed.Inv ∧ flushed.cfg.Legal ∧ flushed.host = [] ∧ flushed.phase = .compressing ∧
      ∃ t, step flushed = .next t ∧ t.phase = .idle) :=
  ⟨⟨inv_hit, by decide, rfl, rfl, _, rfl⟩, inv_flushed, by decide, rfl, rfl, _, rfl, rfl⟩

/-! #### The life of a command -/

theorem witness_ErrorCompletionReportsCause : copy4.hasWritten = true ∧ 4 < copy4.writeRange := by decide

theorem witness_ReservedCodeIsBadCommand :
    (idle [1] 1).status.busy = false ∧ (0x103 : Word).toNat % 256 ≠ 1 ∧ (0x103 : Word).toNat % 256 ≠ 2 ∧
    (doing [.regWrite 0 8 0x103] (idle [1] 1)).host = .regWrite (idle [1] 1).cfg.regBase 8 0x103 :: [] := by decide

/-- The first and the last offset of the block. -/
theorem witness_RegisterWritesIgnoredWhileBusy :
    hit.status.busy = true ∧ 0 < 8 ∧ (doing [.regWrite 0 8 2] hit).host = .regWrite (hit.cfg.regBase + 8 * 0) 8 2 :: [] ∧
    7 < 8 ∧ (doing [.regWrite 0x38 8 2] hit).host = .regWrite (hit.cfg.regBase + 8 * 7) 8 2 :: [] := by decide

/-- Windows at the edges of R54: one that ends at the last address, one that passes it, two that touch, two that meet. -/
theorem witness_CommandsRefuseBrokenWindows :
    (idle [] 0).status.busy = false ∧
    Buffers.violation { srcAddr := 0xFFFFFFFFFFFFFFF8, srcLen := 8, dstAddr := 0, dstCap := 8 } Config.Params.default = none ∧
    Buffers.violation { srcAddr := 0xFFFFFFFFFFFFFFF8, srcLen := 9, dstAddr := 0, dstCap := 8 } Config.Params.default =
      some .windowOutsideMemory ∧
    Buffers.violation { srcAddr := 8, srcLen := 8, dstAddr := 0, dstCap := 8 } Config.Params.default = none ∧
    Buffers.violation { srcAddr := 7, srcLen := 8, dstAddr := 0, dstCap := 8 } Config.Params.default =
      some .windowsOverlap := by decide

theorem witness_StatusKeptBetweenCommands :
    finished.phase = .idle ∧ finished.status.busy = false ∧
    (∀ rest w, (doing [.regRead 0x28 8] finished).host ≠ .regWrite finished.cfg.regBase 8 w :: rest) ∧
    (∀ rest, (doing [.regRead 0x28 8] finished).host ≠ .reset :: rest) ∧
    ∃ t, step (doing [.regRead 0x28 8] finished) = .next t :=
  ⟨rfl, rfl, fun _ _ => by simp [doing], fun _ => by simp [doing], _, rfl⟩

theorem witness_IdleEngineDoesNothing : finished.phase = .idle ∧ finished.host = [] := ⟨rfl, rfl⟩

/-! #### The host -/

theorem witness_BufferRegisterReadsBack :
    finished.status.busy = false ∧
    (doing [.regWrite 0x08 8 5, .regRead 0x08 8] finished).host =
      .regWrite (finished.cfg.regBase + 0x08) 8 5 :: .regRead (finished.cfg.regBase + 0x08) 8 :: [] ∧
    (doing [.regWrite 0x20 8 5, .regRead 0x20 8] finished).host =
      .regWrite (finished.cfg.regBase + 0x20) 8 5 :: .regRead (finished.cfg.regBase + 0x20) 8 :: [] := by decide

theorem witness_OtherRegistersReadOnly :
    (∀ off : Nat, off = 0x00 ∨ off = 0x28 ∨ off = 0x30 ∨ off = 0x38 →
      (doing [.regRead off 8] finished).host = .regRead (finished.cfg.regBase + off) 8 :: []) ∧
    (∀ off : Nat, off = 0x28 ∨ off = 0x30 ∨ off = 0x38 →
      (doing [.regWrite off 8 1] finished).host = .regWrite (finished.cfg.regBase + off) 8 1 :: []) ∧
    finished.status.word = 2 ∧ finished.resultLen = 12 := by
  refine ⟨?_, ?_, by decide, rfl⟩
  · rintro off (rfl | rfl | rfl | rfl) <;> decide
  · rintro off (rfl | rfl | rfl) <;> decide

/-- The last byte of the block, and a narrow access of its first. -/
theorem witness_OddRegisterAccessRefused :
    (0x3F < 0x40 ∧ 0x3F % 8 ≠ 0 ∧ (doing [.regRead 0x3F 8] finished).host = .regRead (finished.cfg.regBase + 0x3F) 8 :: []) ∧
    (0 < 0x40 ∧ 4 ≠ 8 ∧ (doing [.regWrite 0 4 1] finished).host = .regWrite (finished.cfg.regBase + 0) 4 1 :: []) := by decide

theorem witness_PollReadsStatusUntilFree :
    ((doing [.poll] hit).host = .poll :: [] ∧ (doing [.poll] hit).status.busy = true ∧ (doing [.poll] hit).status.done = false) ∧
    ((doing [.poll] finished).host = .poll :: [] ∧ (doing [.poll] finished).status.busy = false) := by decide

/-- The first and last address of the source window, and of the destination window. -/
theorem witness_WindowWriteDuringCommandRefused :
    copy4.Inv ∧ copy4.status.busy = true ∧ 0x13F < 2 ^ copy4.cfg.addrBits ∧
    (copy4.latch.inSrc 0x20 = true ∧ copy4.latch.inSrc 0x2B = true ∧ copy4.latch.inSrc 0x2C = false) ∧
    (copy4.latch.inDst 0x100 = true ∧ copy4.latch.inDst 0x13F = true ∧ copy4.latch.inDst 0x140 = false) ∧
    (doing [.memWrite 0x20 1] copy4).Inv ∧ (doing [.memWrite 0x20 1] copy4).host = .memWrite 0x20 1 :: [] :=
  ⟨inv_copy4, rfl, by decide, by decide, by decide,
    inv_of_decoding (by decide) (by decide) rfl rfl (by decide) (by decide) (by decide) (by decide), rfl⟩

theorem witness_HostSeesDestinationAfterDone :
    ((doing [.memRead 0x100] copy4).Inv ∧ copy4.status.busy = true ∧ 0x100 < 2 ^ copy4.cfg.addrBits ∧
      copy4.latch.inDst 0x100 = true ∧ (doing [.memRead 0x100] copy4).host = .memRead 0x100 :: []) ∧
    (finished.status.done = true ∧ 0x100 < 2 ^ finished.cfg.addrBits ∧ finished.mem.read 0x100 = some 5 ∧
      (doing [.regRead 0x28 8, .memRead 0x100] finished).host =
        .regRead (finished.cfg.regBase + 0x28) 8 :: .memRead 0x100 :: []) :=
  ⟨⟨inv_of_decoding (by decide) (by decide) rfl rfl (by decide) (by decide) (by decide) (by decide), by decide⟩, by decide⟩

theorem witness_MemoryReadsLastWrite : (mem 0x20 fiveA).wf := by decide

/-! #### Whole-machine rules -/

/-- A change by the host's own write, by a running command, and by a command that starts. -/
theorem witness_OnlyDestinationIsWritten :
    ((doing [.memWrite 0x500 1] finished).Inv ∧ ∃ t, step (doing [.memWrite 0x500 1] finished) = .next t ∧
      t.mem.read 0x500 ≠ finished.mem.read 0x500) ∧
    (copy4.Inv ∧ ∃ t, step copy4 = .next t ∧ t.mem.read 0x101 ≠ copy4.mem.read 0x101) ∧
    ((doing [.regWrite 0 8 1] (idle fiveA 37)).Inv ∧ ∃ t, step (doing [.regWrite 0 8 1] (idle fiveA 37)) = .next t ∧
      t.mem.read 0x100 ≠ (idle fiveA 37).mem.read 0x100) :=
  ⟨⟨inv_of_idle (by decide) (by decide) rfl (by decide), _, rfl, by decide⟩, ⟨inv_copy4, _, rfl, by decide⟩,
    inv_of_idle (by decide) (by decide) rfl (by decide), _, rfl, by decide⟩

theorem witness_SourceKeptDuringCommand :
    copy4.Inv ∧ copy4.status.busy = true ∧ copy4.latch.inSrc 0x20 = true ∧ copy4.latch.inSrc 0x2B = true ∧
    ∃ t, step copy4 = .next t :=
  ⟨inv_copy4, rfl, by decide, by decide, _, rfl⟩

/-- The same windows, another byte beyond the destination. -/
theorem witness_EngineReadsOnlyItsWindows :
    copy4.Inv ∧ copy4.status.busy = true ∧ copy4.host = [] ∧
    (∀ a, copy4.latch.inSrc a = true ∨ copy4.latch.inDst a = true →
      (copy4.mem.write 0x500 7).read a = copy4.mem.read a) ∧
    ∃ t, step copy4 = .next t :=
  ⟨inv_copy4, rfl, rfl,
    fun _ h => Memory.read_write_ne (fun hx => by subst hx; revert h; decide) _ _, _, rfl⟩

theorem witness_CommandsEndInBoundedSteps :
    (hit.Inv ∧ hit.host = [] ∧ hit.SourceReadable ∧ hit.phase = .compressing) ∧
    (copy4.Inv ∧ copy4.host = [] ∧ copy4.SourceReadable ∧ copy4.phase = .decompressing) :=
  ⟨⟨inv_hit, rfl, by decide, rfl⟩, inv_copy4, rfl, by decide, rfl⟩

theorem witness_CompressRunsToSuccess :
    (idle fiveA 37).Inv ∧ (idle fiveA 37).MayStart ∧ (idle fiveA 37).cfg.Legal ∧ (idle fiveA 37).host = [] ∧
    (idle fiveA 37).SourceIs fiveA ∧ fiveA.length ≤ (idle fiveA 37).cfg.maxSrcLen ∧
    32 + fiveA.length + fiveA.length / 6 ≤ (idle fiveA 37).regs.dstCap.toNat :=
  ⟨inv_idle5, mayStart5, by decide⟩

/-- The same source on two machines that differ in capacity, table, last command and what stands beside the source. -/
theorem witness_CompressDependsOnSourceAlone :
    ∀ s : State,
      s = idle fiveA 37 ∨
        s = { idle fiveA 0x40 with table := { entries := [(242, 9)] }, status := { Status.zero with done := true },
                                   mem := (mem 0x20 fiveA).write 0x500 3 } →
      s.Inv ∧ s.MayStart ∧ s.cfg.Legal ∧ s.host = [] ∧ s.SourceIs fiveA ∧ fiveA.length ≤ s.cfg.maxSrcLen ∧
        32 + fiveA.length + fiveA.length / 6 ≤ s.regs.dstCap.toNat := by
  rintro s (rfl | rfl)
  · exact ⟨inv_idle5, mayStart5, by decide⟩
  · exact ⟨inv_of_idle (by decide) (by decide) rfl (by decide), ⟨rfl, by decide⟩, by decide⟩

/-- The machine that compresses "aaaaa", and one with R140's block before a DECOMPRESS. -/
theorem witness_DecompressUndoesCompress :
    ((idle fiveA 37).Inv ∧ (idle fiveA 37).MayStart ∧ (idle fiveA 37).cfg.Legal ∧ (idle fiveA 37).host = [] ∧
      (idle fiveA 37).SourceIs fiveA ∧ fiveA.length ≤ (idle fiveA 37).cfg.maxSrcLen ∧
      32 + fiveA.length + fiveA.length / 6 ≤ (idle fiveA 37).regs.dstCap.toNat) ∧
    ((idle block5 5).Inv ∧ (idle block5 5).MayStart ∧ (idle block5 5).host = [] ∧ (idle block5 5).SourceIs block5 ∧
      fiveA.length ≤ (idle block5 5).regs.dstCap.toNat) :=
  ⟨⟨inv_idle5, mayStart5, by decide⟩, inv_block5, mayStart_block5, by decide⟩

/-! #### Byte order and error kinds -/

theorem witness_LittleEndianByWeights : 0xFFFF < 2 ^ (8 * 2) ∧ 0 < 2 ∧ 1 < 2 := by decide

/-- The last scan position of "aaaaa". -/
theorem witness_HashWordIsFourSourceBytes :
    hit.src 1 = some 0x61 ∧ hit.src 2 = some 0x61 ∧ hit.src 3 = some 0x61 ∧ hit.src 4 = some 0x61 := by decide

/-- A state between commands, and one after a command that failed with OUTPUT_OVERRUN. -/
theorem witness_ErrorKindsAreCoded :
    (idle fiveA 37).Inv ∧ ({ idle fiveA 37 with status := Status.failed .outputOverrun } : State).Inv :=
  ⟨inv_idle5, ⟨inv_idle5.mem_wf, inv_idle5.table_wf, by decide,
    ⟨by decide, by decide, by decide, fun _ => ⟨.outputOverrun, rfl, rfl⟩⟩, fun _ => rfl, fun _ => rfl,
    fun h => absurd h (by decide), fun h => absurd h (by decide), fun h => absurd h (by decide),
    fun h => absurd h (by decide), fun h => absurd h (by decide)⟩⟩

end Sys2Proof.Tests
end

/-! PROOFS. The statements of spec 00_scope.md: no step changes a parameter (R6), little-endian assembly (R10), and a byte
of host memory reads as last written (R11). -/

namespace Sys2Proof

/-! ### Little-endian assembly (R10) -/

theorem le_eq_sum (bs : List Byte) : le bs = ∑ i : Fin bs.length, bs[i].toNat * 2 ^ (8 * i.val) := by
  induction bs with
  | nil => rfl
  | cons b bs ih =>
    have hshift : ∀ i : Fin bs.length, bs[i].toNat * 2 ^ (8 * (i.val + 1)) = 256 * (bs[i].toNat * 2 ^ (8 * i.val)) :=
      fun i => by ring
    calc le (b :: bs)
      _ = b.toNat + 256 * ∑ i : Fin bs.length, bs[i].toNat * 2 ^ (8 * i.val) := by rw [le, ih]
      _ = b.toNat + ∑ i : Fin bs.length, bs[i].toNat * 2 ^ (8 * (i.val + 1)) := by
        rw [Finset.mul_sum]; simp only [hshift]
      _ = ∑ i : Fin (b :: bs).length, (b :: bs)[i].toNat * 2 ^ (8 * i.val) := by
        simp [Fin.sum_univ_succ]

theorem leBytes_getElem? {k i : Nat} (h : i < k) (x : Nat) :
    (leBytes k x)[i]? = some (BitVec.ofNat 8 (x / 2 ^ (8 * i))) := by
  induction k generalizing i x with
  | zero => omega
  | succ k ih =>
    cases i with
    | zero => simp [leBytes]
    | succ i =>
      have hweight : x / 256 / 2 ^ (8 * i) = x / 2 ^ (8 * (i + 1)) := by
        rw [Nat.div_div_eq_div_mul, Nat.mul_succ, Nat.pow_add, Nat.mul_comm]
      rw [leBytes, List.getElem?_cons_succ, ih (by omega), hweight]

/-- Settles O56, by induction on the bytes assembled and on the number of bytes taken apart. -/
theorem littleEndianByWeights : Obligations.LittleEndianByWeights :=
  ⟨le_eq_sum, fun k x _ => ⟨Machine.leBytes_length k x, fun _ hi => leBytes_getElem? hi x⟩⟩

end Sys2Proof

namespace Sys2Proof.Machine

/-! ### The parameters (R6) -/

@[simp] theorem State.writeReg_cfg (s : State) (o : Nat) (v : Word) : (s.writeReg o v).cfg = s.cfg := by
  unfold State.writeReg
  split
  · rfl
  · split <;> rfl

@[simp] theorem State.entered_cfg (s : State) (h : Nat) : (s.entered h).cfg = s.cfg := rfl

theorem EngineStep.cfg_eq {s t : State} (h : EngineStep s t) : t.cfg = s.cfg := by
  cases h with
  | idle | miss | hit | flush | literal | copy | finish => rfl
  | hitError | flushError | elementError | mismatch => simp

theorem CommandStep.cfg_eq {s t : State} (h : CommandStep s t) : t.cfg = s.cfg := by
  cases h with
  | ignored | flush | compress | decompress => rfl
  | reserved | rejected => simp

theorem StepTo.cfg_eq {s t : State} (h : StepTo s t) : t.cfg = s.cfg := by
  cases h with
  | engine _ h | letEngine _ _ h | pollBusy _ _ _ h | command _ _ _ h => exact h.cfg_eq
  | regWrite => simp
  | pollFree | regRead | memReadFree | memRead | memWrite | reset => rfl

/-- Settles O4, from every way a step answers a next state. -/
theorem parametersNeverChange : Obligations.ParametersNeverChange := fun _ _ h => (stepTo_of_next h).cfg_eq

/-! ### One byte of host memory (R11, R50) -/

/-- Settles O48, from the laws of a write. -/
theorem memoryReadsLastWrite : Obligations.MemoryReadsLastWrite :=
  fun m a a' b hm => ⟨Memory.wf_write hm a b, Memory.read_write m a a' b⟩

end Sys2Proof.Machine

/-! PROOFS. The statements of spec 10_state.md: the invariant and the reset state that meets it (R28 to R38, R138), STATUS
and the register block (R22 to R32, R182, R187, R201), the starts of the commands (R181), and the block of COMPRESS as a
function of the source bytes alone (R137). -/

namespace Sys2Proof.Machine

/-! ### The copy loop (R154, R160) -/

/-- A copy writes every byte of its range, and takes no written byte away. -/
theorem Memory.copyUp_read_isSome {m m' : Memory} {src dst len a : Nat} (h : m.copyUp src dst len = some m')
    (ha : (m.read a).isSome ∨ dst ≤ a ∧ a < dst + len) : (m'.read a).isSome := by
  induction len generalizing m src dst with
  | zero => cases h; exact ha.resolve_right (by omega)
  | succ len ih =>
    simp only [Memory.copyUp] at h
    split at h
    · cases h
    · refine ih h ?_
      by_cases had : a = dst
      · left; rw [had, Memory.read_write_self]; rfl
      · rw [Memory.read_write_ne had]
        exact ha.imp_right (by omega)

/-! ### The sizes of what the compressor writes (R101, R106) -/

theorem encode_canonicalLiteral_length_le (len : Nat) : (encode (canonicalLiteral len)).length ≤ len / 61 + 1 := by
  rw [canonicalLiteral, Config.inlineLitMax]
  split_ifs <;> simp only [encode, List.length_cons, List.length_nil, leBytes_length] <;> omega

/-- A pending run costs one byte more than itself, and at most one more for each 61 bytes of it (R101, R103). -/
theorem runBytes_length_bound (run : List Byte) : (runBytes run).length ≤ run.length + run.length / 61 + 1 := by
  unfold runBytes
  split
  · simp
  · have := encode_canonicalLiteral_length_le run.length
    rw [List.length_append]; omega

/-- Three bytes for every 64 of the copy, rounded up, are enough (R107). -/
theorem copyPieces_length_le (fuel offset len : Nat) :
    ((copyPieces fuel offset len).flatMap encode).length ≤ 3 * ((len + 63) / 64) := by
  induction fuel generalizing len with
  | zero => simp [copyPieces]
  | succ fuel ih =>
    unfold copyPieces
    split
    · simp
    · split
      · simp [encode]; omega
      · have := ih (len - min len Config.copy2MaxLen)
        simp only [Config.copy2MaxLen] at this ⊢
        simp only [List.flatMap_cons, encode, List.length_append, List.length_cons, leBytes_length]
        omega

theorem copyBytes_length_lt {offset len : Nat} (h : 4 ≤ len) : (copyBytes offset len).length + 1 ≤ len := by
  have : (copyBytes offset len).length ≤ 3 * ((len + 63) / 64) := copyPieces_length_le len offset len
  omega

/-- What a hit writes keeps the output within a sixth more than the source it covers (R138): the run from `lit`, then the
copy of a match of at least four bytes up to `e`. -/
theorem hitBytes_bound {d lit e offset len : Nat} {run : List Byte} (hd : d ≤ 8 + lit + lit / 6) (hl : 4 ≤ len)
    (he : lit + run.length + len = e) : d + (hitBytes run offset len).length ≤ 8 + e + e / 6 := by
  have hr := runBytes_length_bound run
  have hc := copyBytes_length_lt (offset := offset) hl
  rw [hitBytes, List.length_append]
  omega

/-! ### STATUS (R28, R182, R183) -/

theorem Status.legal_of_no_error {st : Status} (he : st.err = false) (hk : st.kind = 0) (hd : st.detail = 0)
    (hb : st.busy = true → st.done = false) : st.Legal where
  busy_alone h := ⟨hb h, he⟩
  err_done h := by simp [he] at h
  no_err _ := ⟨hk, hd⟩
  err_code h := by simp [he] at h

theorem Status.zero_legal : Status.zero.Legal := legal_of_no_error rfl rfl rfl (fun _ => rfl)

theorem Status.started_legal : Status.started.Legal := legal_of_no_error rfl rfl rfl (fun _ => rfl)

theorem Status.succeeded_legal : Status.started.succeeded.Legal := legal_of_no_error rfl rfl rfl nofun

theorem Status.failed_legal (e : ErrDetail) : (Status.failed e).Legal where
  busy_alone h := by simp [Status.failed] at h
  err_done _ := rfl
  no_err h := by simp [Status.failed] at h
  err_code _ := ⟨e, rfl, rfl⟩

/-- While a command runs, STATUS is what its start made it. -/
theorem Status.Legal.eq_started {st : Status} (h : st.Legal) (hb : st.busy = true) : st = Status.started := by
  obtain ⟨hdone, herr⟩ := h.busy_alone hb
  obtain ⟨hkind, hdetail⟩ := h.no_err herr
  cases st
  simp_all [Status.started, Status.zero]

/-! ### States of the invariant -/

/-- In IDLE the invariant speaks of the canonical forms, STATUS and RESULT_LEN alone. -/
theorem State.inv_of_idle {s : State} (hm : s.mem.wf) (ht : s.table.wf) (hp : s.phase = .idle) (hb : s.status.busy = false)
    (hl : s.status.Legal) (hr : s.status.err = true → s.resultLen = 0) : s.Inv where
  mem_wf := hm
  table_wf := ht
  busy_phase := by simp [hb, hp]
  status_legal := hl
  result_busy h := by simp [hb] at h
  result_err := hr
  latched h := by simp [hb] at h
  windows h := by simp [hb] at h
  guarded h := by simp [hb] at h
  scanning h := by simp [hp] at h
  decoding h := by simp [hp] at h

theorem State.raised_mem_wf {s : State} (hm : s.mem.wf) (e : ErrDetail) : (s.raised e).mem.wf := by
  rw [State.raised_mem]
  split
  · exact Memory.wf_writeBytes hm _ _
  · exact hm

/-- An error completion of a started command leaves a state of the invariant (R184). -/
theorem State.raised_inv {s : State} (hm : s.mem.wf) (ht : s.table.wf) (hr : s.resultLen = 0) (e : ErrDetail) :
    (s.raised e).Inv :=
  inv_of_idle (raised_mem_wf hm e) (by simpa using ht) rfl rfl (Status.failed_legal e) (by simp [hr])

/-- A success completion of a started command leaves a state of the invariant (R186). -/
theorem State.completed_inv {s : State} (hm : s.mem.wf) (ht : s.table.wf) (hs : s.status = Status.started) (r : Nat) :
    (s.completed r).Inv :=
  inv_of_idle hm ht rfl rfl
    (by rw [completed_status, hs]; exact Status.succeeded_legal)
    (by rw [completed_status, hs]; simp [Status.succeeded, Status.started, Status.zero])

/-- Settles O2: the reset state is in IDLE, with nothing in memory and table. -/
theorem resetStateMeetsInvariant : Obligations.ResetStateMeetsInvariant :=
  State.inv_of_idle State.reset_mem_wf ⟨List.Pairwise.nil, by simp [State.reset]⟩ rfl rfl Status.zero_legal
    (by simp [State.reset, Status.zero])

/-- The entry at the scan position is below the next positions, and so are the others (R128). -/
theorem State.Scanning.entered_le {s : State} (hs : s.Scanning) {h g p : Nat} (hg : g < s.tableSize) (hp : s.comp.s < p) :
    (s.entered h).table.get g ≤ p := by
  by_cases hgh : g = h
  · subst hgh
    exact (Table.get_put_self s.table g s.comp.s).trans_le hp
  · exact (Table.get_put_ne hgh s.table s.comp.s).trans_le ((hs.scanned g hg).trans hp.le)

/-- Output produced before an element stays written, and the element's own is written (R38). -/
theorem State.Decoding.written_copyUp {s : State} (hd : s.Decoding) {src len : Nat} {m : Memory}
    (hc : s.mem.copyUp src (s.dstAddr s.dec.d) len = some m) : ∀ i < s.dec.d + len, (m.read (s.dstAddr i)).isSome := by
  intro i hi
  refine Memory.copyUp_read_isSome hc ?_
  by_cases h : i < s.dec.d
  · exact .inl (hd.written i h)
  · simp only [State.dstAddr]; omega

namespace State.Inv

variable {s : State}

theorem busy_of_phase (hi : s.Inv) (hp : s.phase ≠ .idle) : s.status.busy = true := hi.busy_phase.mpr hp

theorem started_of_phase (hi : s.Inv) (hp : s.phase ≠ .idle) : s.status = Status.started :=
  hi.status_legal.eq_started (hi.busy_of_phase hp)

theorem raised (hi : s.Inv) (hp : s.phase ≠ .idle) (e : ErrDetail) : (s.raised e).Inv :=
  raised_inv hi.mem_wf hi.table_wf (hi.result_busy (hi.busy_of_phase hp)) e

/-! ### The compressor's turns keep it (R128 to R136) -/

theorem scanMiss_entered (hi : s.Inv) (hp : s.phase = .compressing) (hs : s.comp.s + 3 < s.srcLen) (h : Nat) :
    (scanMiss (s.entered h)).Inv :=
  have hsc := hi.scanning hp
  { hi with
    table_wf := Table.wf_put hi.table_wf h s.comp.s
    scanning := fun _ =>
      { hsc with
        lit_le := Nat.le_succ_of_le hsc.lit_le
        s_le := show s.comp.s + 1 ≤ s.srcLen by omega
        scanned := fun g hg => hsc.entered_le hg (Nat.lt_succ_self _) }
    decoding := fun hp' => by cases hp.symm.trans hp' }

theorem afterHit_entered (hi : s.Inv) (hp : s.phase = .compressing) {run : List Byte} {e : Nat} (h t : Nat)
    (hr : run.length = s.comp.s - s.comp.lit) (h4 : s.comp.s + 4 ≤ e) (he : e ≤ s.srcLen) :
    ((s.entered h).afterHit run t e).Inv :=
  have hsc := hi.scanning hp
  have hlit := hsc.lit_le
  { hi with
    mem_wf := Memory.wf_writeBytes hi.mem_wf _ _
    table_wf := Table.wf_put hi.table_wf h s.comp.s
    scanning := fun _ =>
      { hsc with
        lit_le := Nat.le_refl e
        s_le := he
        scanned := fun g hg => hsc.entered_le hg (show s.comp.s < e by omega)
        header := Nat.le_add_right_of_le hsc.header
        bound := hitBytes_bound hsc.bound (show 4 ≤ e - s.comp.s by omega)
          (show s.comp.lit + run.length + (e - s.comp.s) = e by omega) }
    decoding := fun hp' => by cases hp.symm.trans hp' }

/-! ### The elements of a DECOMPRESS keep it (R154, R160) -/

theorem afterLiteral (hi : s.Inv) (hp : s.phase = .decompressing) {k len src : Nat} {m : Memory}
    (hn : len ≤ s.dec.n - s.dec.d) (hs : s.dec.s + k + len ≤ s.srcLen)
    (hc : s.mem.copyUp src (s.dstAddr s.dec.d) len = some m) : ((s.pastHeader k).afterLiteral m len).Inv :=
  have hd := hi.decoding hp
  have hle := hd.d_le
  { hi with
    mem_wf := Memory.copyUp_wf hc hi.mem_wf
    scanning := fun hp' => by cases hp.symm.trans hp'
    decoding := fun _ =>
      { hd with
        past_header := hd.past_header.trans (show s.dec.s ≤ s.dec.s + k + len by omega)
        s_le := hs
        d_le := show s.dec.d + len ≤ s.dec.n by omega
        written := hd.written_copyUp hc } }

theorem afterCopy (hi : s.Inv) (hp : s.phase = .decompressing) {k len src : Nat} {m : Memory}
    (hn : s.dec.d + len ≤ s.dec.n) (hs : s.dec.s + k ≤ s.srcLen)
    (hc : s.mem.copyUp src (s.dstAddr s.dec.d) len = some m) : ((s.pastHeader k).afterCopy m len).Inv :=
  have hd := hi.decoding hp
  { hi with
    mem_wf := Memory.copyUp_wf hc hi.mem_wf
    scanning := fun hp' => by cases hp.symm.trans hp'
    decoding := fun _ =>
      { hd with
        past_header := Nat.le_add_right_of_le hd.past_header
        s_le := hs
        d_le := hn
        written := hd.written_copyUp hc } }

end State.Inv

/-! ### The engine's own step keeps it -/

theorem EngineStep.inv {s t : State} (h : EngineStep s t) (hi : s.Inv) : t.Inv := by
  cases h with
  | idle => exact hi
  | miss h hp hs => exact hi.scanMiss_entered hp hs h
  | hit h e run hp hs _ _ hr he =>
    obtain ⟨he1, he2, -, -⟩ := extendMatch_eq_some he
    exact hi.afterHit_entered hp h _ (sourceRun_eq_some.mp hr).1 he1 (by omega)
  | hitError h _ _ d hp =>
    exact State.raised_inv (s := s.entered h) hi.mem_wf (Table.wf_put hi.table_wf h s.comp.s)
      (hi.result_busy (hi.busy_of_phase (by simp [hp]))) d
  | flush run hp =>
    exact State.completed_inv (s := s.emitted _) (Memory.wf_writeBytes hi.mem_wf _ _) hi.table_wf
      (hi.started_of_phase (by simp [hp])) _
  | flushError _ d hp => exact hi.raised (by simp [hp]) d
  | elementError k d hp =>
    exact State.raised_inv (s := s.pastHeader k) hi.mem_wf hi.table_wf (hi.result_busy (hi.busy_of_phase (by simp [hp]))) d
  | literal tag len m hp _ hn _ hs hc => exact hi.afterLiteral hp hn (by omega) hc
  | copy tag o len m hp _ _ _ hn hs hc => exact hi.afterCopy hp hn (by omega) hc
  | finish hp => exact State.completed_inv hi.mem_wf hi.table_wf (hi.started_of_phase (by simp [hp])) _
  | mismatch hp => exact hi.raised (by simp [hp]) _

/-! ### A command's start keeps it (R181, R122 to R125, R150) -/

/-- A started command meets the invariant when its phase's part is met: the registers are latched, the windows were checked,
and the host has not observed it. -/
theorem State.Inv.of_begin {s t : State} {p : Phase} (hm : t.mem.wf) (ht : t.table.wf) (hv : s.regs.violation s.cfg = none)
    (hp : p ≠ .idle)
    (hframe : { t with
      mem := s.mem, table := s.table, tableSize := s.tableSize, shift := s.shift, comp := CompCursors.zero,
      dec := DecCursors.zero } = s.begin p)
    (hsc : p = .compressing → t.Scanning) (hd : p = .decompressing → t.Decoding) : t.Inv := by
  have hregs := congrArg State.regs hframe
  have hstatus := congrArg State.status hframe
  have hresult := congrArg State.resultLen hframe
  have hphase := congrArg State.phase hframe
  have hlatch := congrArg State.latch hframe
  have hcfg := congrArg State.cfg hframe
  have hun := congrArg State.unobserved hframe
  simp only [State.begin_regs, State.begin_status, State.begin_resultLen, State.begin_phase, State.begin_latch,
    State.begin_cfg, State.begin_unobserved] at hregs hstatus hresult hphase hlatch hcfg hun
  exact
    { mem_wf := hm
      table_wf := ht
      busy_phase := by simp [hstatus, hphase, hp, Status.started]
      status_legal := hstatus ▸ Status.started_legal
      result_busy := fun _ => hresult
      result_err := fun _ => hresult
      latched := fun _ => hregs.trans hlatch.symm
      windows := fun _ => by rw [hlatch, hcfg, hv]
      guarded := fun _ => by simp [hlatch, hun]
      scanning := fun h => hsc (hphase ▸ h)
      decoding := fun h => hd (hphase ▸ h) }

theorem State.Inv.scanReady {s : State} (hi : s.Inv) (hv : s.regs.violation s.cfg = none) (hl : 4 < s.regs.srcLen.toNat)
    (hmax : s.regs.srcLen.toNat ≤ s.cfg.maxSrcLen) (hc : maxCompressedLen s.regs.srcLen.toNat ≤ s.regs.dstCap.toNat) :
    (((s.begin .compressing).emitted (leBytes 8 s.regs.srcLen.toNat)).scanReady).Inv := by
  refine .of_begin (p := .compressing) (Memory.wf_writeBytes hi.mem_wf _ _) (Table.wf_clear hi.table_wf _) hv (by simp) rfl
    (fun _ => ?_) (by simp)
  exact
    { long := hl
      accepted := hmax
      room := hc
      params := rfl
      lit_le := Nat.le_refl 0
      s_le := Nat.zero_le _
      scanned := fun h hh => by
        simp only [State.scanReady] at hh ⊢
        rw [Table.get_clear, if_pos hh]; exact Nat.zero_le _
      header := Nat.le_refl 8
      bound := Nat.le_add_right_of_le (Nat.le_refl 8) }

theorem State.Inv.decodeReady {s : State} (hi : s.Inv) {n : Nat} (hv : s.regs.violation s.cfg = none)
    (hl : 8 ≤ s.regs.srcLen.toNat) (hn : n ≤ s.regs.dstCap.toNat) : (s.decodeReady n).Inv :=
  .of_begin (p := .decompressing) hi.mem_wf hi.table_wf hv (by simp) rfl (by simp) fun _ =>
    { past_header := Nat.le_refl 8
      s_le := hl
      d_le := Nat.zero_le n
      n_le := hn
      written := fun i hi => absurd hi (Nat.not_lt_zero i) }

theorem CommandStep.inv {s t : State} (h : CommandStep s t) (hi : s.Inv) : t.Inv := by
  cases h with
  | ignored => exact hi
  | reserved => exact State.raised_inv (s := { s.start with phase := .idle }) hi.mem_wf hi.table_wf rfl _
  | rejected p d => exact State.raised_inv (s := s.begin p) hi.mem_wf hi.table_wf rfl d
  | flush =>
    exact State.completed_inv (s := (s.begin .compressing).emitted _) (Memory.wf_writeBytes hi.mem_wf _ _) hi.table_wf rfl _
  | compress _ hv hl hmax hc => exact hi.scanReady hv hl hmax hc
  | decompress n _ hv hl hn => exact hi.decodeReady hv hl hn

/-! ### The host's actions keep it -/

namespace State.Inv

variable {s : State}

/-- What is the host's own is no part of it. -/
theorem withHost (hi : s.Inv) (host : List HostAction) (v : Word) (k : Nat) :
    State.Inv { s with host := host, hostRead := v, freeCount := k } :=
  { hi with
    scanning := fun hp => { hi.scanning hp with }
    decoding := fun hp => { hi.decoding hp with } }

/-- A read of STATUS with DONE = 1 finds no command running. -/
theorem observe (hi : s.Inv) (o : Nat) : (s.observe o).Inv :=
  { hi with
    guarded := fun hb => by
      have hdone := (hi.status_legal.busy_alone hb).1
      simpa [hdone] using hi.guarded hb
    scanning := fun hp => { hi.scanning hp with }
    decoding := fun hp => { hi.decoding hp with } }

/-- The buffer registers change only while no command runs (R31). -/
theorem withRegs (hi : s.Inv) (hb : s.status.busy = false) (b : Buffers) : State.Inv { s with regs := b } :=
  { hi with
    latched := fun h => by cases hb.symm.trans h
    scanning := fun hp => { hi.scanning hp with }
    decoding := fun hp => { hi.decoding hp with } }

theorem writeReg (hi : s.Inv) (o : Nat) (v : Word) : (s.writeReg o v).Inv := by
  unfold State.writeReg
  split
  · exact hi
  · rename_i hb
    have hfree := Bool.eq_false_iff.mpr hb
    split
    · exact hi.withRegs hfree _
    · exact hi.withRegs hfree _
    · exact hi.withRegs hfree _
    · exact hi.withRegs hfree _
    · exact hi

/-- A host write takes no written byte away. -/
theorem withWrite (hi : s.Inv) (a : Nat) (b : Byte) : State.Inv { s with mem := s.mem.write a b } :=
  { hi with
    mem_wf := Memory.wf_write hi.mem_wf a b
    scanning := fun hp => { hi.scanning hp with }
    decoding := fun hp =>
      { hi.decoding hp with
        written := fun i hd => by
          have hw : (s.mem.read (s.dstAddr i)).isSome := (hi.decoding hp).written i hd
          show ((s.mem.write a b).read (s.dstAddr i)).isSome
          rw [Memory.read_write]
          split
          · rfl
          · exact hw } }

theorem assertReset (hi : s.Inv) : (assertReset s).Inv :=
  inv_of_idle (Memory.wf_writeBytes hi.mem_wf _ _) ⟨List.Pairwise.nil, by simp [Machine.assertReset, State.reset]⟩ rfl rfl
    Status.zero_legal (fun _ => rfl)

end State.Inv

theorem StepTo.inv {s t : State} (h : StepTo s t) (hi : s.Inv) : t.Inv := by
  have hrest (rest : List HostAction) : State.Inv { s with host := rest } := hi.withHost rest s.hostRead s.freeCount
  cases h with
  | engine _ h => exact h.inv hi
  | letEngine rest _ h => exact h.inv (hrest rest)
  | pollBusy rest _ _ h => exact h.inv (((hrest rest).observe 0x28).withHost _ _ s.freeCount)
  | pollFree rest => exact (hrest rest).observe 0x28
  | regRead rest _ _ o => exact (hrest rest).observe o
  | command rest _ _ h => exact h.inv (hrest rest)
  | regWrite rest _ _ o v => exact (hrest rest).writeReg o v
  | memReadFree rest => exact hi.withHost rest _ _
  | memRead rest => exact hi.withHost rest _ s.freeCount
  | memWrite rest a b => exact (hrest rest).withWrite a b
  | reset rest => exact (hrest rest).assertReset

/-- Settles O3, from every way a step answers a next state. -/
theorem stepKeepsInvariant : Obligations.StepKeepsInvariant := fun _ _ hi h => (stepTo_of_next h).inv hi

end Sys2Proof.Machine

namespace Sys2Proof

/-! ### The command code (R23, R84) -/

theorem extractLsb'_byte_eq_iff (w : Word) (c : Byte) : w.extractLsb' 0 8 = c ↔ w.toNat % 256 = c.toNat := by
  rw [← BitVec.toNat_inj, BitVec.extractLsb'_toNat, Nat.shiftRight_zero]

theorem extractLsb'_byte_eq_ofNat (w : Word) : w.extractLsb' 0 8 = BitVec.ofNat 8 w.toNat := by
  apply BitVec.eq_of_toNat_eq
  rw [BitVec.extractLsb'_toNat, Nat.shiftRight_zero, BitVec.toNat_ofNat]

/-- Settles O9, by the low byte's value. -/
theorem commandCodeIsLowByte : Obligations.CommandCodeIsLowByte := by
  intro w
  have h1 := extractLsb'_byte_eq_iff w 0x01#8
  have h2 := extractLsb'_byte_eq_iff w 0x02#8
  simp only [decodeCommand, h1, h2]
  rw [extractLsb'_byte_eq_ofNat]
  rfl

end Sys2Proof

namespace Sys2Proof.Machine

/-! ### The word of STATUS (R28, R182, R183) -/

theorem toNat_append_eq_add {n m : Nat} (x : BitVec n) (y : BitVec m) : (x ++ y).toNat = x.toNat * 2 ^ m + y.toNat := by
  rw [BitVec.toNat_append, ← Nat.shiftLeft_add_eq_or_of_lt y.isLt, Nat.shiftLeft_eq]

theorem Status.word_toNat (st : Status) :
    st.word.toNat = st.busy.toNat + 2 * st.done.toNat + 4 * st.err.toNat + 16 * st.kind.toNat + 256 * st.detail.toNat := by
  simp only [Status.word, toNat_append_eq_add, BitVec.toNat_ofBool, BitVec.toNat_ofNat]
  omega

/-- Settles O36, from the fields' places in the word; the fourteen words are its values. -/
theorem statusWordHoldsItsFields : Obligations.StatusWordHoldsItsFields :=
  ⟨Status.word_toNat, by decide⟩

/-- Settles O57, from the legal combinations of STATUS: without an error the fields are 0, with one they are a cause's. -/
theorem errorKindsAreCoded : Obligations.ErrorKindsAreCoded := by
  refine ⟨rfl, rfl, rfl, rfl, fun s hi => ?_⟩
  cases he : s.status.err with
  | false =>
    obtain ⟨hk, hd⟩ := hi.status_legal.no_err he
    rw [hk, hd]; decide
  | true =>
    obtain ⟨e, hk, hd⟩ := hi.status_legal.err_code he
    rw [hk, hd]; cases e <;> decide

/-! ### Starting a command (R122 to R125, R150 to R152, R181) -/

theorem Status.started_word : Status.started.word = 1 := by decide

theorem Memory.Holds.readBytes {m : Memory} {a : Nat} {bs : List Byte} (h : m.Holds a bs) :
    m.readBytes a bs.length = some bs := Memory.readBytes_eq_some.mpr ⟨rfl, h⟩

theorem Memory.holds_writeBytes (m : Memory) (a : Nat) (bs : List Byte) : (m.writeBytes a bs).Holds a bs :=
  fun _ h => Memory.read_writeBytes_inside h m

/-- A DECOMPRESS with a readable header whose length fits makes ready for its elements. -/
theorem execDecompress_ready {s : State} {hd : List Byte} (hs : s.MayStart) (hl : 8 ≤ s.regs.srcLen.toNat)
    (h8 : hd.length = 8) (hm : s.mem.Holds s.regs.srcAddr.toNat hd) (hn : le hd ≤ s.regs.dstCap.toNat) :
    execDecompress s = .next (s.decodeReady (le hd)) := by
  have hread : s.mem.readBytes s.regs.srcAddr.toNat 8 = some hd := h8 ▸ hm.readBytes
  rcases execDecompress_cases hs.free with ⟨r, hv, -⟩ | ⟨-, ⟨hlt, -⟩ | ⟨-, ⟨hnone, -⟩ | ⟨hd', hsome, h⟩⟩⟩
  · cases hs.legal.symm.trans hv
  · omega
  · cases hread.symm.trans hnone
  · cases hread.symm.trans hsome
    exact h.elim (fun h => absurd h.1 (Nat.not_lt.mpr hn)) And.right

/-- Settles O21, from the state in which a DECOMPRESS begins its elements. -/
theorem decompressStartsElementLoop : Obligations.DecompressStartsElementLoop := fun s hd hs hl h8 hm hn =>
  ⟨s.decodeReady (le hd), execDecompress_ready hs hl h8 hm hn, Status.started_word, rfl, rfl, rfl, rfl, rfl, rfl⟩

/-- A COMPRESS whose lengths are accepted goes on to its body (R121). -/
theorem execCompress_accepted {s : State} (hs : s.MayStart) (hmax : s.regs.srcLen.toNat ≤ s.cfg.maxSrcLen)
    (hc : maxCompressedLen s.regs.srcLen.toNat ≤ s.regs.dstCap.toNat) :
    execCompress s = compressBody (s.begin .compressing) := by
  rcases execCompress_cases hs.free with ⟨r, hv, -⟩ | ⟨-, ⟨hlt, -⟩ | ⟨-, hlt, -⟩ | ⟨-, -, h⟩⟩
  · cases hs.legal.symm.trans hv
  · omega
  · omega
  · exact h

/-- The state in which a COMPRESS started in `s` begins to scan. -/
def State.scanStart (s : State) : State := ((s.begin .compressing).emitted (leBytes 8 s.regs.srcLen.toNat)).scanReady

theorem execCompress_scan {s : State} (hs : s.MayStart) (hl : 4 < s.regs.srcLen.toNat)
    (hmax : s.regs.srcLen.toNat ≤ s.cfg.maxSrcLen) (hc : maxCompressedLen s.regs.srcLen.toNat ≤ s.regs.dstCap.toNat) :
    execCompress s = .next s.scanStart := by
  rw [execCompress_accepted hs hmax hc, compressBody_eq rfl]
  exact if_neg (Nat.not_le.mpr hl)

/-- Settles O24, from the state in which a COMPRESS begins to scan. -/
theorem compressStartsScan : Obligations.CompressStartsScan := by
  intro s hs hl hmax hc
  have hlen : (leBytes 8 s.regs.srcLen.toNat).length = 8 := leBytes_length 8 _
  have hle : le (leBytes 8 s.regs.srcLen.toNat) = s.regs.srcLen.toNat := by
    rw [le_leBytes]; exact Nat.mod_eq_of_lt s.regs.srcLen.isLt
  have hheader : s.scanStart.mem.Holds s.regs.dstAddr.toNat (leBytes 8 s.regs.srcLen.toNat) := Memory.holds_writeBytes _ _ _
  have houtside : s.scanStart.mem.SameOutside s.mem s.regs.dstAddr.toNat 8 := fun x hx =>
    Memory.read_writeBytes_outside (a := s.regs.dstAddr.toNat) (by omega) _
  exact ⟨s.scanStart, _, execCompress_scan hs hl hmax hc, hlen, hle, hheader, houtside, rfl, Table.get_clear _ _, rfl,
    Status.started_word, rfl, rfl, rfl, rfl, rfl⟩

/-! ### The register block (R22 to R31, R54 (c), R201, R218) -/

/-- A host read of the register at an offset of the block. -/
theorem step_regRead {s : State} {rest : List HostAction} {k : Nat} (hk : k < 8)
    (h : s.host = .regRead (s.cfg.regBase + 8 * k) 8 :: rest) :
    step s = .next (State.observe { s with host := rest } (8 * k)) := by
  rw [step_of_cons h]
  simp only [hostMove, hostRegRead, accessViolation_none hk, Nat.add_sub_cancel_left]
  rfl

/-- Settles O11: offset 0 of the block is CMD. -/
theorem stepRunsCommandWritten : Obligations.StepRunsCommandWritten := by
  intro s rest w h
  have hcmd := accessViolation_none (p := s.cfg) (k := 0) (by omega)
  rw [step_of_cons h]
  simp only [Nat.mul_zero, Nat.add_zero] at hcmd
  simp only [hostMove, hostRegWrite, hcmd, if_true]
  rfl

/-- A host write of the register at an offset of the block other than CMD's. -/
theorem step_regWrite {s : State} {rest : List HostAction} {k : Nat} {v : Word} (hk : k < 8) (h0 : k ≠ 0)
    (h : s.host = .regWrite (s.cfg.regBase + 8 * k) 8 v :: rest) :
    step s = .next (State.writeReg { s with host := rest } (8 * k) v) := by
  rw [step_of_cons h]
  simp only [hostMove, hostRegWrite, accessViolation_none hk, Nat.add_sub_cancel_left]
  rw [if_neg (by omega)]
  rfl

theorem State.writeReg_busy {s : State} (hb : s.status.busy = true) (o : Nat) (v : Word) : s.writeReg o v = s := by
  simp [State.writeReg, hb]

/-- Settles O38: at CMD by R201, at the other offsets by R31. -/
theorem registerWritesIgnoredWhileBusy : Obligations.RegisterWritesIgnoredWhileBusy := by
  intro s rest k w hb hk h
  by_cases h0 : k = 0
  · subst h0
    rw [stepRunsCommandWritten s rest w h]
    exact exec_command_busy (s := { s with host := rest }) hb w
  · rw [step_regWrite hk h0 h]
    exact congrArg _ (State.writeReg_busy (s := { s with host := rest }) hb _ _)

theorem State.writeReg_readOnly {s : State} {o : Nat} (h : o = 0x28 ∨ o = 0x30 ∨ o = 0x38) (v : Word) :
    s.writeReg o v = s := by
  unfold State.writeReg
  rcases h with rfl | rfl | rfl <;> exact ite_self s

/-- Settles O43, offset by offset. -/
theorem otherRegistersReadOnly : Obligations.OtherRegistersReadOnly := by
  constructor
  · intro s rest off v hv h
    obtain ⟨hk, hlt⟩ : off = 8 * (off / 8) ∧ off / 8 < 8 := by omega
    rw [hk] at h
    refine ⟨_, step_regRead hlt h, ?_, rfl⟩
    rw [← hk, State.observe_hostRead]
    rcases hv with ⟨rfl, rfl⟩ | ⟨rfl, rfl⟩ | ⟨rfl, rfl⟩ | ⟨rfl, rfl⟩ <;> rfl
  · intro s rest off v hoff h
    obtain ⟨hk, hlt⟩ : off = 8 * (off / 8) ∧ off / 8 < 8 := by omega
    rw [hk] at h
    rw [step_regWrite hlt (by omega) h, ← hk, State.writeReg_readOnly hoff]

/-- An access inside the block of another width or misaligned is refused (R30). -/
theorem accessViolation_odd {p : Config.Params} {off bytes : Nat} (hoff : off < 0x40) (hodd : bytes ≠ 8 ∨ off % 8 ≠ 0) :
    accessViolation p (p.regBase + off) bytes = some .badRegisterAccess := by
  unfold accessViolation
  rw [if_neg (by omega), if_pos (by rwa [Nat.add_sub_cancel_left])]

/-- Settles O44, for a read and for a write. -/
theorem oddRegisterAccessRefused : Obligations.OddRegisterAccessRefused := by
  intro s rest off bytes v hoff hodd h
  have hbad := accessViolation_odd (p := s.cfg) hoff hodd
  rcases h with h | h
  · rw [step_of_cons h]; simp only [hostMove, hostRegRead, hbad]; rfl
  · rw [step_of_cons h]; simp only [hostMove, hostRegWrite, hbad]; rfl

/-- A buffer register holds what was written to it while no command runs; the other offsets of the block read as before, and
nothing but the registers changes (R24 to R27). -/
theorem State.writeReg_buffer {s : State} {o : Nat} (hb : s.status.busy = false)
    (ho : o = 0x08 ∨ o = 0x10 ∨ o = 0x18 ∨ o = 0x20) (v : Word) :
    ∃ b, s.writeReg o v = { s with regs := b } ∧ (s.writeReg o v).readReg o = v ∧
      ∀ o', o' ≠ o → (s.writeReg o v).readReg o' = s.readReg o' := by
  unfold State.writeReg
  rw [hb]
  rcases ho with rfl | rfl | rfl | rfl
  all_goals
    refine ⟨_, rfl, rfl, fun o' ho' => ?_⟩
    unfold State.readReg
    split <;> simp_all

/-- Settles O42, by the write's step and the read's. -/
theorem bufferRegisterReadsBack : Obligations.BufferRegisterReadsBack := by
  intro s rest off v hb hoff h
  obtain ⟨b, hw, hself, hother⟩ := State.writeReg_buffer
    (s := { s with host := .regRead (s.cfg.regBase + off) 8 :: rest }) hb hoff v
  obtain ⟨hk, hlt⟩ : off = 8 * (off / 8) ∧ off / 8 < 8 := by omega
  rw [hw] at hself hother
  have hwrite : step s = .next { s with host := .regRead (s.cfg.regBase + off) 8 :: rest, regs := b } := by
    rw [hk] at h
    rw [step_regWrite hlt (by omega) h, ← hk, hw]
  have hread : step { s with host := .regRead (s.cfg.regBase + off) 8 :: rest, regs := b } =
      .next (State.observe { s with host := rest, regs := b } off) := by
    conv_rhs => rw [hk]
    exact step_regRead hlt (by rw [← hk])
  refine ⟨State.observe { s with host := rest, regs := b } off, ?_, hself, rfl, hother, ?_⟩
  · rw [State.run_succ hwrite, State.run_succ hread]; rfl
  · simp [State.observe, show off ≠ 0x28 by omega]

/-! ### Between commands (R32, R187) -/

theorem EngineStep.eq_of_idle {s t : State} (h : EngineStep s t) (hp : s.phase = .idle) : t = s := by
  cases h with
  | idle => rfl
  | _ => simp_all

theorem State.writeReg_status (s : State) (o : Nat) (v : Word) :
    (s.writeReg o v).status = s.status ∧ (s.writeReg o v).resultLen = s.resultLen ∧ (s.writeReg o v).phase = s.phase := by
  unfold State.writeReg
  split
  · exact ⟨rfl, rfl, rfl⟩
  · split <;> exact ⟨rfl, rfl, rfl⟩

/-- Settles O40, from every way a step answers a next state. -/
theorem statusKeptBetweenCommands : Obligations.StatusKeptBetweenCommands := by
  intro s t hp hb hcmd hreset h
  cases stepTo_of_next h with
  | engine _ h => rw [h.eq_of_idle hp]; exact ⟨rfl, rfl, hp⟩
  | letEngine rest _ h => rw [h.eq_of_idle hp]; exact ⟨rfl, rfl, hp⟩
  | pollBusy rest _ hbusy => cases hb.symm.trans hbusy
  | pollFree | regRead | memReadFree | memRead | memWrite => exact ⟨rfl, rfl, hp⟩
  | command rest w hh => exact absurd hh (hcmd rest w)
  | regWrite rest a n o v =>
    obtain ⟨h1, h2, h3⟩ := State.writeReg_status { s with host := rest } o v
    exact ⟨h1, h2, h3.trans hp⟩
  | reset rest hh => exact absurd hh (hreset rest)

end Sys2Proof.Machine

namespace Sys2Proof.Machine

/-! ### The match-finder over two sources that agree (R126 to R132)

Each of its reads stays below the source's length, so two sources with the same bytes there give the same answers. -/

section Agree

variable {src src' : Nat → Option Byte} {n : Nat} (h : ∀ i < n, src i = src' i)
include h

theorem sourceRun_agree {lo len : Nat} (hn : lo + len ≤ n) : sourceRun src lo len = sourceRun src' lo len :=
  sourceRun_congr fun i hi => h (lo + i) (by omega)

theorem hashAt_agree {p : Nat} (hn : p + 4 ≤ n) (shift : Nat) : hashAt src shift p = hashAt src' shift p := by
  rw [hashAt, hashAt, hashWord, hashWord, Config.minMatch, sourceRun_agree h hn]

theorem matchTest_agree {v p : Nat} (hv : v ≤ p) (hn : p + 4 ≤ n) : matchTest src v p = matchTest src' v p := by
  rw [matchTest, matchTest, Config.minMatch, sourceRun_agree h hn, sourceRun_agree h (show v - 1 + 4 ≤ n by omega)]

theorem extendMatch_agree {fuel p t : Nat} (ht : t ≤ p) (hn : p + fuel ≤ n) :
    extendMatch src fuel p t = extendMatch src' fuel p t := by
  induction fuel generalizing p t with
  | zero => rfl
  | succ fuel ih =>
    rw [extendMatch, extendMatch, h p (by omega), h t (by omega), ih (p := p + 1) (t := t + 1) (by omega) (by omega)]

end Agree

theorem hashAt_isSome {src : Nat → Option Byte} {p : Nat} (h : ∀ i < 4, (src (p + i)).isSome) (shift : Nat) :
    ∃ w, hashAt src shift p = some (hashIndex shift w) := by
  obtain ⟨bs, hbs⟩ := sourceRun_isSome h
  exact ⟨BitVec.ofNat 32 (le bs), by rw [hashAt, hashWord, Config.minMatch, hbs]; rfl⟩

theorem matchTest_isSome {src : Nat → Option Byte} {v p : Nat} (hx : ∀ i < 4, (src (v - 1 + i)).isSome)
    (hy : ∀ i < 4, (src (p + i)).isSome) : ∃ b, matchTest src v p = some b := by
  obtain ⟨x, hx⟩ := sourceRun_isSome hx
  obtain ⟨y, hy⟩ := sourceRun_isSome hy
  rw [matchTest, Config.minMatch, hx, hy]
  split
  · exact ⟨false, rfl⟩
  · split
    · exact ⟨false, rfl⟩
    · exact ⟨_, rfl⟩

/-! ### The hash indexes the table (R124, R127) -/

/-- Every doubling of the size is a halving of the weight of the shift (R124). -/
theorem tableParamsFrom_mul {fuel size shift : Nat} (len : Nat) (h : fuel ≤ shift) :
    (tableParamsFrom fuel size shift len).1 * 2 ^ (tableParamsFrom fuel size shift len).2 = size * 2 ^ shift := by
  induction fuel generalizing size shift with
  | zero => rfl
  | succ fuel ih =>
    rw [tableParamsFrom]
    split
    · obtain ⟨k, rfl⟩ : ∃ k, shift = k + 1 := ⟨shift - 1, by omega⟩
      rw [Nat.add_sub_cancel, ih (by omega), Nat.pow_succ]
      ring
    · rfl

theorem hashIndex_lt_tableSize (len : Nat) (w : BitVec 32) :
    hashIndex (tableParams len).2 w < (tableParams len).1 := by
  have hmul : (tableParams len).1 * 2 ^ (tableParams len).2 = 2 ^ 32 := tableParamsFrom_mul len (by omega)
  rw [hashIndex, Nat.shiftRight_eq_div_pow]
  exact Nat.div_lt_of_lt_mul (by rw [Nat.mul_comm, hmul]; exact (w * Config.hashMul).isLt)

/-! ### The block of a source (R137)

COMPRESS as a function of the source bytes alone: the scan without the machine's memory, addresses, capacity and old table
entries. -/

/-- What a scan goes on from: the cursors that matter, the table it sees, and the bytes written so far. -/
structure Scan where
  pos : Nat
  lit : Nat
  table : Nat → Nat
  out : List Byte

/-- The scan after a COMPRESS of `x` has written the header and cleared its table (R122, R124, R125). -/
def Scan.start (x : List Byte) : Scan := { pos := 0, lit := 0, table := fun _ => 0, out := leBytes 8 x.length }

/-- The scan after a miss at the slot `h` (R128, R130). -/
def Scan.miss (σ : Scan) (h : Nat) : Scan :=
  { σ with pos := σ.pos + 1, table := Function.update σ.table h (σ.pos + 1) }

/-- The scan after a hit at the slot `h` whose match ends at `e` (R128, R131 to R133). -/
def Scan.hit (σ : Scan) (h : Nat) (run : List Byte) (e : Nat) : Scan where
  pos := e
  lit := e
  table := Function.update σ.table h (σ.pos + 1)
  out := σ.out ++ hitBytes run (σ.pos - (σ.table h - 1)) (e - σ.pos)

/-- One turn over the source `x` (R126 to R133). -/
def Scan.turn (x : List Byte) (σ : Scan) : Option Scan :=
  (hashAt (x[·]?) (tableParams x.length).2 σ.pos).bind fun h =>
    (matchTest (x[·]?) (σ.table h) σ.pos).bind fun matched =>
      if matched then
        (sourceRun (x[·]?) σ.lit (σ.pos - σ.lit)).bind fun run =>
          (extendMatch (x[·]?) (x.length - (σ.pos + 4)) (σ.pos + 4) (σ.table h - 1 + 4)).map (σ.hit h run)
      else some (σ.miss h)

/-- The block after the last pending run (R135). -/
def Scan.flush (x : List Byte) (σ : Scan) : Option (List Byte) :=
  (sourceRun (x[·]?) σ.lit (x.length - σ.lit)).map fun run => σ.out ++ runBytes run

/-- The block the scan ends with, `fuel` bounding its turns (R134). -/
def Scan.block (x : List Byte) : Nat → Scan → Option (List Byte)
  | 0, σ => σ.flush x
  | fuel + 1, σ => if σ.pos + 3 < x.length then (σ.turn x).bind (Scan.block x fuel) else σ.flush x

/-- The block of the source `x`: a source of at most four bytes is one literal after the header (R123). -/
def compressedBlock (x : List Byte) : Option (List Byte) :=
  if x.length ≤ 4 then some (leBytes 8 x.length ++ runBytes x) else (Scan.start x).block x x.length

theorem Scan.turn_miss {x : List Byte} {σ : Scan} {h : Nat} (hh : hashAt (x[·]?) (tableParams x.length).2 σ.pos = some h)
    (hm : matchTest (x[·]?) (σ.table h) σ.pos = some false) : σ.turn x = some (σ.miss h) := by
  rw [turn, hh, Option.bind_some, hm]; rfl

theorem Scan.turn_hit {x : List Byte} {σ : Scan} {h e : Nat} {run : List Byte}
    (hh : hashAt (x[·]?) (tableParams x.length).2 σ.pos = some h)
    (hm : matchTest (x[·]?) (σ.table h) σ.pos = some true)
    (hr : sourceRun (x[·]?) σ.lit (σ.pos - σ.lit) = some run)
    (he : extendMatch (x[·]?) (x.length - (σ.pos + 4)) (σ.pos + 4) (σ.table h - 1 + 4) = some e) :
    σ.turn x = some (σ.hit h run e) := by
  rw [turn, hh, Option.bind_some, hm, Option.bind_some, hr, he]; rfl

/-! ### The windows of a running command (R54 (b)) -/

theorem Buffers.not_meet_of_legal {b : Buffers} {p : Config.Params} (h : b.violation p = none) :
    ¬ (0 < b.srcLen.toNat ∧ 0 < b.dstCap.toNat ∧ b.srcAddr.toNat < b.dstAddr.toNat + b.dstCap.toNat ∧
      b.dstAddr.toNat < b.srcAddr.toNat + b.srcLen.toNat) := by
  intro hmeet
  unfold Buffers.violation at h
  split at h
  · cases h
  · rw [if_pos (by simpa [windowsMeet, and_assoc] using hmeet)] at h
    cases h

/-- Bytes written inside the destination window leave the source as it was. -/
theorem Memory.Holds.writeBytes_dst {m : Memory} {b : Buffers} {p : Config.Params} {x : List Byte}
    (h : m.Holds b.srcAddr.toNat x) (hv : b.violation p = none) (hx : b.srcLen.toNat = x.length) {off : Nat} {bs : List Byte}
    (hb : off + bs.length ≤ b.dstCap.toNat) : (m.writeBytes (b.dstAddr.toNat + off) bs).Holds b.srcAddr.toNat x := by
  intro i hi
  have hmeet := Buffers.not_meet_of_legal hv
  rw [Memory.read_writeBytes_outside (by omega), h i hi]

/-- Bytes written after those held are held with them. -/
theorem Memory.Holds.append {m : Memory} {a : Nat} {xs : List Byte} (h : m.Holds a xs) (ys : List Byte) :
    (m.writeBytes (a + xs.length) ys).Holds a (xs ++ ys) := by
  intro i hi
  by_cases hx : i < xs.length
  · rw [Memory.read_writeBytes_outside (by omega), h i hx, List.getElem_append_left hx]
  · rw [List.length_append] at hi
    obtain ⟨j, rfl⟩ : ∃ j, i = xs.length + j := ⟨i - xs.length, by omega⟩
    rw [← Nat.add_assoc, Memory.read_writeBytes_inside (by omega), List.getElem_append_right (by omega)]
    simp

/-! ### A scanning machine and its scan -/

/-- The machine `s` stands where the scan `σ` of the source `x` does. -/
structure State.Follows (s : State) (x : List Byte) (σ : Scan) : Prop where
  inv : s.Inv
  legal : s.cfg.Legal
  host : s.host = []
  phase : s.phase = .compressing
  len : s.srcLen = x.length
  source : s.mem.Holds s.latch.srcAddr.toNat x
  pos : s.comp.s = σ.pos
  lit : s.comp.lit = σ.lit
  table : ∀ h < s.tableSize, s.table.get h = σ.table h
  written : s.comp.d = σ.out.length
  out : s.mem.Holds s.latch.dstAddr.toNat σ.out

/-- The block stands at `a`, and the command has reported success with its length (R136, R186). -/
structure State.Delivers (t : State) (a : Nat) (block : List Byte) : Prop where
  word : t.status.word = 2
  result : t.resultLen = BitVec.ofNat 64 block.length
  holds : t.mem.Holds a block

theorem step_scan {s : State} (hh : s.host = []) (hp : s.phase = .compressing) (hs : s.comp.s + 3 < s.srcLen) :
    step s = scanTurn s := by
  rw [step_of_nil hh, engineMove_compressing hp, ← compressStep_scan hs]; rfl

theorem step_flush {s : State} (hh : s.host = []) (hp : s.phase = .compressing) (hs : s.srcLen ≤ s.comp.s + 3) :
    step s = finalFlush s := by
  rw [step_of_nil hh, engineMove_compressing hp, ← compressStep_flush hs]; rfl

theorem scanTurn_miss {s : State} {h : Nat} (hh : hashAt s.src s.shift s.comp.s = some h)
    (hm : matchTest s.src (s.table.get h) s.comp.s = some false) : scanTurn s = .next (scanMiss (s.entered h)) := by
  simp only [scanTurn, hh, hm]; rfl

theorem scanTurn_hit {s : State} {h e : Nat} {run : List Byte} (hh : hashAt s.src s.shift s.comp.s = some h)
    (hm : matchTest s.src (s.table.get h) s.comp.s = some true)
    (hr : sourceRun s.src s.comp.lit (s.comp.s - s.comp.lit) = some run)
    (he : extendMatch s.src (s.srcLen - (s.comp.s + 4)) (s.comp.s + 4) (s.table.get h - 1 + 4) = some e)
    (hl : run.length ≤ 2 ^ 32)
    (hd : s.comp.d + (hitBytes run (s.comp.s - (s.table.get h - 1)) (e - s.comp.s)).length ≤ maxCompressedLen s.srcLen) :
    scanTurn s = .next ((s.entered h).afterHit run (s.table.get h - 1) e) := by
  have hok : scanHit run (s.table.get h - 1) e (s.entered h) = .ok ((s.entered h).afterHit run (s.table.get h - 1) e) :=
    scanHit_ok hl hd
  simp only [scanTurn, hh, hm, hr, he]
  exact congrArg (settle (s.entered h)) hok

/-- The final flush of a run that fits delivers what was written and the run (R135, R136). -/
theorem finalFlush_delivers {s : State} {run out : List Byte} (hs : s.status = Status.started)
    (hr : sourceRun s.src s.comp.lit (s.srcLen - s.comp.lit) = some run) (hl : run.length ≤ 2 ^ 32)
    (hd : s.comp.d = out.length) (hm : s.mem.Holds s.latch.dstAddr.toNat out)
    (hb : out.length + (runBytes run).length ≤ maxCompressedLen s.srcLen) :
    ∃ t, finalFlush s = .next t ∧ t.phase = .idle ∧ t.Delivers s.latch.dstAddr.toNat (out ++ runBytes run) := by
  rcases finalFlush_cases s with ⟨hnone, -⟩ | ⟨run', hr', h⟩
  · cases hr.symm.trans hnone
  · cases hr.symm.trans hr'
    rcases h with ⟨-, h⟩ | ⟨hlong, -⟩ | ⟨hover, -⟩
    · refine ⟨_, h, rfl, ?_, ?_, ?_⟩
      · rw [State.completed_status, show (s.emitted (runBytes run)).status = s.status from rfl, hs]; decide
      · rw [State.completed_resultLen, List.length_append, hd]
      · have := hm.append (runBytes run)
        rwa [← hd] at this
    · omega
    · omega

theorem State.RestsIn.of_step {s t u : State} {k : Nat} (h : step s = .next t) (hr : t.RestsIn k u) :
    s.RestsIn (k + 1) u := by
  obtain ⟨j, hj, hrun, hidle⟩ := hr
  exact ⟨j + 1, by omega, (State.run_succ h j).trans hrun, hidle⟩

theorem State.RestsIn.of_idle {s : State} (h : s.phase = .idle) (k : Nat) : s.RestsIn k s := ⟨0, Nat.zero_le k, rfl, h⟩

namespace State.Follows

variable {s : State} {x : List Byte} {σ : Scan}

theorem src_eq (hf : s.Follows x σ) : ∀ i < x.length, s.src i = x[i]? := fun i hi =>
  (hf.source i hi).trans (List.getElem?_eq_getElem hi).symm

theorem src_isSome (hf : s.Follows x σ) {i : Nat} (hi : i < x.length) : (s.src i).isSome := by
  rw [hf.src_eq i hi, List.getElem?_eq_getElem hi]; rfl

theorem scanning (hf : s.Follows x σ) : s.Scanning := hf.inv.scanning hf.phase

theorem shift_eq (hf : s.Follows x σ) : s.shift = (tableParams x.length).2 := by
  rw [← hf.len, ← hf.scanning.params]

theorem tableSize_eq (hf : s.Follows x σ) : s.tableSize = (tableParams x.length).1 := by
  rw [← hf.len, ← hf.scanning.params]

theorem length_le (hf : s.Follows x σ) : x.length ≤ 2 ^ 32 := by
  have hlegal : s.cfg.maxSrcLen ≤ 2 ^ 31 - 2 := hf.legal
  have := hf.scanning.accepted
  have := hf.len
  omega

theorem table_entered (hf : s.Follows x σ) (h : Nat) :
    ∀ g < s.tableSize, (s.entered h).table.get g = Function.update σ.table h (σ.pos + 1) g := by
  intro g hg
  by_cases hgh : g = h
  · subst hgh
    rw [Function.update_self, ← hf.pos]
    exact Table.get_put_self s.table g s.comp.s
  · rw [Function.update_of_ne hgh, ← hf.table g hg]
    exact Table.get_put_ne hgh s.table s.comp.s

theorem miss (hf : s.Follows x σ) (hs : s.comp.s + 3 < s.srcLen) (h : Nat) :
    (scanMiss (s.entered h)).Follows x (σ.miss h) :=
  { hf with
    inv := hf.inv.scanMiss_entered hf.phase hs h
    pos := congrArg (· + 1) hf.pos
    table := hf.table_entered h }

/-- What a hit writes fits (R138). -/
theorem hit_fits (hf : s.Follows x σ) {run : List Byte} {e : Nat} (offset : Nat)
    (hr : run.length = s.comp.s - s.comp.lit) (h4 : s.comp.s + 4 ≤ e) (he : e ≤ s.srcLen) :
    s.comp.d + (hitBytes run offset (e - s.comp.s)).length ≤ maxCompressedLen s.srcLen := by
  have hlit := hf.scanning.lit_le
  have hbound := hitBytes_bound (offset := offset) (run := run) (len := e - s.comp.s) (e := e) hf.scanning.bound
    (by omega) (by omega)
  rw [maxCompressedLen]
  omega

theorem hit (hf : s.Follows x σ) {h e : Nat} {run : List Byte} (hh : h < s.tableSize)
    (hr : run.length = s.comp.s - s.comp.lit) (h4 : s.comp.s + 4 ≤ e) (he : e ≤ s.srcLen) :
    ((s.entered h).afterHit run (s.table.get h - 1) e).Follows x (σ.hit h run e) := by
  have hbytes : hitBytes run (s.comp.s - (s.table.get h - 1)) (e - s.comp.s) =
      hitBytes run (σ.pos - (σ.table h - 1)) (e - σ.pos) := by rw [hf.pos, hf.table h hh]
  have hfits := (hf.hit_fits (s.comp.s - (s.table.get h - 1)) hr h4 he).trans hf.scanning.room
  have hbusy := hf.inv.busy_of_phase (by simp [hf.phase])
  exact
    { hf with
      inv := hf.inv.afterHit_entered hf.phase h _ hr h4 he
      source := hf.source.writeBytes_dst (hf.inv.windows hbusy) hf.len hfits
      pos := rfl
      lit := rfl
      table := hf.table_entered h
      written := by
        show s.comp.d + (hitBytes run (s.comp.s - (s.table.get h - 1)) (e - s.comp.s)).length = _
        rw [hbytes, hf.written]
        exact List.length_append.symm
      out := by
        show Memory.Holds (s.mem.writeBytes (s.dstAddr s.comp.d)
          (hitBytes run (s.comp.s - (s.table.get h - 1)) (e - s.comp.s))) _ _
        rw [hbytes, hf.written]
        exact hf.out.append _ }

/-- A turn of the machine is a turn of its scan. -/
theorem turn (hf : s.Follows x σ) (hs : σ.pos + 3 < x.length) :
    ∃ σ' t, σ.turn x = some σ' ∧ step s = .next t ∧ t.Follows x σ' ∧ σ.pos < σ'.pos ∧ t.latch = s.latch := by
  have hpos := hf.pos
  have hlen := hf.len
  have hlit := hf.scanning.lit_le
  obtain ⟨w, hh⟩ := hashAt_isSome (fun i hi => hf.src_isSome (i := s.comp.s + i) (by omega)) s.shift
  have hlt : hashIndex s.shift w < s.tableSize := by
    rw [hf.shift_eq, hf.tableSize_eq]; exact hashIndex_lt_tableSize x.length w
  generalize hashIndex s.shift w = h at hh hlt
  have hv := hf.scanning.scanned h hlt
  obtain ⟨b, hm⟩ := matchTest_isSome (v := s.table.get h) (fun i hi => hf.src_isSome (by omega))
    (fun i hi => hf.src_isSome (i := s.comp.s + i) (by omega))
  have hh' : hashAt (x[·]?) (tableParams x.length).2 σ.pos = some h := by
    rw [← hf.pos, ← hf.shift_eq, ← hashAt_agree hf.src_eq (by omega), hh]
  have hm' : matchTest (x[·]?) (σ.table h) σ.pos = some b := by
    rw [← hf.pos, ← hf.table h hlt, ← matchTest_agree hf.src_eq hv (by omega), hm]
  have hstep := step_scan hf.host hf.phase (by omega)
  cases b with
  | false =>
    exact ⟨σ.miss h, _, Scan.turn_miss hh' hm', hstep.trans (scanTurn_miss hh hm), hf.miss (by omega) h,
      Nat.lt_succ_self _, rfl⟩
  | true =>
    obtain ⟨run, hr⟩ := sourceRun_isSome (lo := s.comp.lit) (n := s.comp.s - s.comp.lit)
      (fun i hi => hf.src_isSome (i := s.comp.lit + i) (by omega))
    obtain ⟨e, he⟩ := extendMatch_isSome (fuel := s.srcLen - (s.comp.s + 4)) (s := s.comp.s + 4) (t := s.table.get h - 1 + 4)
      (fun i hi => hf.src_isSome (by omega)) (fun i hi => hf.src_isSome (by omega))
    have hr' : sourceRun (x[·]?) σ.lit (σ.pos - σ.lit) = some run := by
      rw [← hf.pos, ← hf.lit, ← sourceRun_agree hf.src_eq (by omega), hr]
    have he' : extendMatch (x[·]?) (x.length - (σ.pos + 4)) (σ.pos + 4) (σ.table h - 1 + 4) = some e := by
      rw [← hf.pos, ← hf.len, ← hf.table h hlt, ← extendMatch_agree hf.src_eq (by omega) (by omega), he]
    have hrun := (sourceRun_eq_some.mp hr).1
    obtain ⟨h4, hend, -, -⟩ := extendMatch_eq_some he
    have hturn := scanTurn_hit hh hm hr he (by have := hf.length_le; omega) (hf.hit_fits _ hrun h4 (by omega))
    exact ⟨σ.hit h run e, _, Scan.turn_hit hh' hm' hr' he', hstep.trans hturn, hf.hit hlt hrun h4 (by omega),
      show σ.pos < e by omega, rfl⟩

/-- The end of the machine's scan is the end of its scan. -/
theorem flush (hf : s.Follows x σ) (hs : x.length ≤ σ.pos + 3) :
    ∃ block t, σ.flush x = some block ∧ step s = .next t ∧ t.phase = .idle ∧
      t.Delivers s.latch.dstAddr.toNat block := by
  have hpos := hf.pos
  have hlen := hf.len
  have hd := hf.written
  have hsc := hf.scanning
  obtain ⟨run, hr⟩ := sourceRun_isSome (lo := s.comp.lit) (n := s.srcLen - s.comp.lit)
    (fun i hi => hf.src_isSome (i := s.comp.lit + i) (by omega))
  have hrun := (sourceRun_eq_some.mp hr).1
  have hr' : sourceRun (x[·]?) σ.lit (x.length - σ.lit) = some run := by
    rw [← hf.lit, ← hf.len, ← sourceRun_agree hf.src_eq (by have := hsc.lit_le; have := hsc.s_le; omega), hr]
  have hsize := runBytes_length_bound run
  obtain ⟨t, ht, hidle, hdel⟩ := finalFlush_delivers (hf.inv.started_of_phase (by simp [hf.phase])) hr
    (by have := hf.length_le; omega) hf.written hf.out
    (by rw [maxCompressedLen]; have := hsc.bound; have := hsc.lit_le; have := hsc.s_le; omega)
  exact ⟨_, t, by rw [Scan.flush, hr']; rfl, (step_flush hf.host hf.phase (by omega)).trans ht, hidle, hdel⟩

/-- A scanning machine delivers the block of its scan, a step for each position left and one for the flush. -/
theorem delivers {fuel : Nat} (hf : s.Follows x σ) (hn : x.length ≤ σ.pos + fuel) :
    ∃ block t, σ.block x fuel = some block ∧ s.RestsIn (fuel + 1) t ∧ t.Delivers s.latch.dstAddr.toNat block := by
  induction fuel generalizing s σ with
  | zero =>
    obtain ⟨block, t, hb, ht, hidle, hdel⟩ := hf.flush (by omega)
    exact ⟨block, t, hb, .of_step ht (.of_idle hidle 0), hdel⟩
  | succ fuel ih =>
    rw [Scan.block]
    by_cases hs : σ.pos + 3 < x.length
    · obtain ⟨σ', u, hturn, hu, hfu, hlt, hlatch⟩ := hf.turn hs
      obtain ⟨block, t, hb, ht, hdel⟩ := ih hfu (by omega)
      rw [hlatch] at hdel
      exact ⟨block, t, by rw [if_pos hs, hturn, Option.bind_some, hb], .of_step hu ht, hdel⟩
    · obtain ⟨block, t, hb, ht, hidle, hdel⟩ := hf.flush (by omega)
      exact ⟨block, t, by rw [if_neg hs, hb], .of_step ht (.of_idle hidle _), hdel⟩

end State.Follows

/-! ### COMPRESS as a whole (R120 to R137) -/

section Compress

variable {s : State} {x : List Byte}

/-- A short source is delivered by the start itself (R123). -/
theorem execCompress_short (hs : s.MayStart) (hx : s.SourceIs x) (hl : x.length ≤ 4) (hmax : x.length ≤ s.cfg.maxSrcLen)
    (hc : maxCompressedLen x.length ≤ s.regs.dstCap.toNat) :
    ∃ t, execCompress s = .next t ∧ t.phase = .idle ∧
      t.Delivers s.regs.dstAddr.toNat (leBytes 8 x.length ++ runBytes x) := by
  obtain ⟨hlen, hsrc⟩ := hx
  rw [execCompress_accepted hs (by omega) (by rwa [hlen]), compressBody_eq rfl, State.begin_srcLen, hlen, if_pos hl]
  have hheader : (leBytes 8 x.length).length = 8 := leBytes_length 8 _
  have hcap : 32 + x.length + x.length / 6 ≤ s.regs.dstCap.toNat := hc
  have hkept : (s.mem.writeBytes (s.regs.dstAddr.toNat + 0) (leBytes 8 x.length)).Holds s.regs.srcAddr.toNat x :=
    hsrc.writeBytes_dst hs.legal hlen (by omega)
  have hsize := runBytes_length_bound x
  refine finalFlush_delivers (s := (s.begin .compressing).emitted (leBytes 8 x.length)) rfl
    (sourceRun_eq_some.mpr ⟨hlen.symm, fun i hi => ?_⟩) (by omega) ?_ (Memory.holds_writeBytes _ _ _) ?_
  · exact (congrArg (State.src _) (Nat.zero_add i)).trans (hkept i hi)
  · exact Nat.zero_add _
  · rw [State.emitted_srcLen, State.begin_srcLen, hlen, maxCompressedLen]; omega

/-- A COMPRESS of a longer source begins where the scan does. -/
theorem scanStart_follows (hi : s.Inv) (hs : s.MayStart) (hlegal : s.cfg.Legal) (hh : s.host = []) (hx : s.SourceIs x)
    (hl : 4 < x.length) (hmax : x.length ≤ s.cfg.maxSrcLen) (hc : maxCompressedLen x.length ≤ s.regs.dstCap.toNat) :
    s.scanStart.Follows x (Scan.start x) := by
  obtain ⟨hlen, hsrc⟩ := hx
  have hheader : (leBytes 8 x.length).length = 8 := leBytes_length 8 _
  have hcap : 32 + x.length + x.length / 6 ≤ s.regs.dstCap.toNat := hc
  unfold State.scanStart
  rw [← hlen] at hl hmax hc hheader
  exact
    { inv := hi.scanReady hs.legal hl hmax hc
      legal := hlegal
      host := hh
      phase := rfl
      len := hlen
      source := hsrc.writeBytes_dst (off := 0) hs.legal hlen (by omega)
      pos := rfl
      lit := rfl
      table := fun h hh => (Table.get_clear _ _ _).trans (if_pos hh)
      written := by rw [hlen]; exact Nat.zero_add _
      out := by rw [hlen]; exact Memory.holds_writeBytes _ _ _ }

/-- COMPRESS delivers the block of its source, which is a function of the source bytes alone. -/
theorem compress_delivers (hi : s.Inv) (hs : s.MayStart) (hlegal : s.cfg.Legal) (hh : s.host = []) (hx : s.SourceIs x)
    (hmax : x.length ≤ s.cfg.maxSrcLen) (hc : maxCompressedLen x.length ≤ s.regs.dstCap.toNat) :
    ∃ block u t, compressedBlock x = some block ∧ exec .compress s = .next u ∧ u.RestsIn (x.length + 1) t ∧
      t.Delivers s.regs.dstAddr.toNat block := by
  rw [compressedBlock]
  by_cases hl : x.length ≤ 4
  · obtain ⟨t, ht, hidle, hdel⟩ := execCompress_short hs hx hl hmax hc
    exact ⟨_, t, t, if_pos hl, ht, .of_idle hidle _, hdel⟩
  · have hf := scanStart_follows hi hs hlegal hh hx (by omega) hmax hc
    obtain ⟨block, t, hb, ht, hdel⟩ := hf.delivers (fuel := x.length) (by omega)
    have hexec := execCompress_scan hs (by have := hx.1; omega) (by rwa [hx.1]) (by rwa [hx.1])
    exact ⟨block, s.scanStart, t, by rw [if_neg hl, hb], hexec, ht, hdel⟩

end Compress

/-- Settles O54: both machines deliver the block of the source. -/
theorem compressDependsOnSourceAlone : Obligations.CompressDependsOnSourceAlone := by
  intro s1 s2 x h
  have hall : ∀ s, s = s1 ∨ s = s2 → ∃ block u t, compressedBlock x = some block ∧ exec .compress s = .next u ∧
      u.RestsIn (x.length + 1) t ∧ t.Delivers s.regs.dstAddr.toNat block := by
    intro s hs
    obtain ⟨hi, hstart, hlegal, hhost, hx, hmax, hc⟩ := h s hs
    exact compress_delivers hi hstart hlegal hhost hx hmax hc
  obtain ⟨block, -, -, hblock, -⟩ := hall s1 (.inl rfl)
  refine ⟨block, fun s hs => ?_⟩
  obtain ⟨block', u, t, hblock', hu, ht, hdel⟩ := hall s hs
  cases hblock.symm.trans hblock'
  exact ⟨u, t, hu, ht, hdel.word, hdel.result, hdel.holds⟩

end Sys2Proof.Machine

/-! PROOFS. The statements of spec 20_memory.md: what a command start asks of its windows (R54), what the host may do with
them and sees of them (R63, R214), and what the machine writes and reads (R51 to R53, R62, R66). -/

namespace Sys2Proof.Machine

/-! ### The windows by their addresses (R51, R52, R54) -/

theorem inWindow_eq_true {a addr len : Nat} : inWindow a addr len = true ↔ addr ≤ a ∧ a < addr + len := by
  simp [inWindow]

theorem Buffers.inSrc_eq_true {b : Buffers} {a : Nat} :
    b.inSrc a = true ↔ b.srcAddr.toNat ≤ a ∧ a < b.srcAddr.toNat + b.srcLen.toNat := inWindow_eq_true

theorem Buffers.inDst_eq_true {b : Buffers} {a : Nat} :
    b.inDst a = true ↔ b.dstAddr.toNat ≤ a ∧ a < b.dstAddr.toNat + b.dstCap.toNat := inWindow_eq_true

/-- A window that is not empty leaves memory exactly with its last address. -/
theorem windowInMemory_eq_true {bits addr len : Nat} :
    windowInMemory bits addr len = true ↔ ∀ a, inWindow a addr len = true → a < 2 ^ bits := by
  simp only [windowInMemory, inWindow_eq_true, Bool.or_eq_true, decide_eq_true_eq]
  constructor
  · intro h a ha; omega
  · intro h
    have := h (addr + len - 1)
    omega

/-- Two windows that share an address share the first address of one of them. -/
theorem windowsMeet_eq_true {a1 l1 a2 l2 : Nat} :
    windowsMeet a1 l1 a2 l2 = true ↔ ∃ a, inWindow a a1 l1 = true ∧ inWindow a a2 l2 = true := by
  simp only [windowsMeet, inWindow_eq_true, Bool.and_eq_true, decide_eq_true_eq]
  constructor
  · rintro ⟨⟨⟨h1, h2⟩, h3⟩, h4⟩
    exact ⟨max a1 a2, by omega, by omega⟩
  · rintro ⟨a, ha⟩; omega

/-- Some address of a window is none of host memory: R54 (a) is broken. -/
def Buffers.LeaveMemory (b : Buffers) (p : Config.Params) : Prop :=
  ∃ a, (b.inSrc a = true ∨ b.inDst a = true) ∧ 2 ^ p.addrBits ≤ a

/-- The windows share an address: R54 (b) is broken. -/
def Buffers.Overlap (b : Buffers) : Prop := ∃ a, b.inSrc a = true ∧ b.inDst a = true

theorem Buffers.not_leaveMemory_iff {b : Buffers} {p : Config.Params} :
    ¬ b.LeaveMemory p ↔ (windowInMemory p.addrBits b.srcAddr.toNat b.srcLen.toNat &&
      windowInMemory p.addrBits b.dstAddr.toNat b.dstCap.toNat) = true := by
  rw [Bool.and_eq_true, windowInMemory_eq_true, windowInMemory_eq_true, LeaveMemory]
  simp only [not_exists, not_and, Nat.not_le, or_imp, forall_and]
  rfl

theorem Buffers.overlap_iff {b : Buffers} :
    b.Overlap ↔ windowsMeet b.srcAddr.toNat b.srcLen.toNat b.dstAddr.toNat b.dstCap.toNat = true :=
  windowsMeet_eq_true.symm

/-- Everything the check of the windows can answer (R54 (a), (b)). -/
theorem Buffers.violation_cases (b : Buffers) (p : Config.Params) :
    (b.LeaveMemory p ∧ b.violation p = some .windowOutsideMemory) ∨
    (¬ b.LeaveMemory p ∧ b.Overlap ∧ b.violation p = some .windowsOverlap) ∨
    (¬ b.LeaveMemory p ∧ ¬ b.Overlap ∧ b.violation p = none) := by
  unfold violation
  by_cases hl : b.LeaveMemory p
  · have hout := Bool.eq_false_iff.mpr (not_leaveMemory_iff.not_right.mp hl)
    exact .inl ⟨hl, by rw [hout]; rfl⟩
  · have hin := not_leaveMemory_iff.mp hl
    by_cases ho : b.Overlap
    · exact .inr (.inl ⟨hl, ho, by simp [hin, overlap_iff.mp ho]⟩)
    · exact .inr (.inr ⟨hl, ho, by simp [hin, overlap_iff.not.mp ho]⟩)

theorem Buffers.violation_eq_outside_iff {b : Buffers} {p : Config.Params} :
    b.violation p = some .windowOutsideMemory ↔ b.LeaveMemory p := by
  rcases b.violation_cases p with ⟨hl, h⟩ | ⟨hl, -, h⟩ | ⟨hl, -, h⟩ <;> simp [h, hl]

theorem Buffers.violation_eq_overlap_iff {b : Buffers} {p : Config.Params} :
    b.violation p = some .windowsOverlap ↔ ¬ b.LeaveMemory p ∧ b.Overlap := by
  rcases b.violation_cases p with ⟨hl, h⟩ | ⟨hl, ho, h⟩ | ⟨hl, ho, h⟩
  · simp [h, hl]
  · simp [h, hl, ho]
  · simp [h, hl, ho]

theorem Buffers.violation_eq_none_iff {b : Buffers} {p : Config.Params} :
    b.violation p = none ↔ ¬ b.LeaveMemory p ∧ ¬ b.Overlap := by
  rcases b.violation_cases p with ⟨hl, h⟩ | ⟨hl, ho, h⟩ | ⟨hl, ho, h⟩
  · simp [h, hl]
  · simp [h, hl, ho]
  · simp [h, hl, ho]

/-! ### The refusal of a command (R54, R221) -/

theorem finalFlush_ne_refused (s : State) (r : Refusal) : finalFlush s ≠ .refused r := by
  rcases finalFlush_cases s with ⟨-, h⟩ | ⟨run, -, ⟨-, h⟩ | ⟨-, h⟩ | ⟨-, h⟩⟩ <;> simp [h]

/-- A COMPRESS is refused for its windows alone. -/
theorem execCompress_refused_iff {s : State} (hb : s.status.busy = false) (r : Refusal) :
    execCompress s = .refused r ↔ s.regs.violation s.cfg = some r := by
  rcases execCompress_cases hb with ⟨r', hv, h⟩ | ⟨hv, ⟨-, h⟩ | ⟨-, -, h⟩ | ⟨-, -, h⟩⟩
  · simp [h, hv]
  · simp [h, hv]
  · simp [h, hv]
  · rw [h, hv, compressBody_eq rfl]
    split <;> simp [finalFlush_ne_refused]

/-- A DECOMPRESS is refused for its windows alone. -/
theorem execDecompress_refused_iff {s : State} (hb : s.status.busy = false) (r : Refusal) :
    execDecompress s = .refused r ↔ s.regs.violation s.cfg = some r := by
  rcases execDecompress_cases hb with ⟨r', hv, h⟩ | ⟨hv, ⟨-, h⟩ | ⟨-, ⟨-, h⟩ | ⟨hd, -, ⟨-, h⟩ | ⟨-, h⟩⟩⟩⟩ <;> simp [h, hv]

/-- Settles O39: both commands are refused for their windows alone, and each refusal names the addresses that break R54. -/
theorem commandsRefuseBrokenWindows : Obligations.CommandsRefuseBrokenWindows := by
  intro i s hi hb
  have hrefused (r : Refusal) : exec i s = .refused r ↔ s.regs.violation s.cfg = some r := by
    rcases hi with rfl | rfl
    · exact execCompress_refused_iff hb r
    · exact execDecompress_refused_iff hb r
  exact ⟨(hrefused _).trans Buffers.violation_eq_outside_iff, (hrefused _).trans Buffers.violation_eq_overlap_iff⟩

/-! ### The host and the windows of a running command (R54 (d), R63, R214) -/

/-- A host write of memory is refused in a guarded window. -/
theorem step_memWrite_guarded {s : State} {rest : List HostAction} {a : Nat} {b : Byte} (ha : a < 2 ^ s.cfg.addrBits)
    (hg : s.guardsWrite a = true) (h : s.host = .memWrite a b :: rest) : step s = .refused .windowWrittenDuringCommand := by
  rw [step_of_cons h]
  have hg' : State.guardsWrite { s with host := rest } a = true := hg
  simp only [hostMove, Move.outcome, hostMemWrite, hg', if_neg (Nat.not_le.mpr ha), if_true]

theorem step_memRead_guarded {s : State} {rest : List HostAction} {a : Nat} (ha : a < 2 ^ s.cfg.addrBits)
    (hg : s.guardsRead a = true) (h : s.host = .memRead a :: rest) :
    step s = .next { s with
      host := rest, hostRead := (Config.freeByte s.freeCount).setWidth 64, freeCount := s.freeCount + 1 } := by
  rw [step_of_cons h]
  have hg' : State.guardsRead { s with host := rest } a = true := hg
  simp only [hostMove, Move.outcome, hostMemRead, hg', if_neg (Nat.not_le.mpr ha), if_true]

theorem step_memRead_free {s : State} {rest : List HostAction} {a : Nat} {b : Byte} (ha : a < 2 ^ s.cfg.addrBits)
    (hg : s.guardsRead a = false) (hm : s.mem.read a = some b) (h : s.host = .memRead a :: rest) :
    step s = .next { s with host := rest, hostRead := b.setWidth 64 } := by
  rw [step_of_cons h]
  have hg' : State.guardsRead { s with host := rest } a = false := hg
  simp only [hostMove, Move.outcome, hostMemRead, hg', hm, if_neg (Nat.not_le.mpr ha)]
  rfl

/-- Settles O46: the running command's windows are held, so they are guarded. -/
theorem windowWriteDuringCommandRefused : Obligations.WindowWriteDuringCommandRefused :=
  fun _ _ _ _ hi hb ha hw h => step_memWrite_guarded ha (State.guardsWrite_of_mem (hi.guarded hb) hw) h

/-- Settles O47: the running command's destination is guarded, and the read of STATUS with DONE = 1 ends every guard. -/
theorem hostSeesDestinationAfterDone : Obligations.HostSeesDestinationAfterDone := by
  constructor
  · intro s rest a hi hb ha hw h
    exact ⟨_, step_memRead_guarded ha (State.guardsRead_of_mem (hi.guarded hb) hw) h, rfl, rfl⟩
  · intro s rest a b hdone ha hm h
    have hobserve := step_regRead (k := 5) (by omega) h
    have hfree : (State.observe { s with host := .memRead a :: rest } 0x28).unobserved = [] := by simp [hdone]
    have hread := step_memRead_free (s := State.observe { s with host := .memRead a :: rest } 0x28) (b := b) ha
      (by rw [State.guardsRead, hfree]; rfl) hm rfl
    exact ⟨_, (State.run_succ hobserve 1).trans (State.run_succ hread 0), rfl, rfl, hfree⟩

/-! ### Writes stay in the destination window (R52, R53) -/

/-- The addresses outside a range are outside a range within it. -/
theorem Memory.SameOutside.mono {m m' : Memory} {a off len n : Nat} (h : m'.SameOutside m (a + off) len)
    (hn : off + len ≤ n) : m'.SameOutside m a n := fun x hx => h x (by omega)

theorem Memory.sameOutside_refl (m : Memory) (a len : Nat) : m.SameOutside m a len := fun _ _ => rfl

theorem Memory.sameOutside_writeBytes (m : Memory) (a : Nat) (bs : List Byte) :
    (m.writeBytes a bs).SameOutside m a bs.length := fun _ hx => Memory.read_writeBytes_outside hx m

theorem Memory.sameOutside_copyUp {m m' : Memory} {src dst len : Nat} (h : m.copyUp src dst len = some m') :
    m'.SameOutside m dst len := fun _ hx => Memory.copyUp_read_outside h hx

/-- What a hit writes fits (R138). -/
theorem State.Scanning.hit_fits {s : State} (hs : s.Scanning) {run : List Byte} {e : Nat} (offset : Nat)
    (hr : run.length = s.comp.s - s.comp.lit) (h4 : s.comp.s + 4 ≤ e) (he : e ≤ s.srcLen) :
    s.comp.d + (hitBytes run offset (e - s.comp.s)).length ≤ maxCompressedLen s.srcLen := by
  have hlit := hs.lit_le
  have hbound := hitBytes_bound (offset := offset) (run := run) (len := e - s.comp.s) (e := e) hs.bound (by omega) (by omega)
  rw [maxCompressedLen]
  omega

/-- What the final flush writes fits (R138). -/
theorem State.Scanning.flush_fits {s : State} (hs : s.Scanning) {run : List Byte}
    (hr : run.length = s.srcLen - s.comp.lit) : s.comp.d + (runBytes run).length ≤ maxCompressedLen s.srcLen := by
  have hlit := hs.lit_le
  have hle := hs.s_le
  have hbound := hs.bound
  have hrun := runBytes_length_bound run
  rw [maxCompressedLen]
  omega

/-- The write range of a command lies in its destination window (R121, R152). -/
theorem State.Inv.writeRange_le {s : State} (hi : s.Inv) : s.writeRange ≤ s.dstCap := by
  cases hp : s.phase with
  | idle => simp [State.writeRange, hp]
  | compressing => simpa [State.writeRange, hp] using (hi.scanning hp).room
  | decompressing => simpa [State.writeRange, hp] using (hi.decoding hp).n_le

theorem State.loseRange_sameOutside (s : State) : s.loseRange.mem.SameOutside s.mem (s.dstAddr 0) s.writeRange := by
  have h := Memory.sameOutside_writeBytes s.mem (s.dstAddr 0) (freeBytes s.freeCount s.writeRange)
  rwa [freeBytes_length] at h

theorem State.raised_sameOutside (s : State) (e : ErrDetail) :
    (s.raised e).mem.SameOutside s.mem (s.dstAddr 0) s.writeRange := by
  rw [State.raised_mem]
  split
  · exact s.loseRange_sameOutside
  · exact Memory.sameOutside_refl s.mem _ _

/-- Memory changed in the destination window of `b` alone. -/
abbrev Buffers.WritesOnlyDst (b : Buffers) (m m' : Memory) : Prop := m'.SameOutside m b.dstAddr.toNat b.dstCap.toNat

theorem Buffers.WritesOnlyDst.inDst {b : Buffers} {m m' : Memory} {a : Nat} (h : b.WritesOnlyDst m m')
    (ha : m'.read a ≠ m.read a) : b.inDst a = true := by
  rw [Buffers.inDst_eq_true]
  by_contra hout
  exact ha (h a (by omega))

/-- An error completion writes in the destination window alone (R184). -/
theorem State.raised_writesOnlyDst {s : State} (hr : s.writeRange ≤ s.dstCap) (e : ErrDetail) :
    s.latch.WritesOnlyDst s.mem (s.raised e).mem :=
  (s.raised_sameOutside e).mono (off := 0) (by rwa [Nat.zero_add])

theorem EngineStep.writesOnlyDst {s t : State} (h : EngineStep s t) (hi : s.Inv) : s.latch.WritesOnlyDst s.mem t.mem := by
  cases h with
  | idle | miss | finish => exact Memory.sameOutside_refl s.mem _ _
  | hit h e run hp hs _ _ hr he =>
    have hsc := hi.scanning hp
    obtain ⟨he1, he2, -, -⟩ := extendMatch_eq_some he
    exact (Memory.sameOutside_writeBytes _ _ _).mono
      ((hsc.hit_fits _ (sourceRun_eq_some.mp hr).1 he1 (by omega)).trans hsc.room)
  | flush run hp _ hr =>
    have hsc := hi.scanning hp
    exact (Memory.sameOutside_writeBytes _ _ _).mono ((hsc.flush_fits (sourceRun_eq_some.mp hr).1).trans hsc.room)
  | literal tag len m hp _ hn _ _ hc =>
    have hd := hi.decoding hp
    have hdle := hd.d_le
    exact (Memory.sameOutside_copyUp hc).mono (show s.dec.d + len ≤ s.dstCap from le_trans (by omega) hd.n_le)
  | copy tag o len m hp _ _ _ hn _ hc =>
    exact (Memory.sameOutside_copyUp hc).mono (hn.trans (hi.decoding hp).n_le)
  | hitError h _ _ d => exact State.raised_writesOnlyDst (s := s.entered h) hi.writeRange_le d
  | flushError _ d => exact State.raised_writesOnlyDst hi.writeRange_le d
  | elementError k d => exact State.raised_writesOnlyDst (s := s.pastHeader k) hi.writeRange_le d
  | mismatch => exact State.raised_writesOnlyDst hi.writeRange_le _

/-- A command that starts writes in the buffer registers' destination window alone; one turned down writes nothing. -/
theorem CommandStep.writesOnlyDst {s t : State} (h : CommandStep s t) : s.regs.WritesOnlyDst s.mem t.mem := by
  cases h with
  | ignored | decompress => exact Memory.sameOutside_refl s.mem _ _
  | reserved => exact Memory.sameOutside_refl s.mem _ _
  | rejected p d =>
    rw [State.raised_mem, State.begin_hasWritten]
    exact Memory.sameOutside_refl s.mem _ _
  | flush run _ _ hl _ hc hr =>
    have hrun := runBytes_length_le (run := run) (by omega)
    refine (Memory.sameOutside_writeBytes _ _ _).mono (off := 0) (le_trans ?_ hc)
    rw [List.length_append, leBytes_length, maxCompressedLen]
    omega
  | compress _ _ _ _ hc =>
    refine (Memory.sameOutside_writeBytes _ _ _).mono (off := 0) (le_trans ?_ hc)
    rw [leBytes_length, maxCompressedLen]
    omega

theorem CommandStep.eq_of_busy {s t : State} (h : CommandStep s t) (hb : s.status.busy = true) : t = s := by
  cases h with
  | ignored => rfl
  | reserved hfree | rejected _ _ hfree | flush _ hfree | compress hfree | decompress _ hfree => cases hb.symm.trans hfree

@[simp] theorem State.writeReg_mem (s : State) (o : Nat) (v : Word) : (s.writeReg o v).mem = s.mem := by
  unfold State.writeReg
  split
  · rfl
  · split <;> rfl

/-- A byte the engine's own step changes lies in the destination window of the command that runs. -/
theorem EngineStep.change_inDst {s t : State} {a : Nat} (h : EngineStep s t) (hi : s.Inv)
    (ha : t.mem.read a ≠ s.mem.read a) : s.status.busy = true ∧ s.latch.inDst a = true := by
  refine ⟨hi.busy_of_phase fun hp => ha ?_, (h.writesOnlyDst hi).inDst ha⟩
  rw [h.eq_of_idle hp]

/-- A byte the reset input changes lies in the destination window of the command it cuts short (R210). -/
theorem assertReset_change_inDst {s : State} {a : Nat} (hi : s.Inv) (ha : (assertReset s).mem.read a ≠ s.mem.read a) :
    s.status.busy = true ∧ s.latch.inDst a = true := by
  have hlost : (assertReset s).mem.SameOutside s.mem (s.dstAddr 0) s.writeRange := s.loseRange_sameOutside
  have hdst : s.latch.WritesOnlyDst s.mem (assertReset s).mem :=
    hlost.mono (off := 0) (by rw [Nat.zero_add]; exact hi.writeRange_le)
  refine ⟨hi.busy_of_phase fun hp => ha (hlost a ?_), hdst.inDst ha⟩
  have hidle : s.writeRange = 0 := by rw [State.writeRange, hp]
  omega

/-- A byte a command's write changes lies in the buffer registers' destination window, and the engine was free. -/
theorem CommandStep.change_inDst {s t : State} {a : Nat} (h : CommandStep s t) (ha : t.mem.read a ≠ s.mem.read a) :
    s.status.busy = false ∧ s.regs.inDst a = true := by
  refine ⟨Bool.eq_false_iff.mpr fun hb => ha ?_, h.writesOnlyDst.inDst ha⟩
  rw [h.eq_of_busy hb]

/-- A host write of memory changes the byte it names alone. -/
theorem Memory.eq_of_write_changes {m : Memory} {a a' : Nat} {b : Byte} (h : (m.write a' b).read a ≠ m.read a) : a' = a := by
  by_contra hne
  exact h (Memory.read_write_ne (Ne.symm hne) m b)

/-- Settles O49, from every way a step answers a next state: the engine, a command's start and the reset input change the
destination window alone. -/
theorem onlyDestinationIsWritten : Obligations.OnlyDestinationIsWritten := by
  intro s t a hi h ha
  have hrest (rest : List HostAction) : State.Inv { s with host := rest } := hi.withHost rest s.hostRead s.freeCount
  cases stepTo_of_next h with
  | engine _ h => exact .inr (.inl (h.change_inDst hi ha))
  | letEngine rest _ h => exact .inr (.inl (h.change_inDst (hrest rest) ha))
  | pollBusy rest _ _ h =>
    exact .inr (.inl (h.change_inDst (((hrest rest).observe 0x28).withHost _ _ s.freeCount) ha))
  | command rest w hh h =>
    obtain ⟨hb, hdst⟩ := h.change_inDst ha
    exact .inr (.inr ⟨hb, hdst, w, rest, hh⟩)
  | memWrite rest a' b hh => exact .inl ⟨b, rest, Memory.eq_of_write_changes ha ▸ hh⟩
  | reset rest => exact .inr (.inl (assertReset_change_inDst (s := { s with host := rest }) (hrest rest) ha))
  | regWrite => exact absurd (by rw [State.writeReg_mem]) ha
  | pollFree | regRead | memReadFree | memRead => exact absurd rfl ha

/-- An address of a running command's window is one of host memory (R54 (a)). -/
theorem State.Inv.window_lt {s : State} (hi : s.Inv) (hb : s.status.busy = true) {a : Nat}
    (ha : s.latch.inSrc a = true ∨ s.latch.inDst a = true) : a < 2 ^ s.cfg.addrBits := by
  obtain ⟨hin, -⟩ := Buffers.violation_eq_none_iff.mp (hi.windows hb)
  by_contra hout
  exact hin ⟨a, ha, Nat.not_lt.mp hout⟩

/-- Settles O50: a change would be the host's, which is refused there, or in the destination window, which shares no address
with the source window. -/
theorem sourceKeptDuringCommand : Obligations.SourceKeptDuringCommand := by
  intro s t a hi hb hsrc h
  by_contra ha
  rcases onlyDestinationIsWritten s t a hi h ha with ⟨b, rest, hh⟩ | ⟨-, hdst⟩ | ⟨hfree, -⟩
  · have hrefused := windowWriteDuringCommandRefused s rest a b hi hb (hi.window_lt hb (.inl hsrc)) (.inl hsrc) hh
    cases h.symm.trans hrefused
  · obtain ⟨-, hdisjoint⟩ := Buffers.violation_eq_none_iff.mp (hi.windows hb)
    exact hdisjoint ⟨a, hsrc, hdst⟩
  · cases hb.symm.trans hfree

/-! ### Two memories that agree on the windows (R51, R53)

The engine's step is followed from a state and from the same state with another memory that agrees with its own on the running
command's windows. -/

/-- The two memories hold the same bytes in the windows of `b`. -/
abbrev Buffers.SameWindows (b : Buffers) (m m' : Memory) : Prop :=
  ∀ a, b.inSrc a = true ∨ b.inDst a = true → m'.read a = m.read a

/-- The state with another memory. -/
def State.withMem (s : State) (m : Memory) : State := { s with mem := m }

@[simp] theorem State.withMem_mem (s : State) (m : Memory) : (s.withMem m).mem = m := rfl
@[simp] theorem State.withMem_dec (s : State) (m : Memory) : (s.withMem m).dec = s.dec := rfl
@[simp] theorem State.withMem_srcAddr (s : State) (m : Memory) (i : Nat) : (s.withMem m).srcAddr i = s.srcAddr i := rfl
@[simp] theorem State.withMem_dstAddr (s : State) (m : Memory) (i : Nat) : (s.withMem m).dstAddr i = s.dstAddr i := rfl
@[simp] theorem State.withMem_hasWritten (s : State) (m : Memory) : (s.withMem m).hasWritten = s.hasWritten := rfl

/-- Where the first outcome is a next state, the second is that state with a memory that agrees on the windows of `b`. -/
def OutcomeAgrees (b : Buffers) (o o' : Outcome) : Prop :=
  ∀ t, o = .next t → ∃ m', o' = .next (t.withMem m') ∧ b.SameWindows t.mem m'

theorem OutcomeAgrees.next {b : Buffers} {t : State} {m' : Memory} (h : b.SameWindows t.mem m') :
    OutcomeAgrees b (.next t) (.next (t.withMem m')) := by
  rintro _ ⟨⟩
  exact ⟨m', rfl, h⟩

theorem OutcomeAgrees.ite {b : Buffers} {c : Prop} {i i' : Decidable c} {x y x' y' : Outcome}
    (hx : c → OutcomeAgrees b x x') (hy : ¬ c → OutcomeAgrees b y y') :
    OutcomeAgrees b (@ite _ c i x y) (@ite _ c i' x' y') := by
  by_cases h : c
  · rw [if_pos h, if_pos h]; exact hx h
  · rw [if_neg h, if_neg h]; exact hy h

theorem OutcomeAgrees.fault (b : Buffers) (f : Fault) (o' : Outcome) : OutcomeAgrees b (.fault f) o' := nofun

namespace Buffers.SameWindows

variable {b : Buffers} {m m' : Memory}

theorem write (h : b.SameWindows m m') (a : Nat) (x : Byte) : b.SameWindows (m.write a x) (m'.write a x) := by
  intro a' ha'
  rw [Memory.read_write, Memory.read_write, h a' ha']

theorem writeBytes (h : b.SameWindows m m') (a : Nat) (bs : List Byte) :
    b.SameWindows (m.writeBytes a bs) (m'.writeBytes a bs) := by
  induction bs generalizing a m m' with
  | nil => exact h
  | cons x bs ih => exact ih (h.write a x) (a + 1)

/-- A copy out of a window goes the same way in both memories. -/
theorem copyUp (h : b.SameWindows m m') {src dst len : Nat} {n : Memory}
    (hsrc : ∀ i < len, b.inSrc (src + i) = true ∨ b.inDst (src + i) = true) (hc : m.copyUp src dst len = some n) :
    ∃ n', m'.copyUp src dst len = some n' ∧ b.SameWindows n n' := by
  induction len generalizing m m' src dst with
  | zero => cases hc; exact ⟨m', rfl, h⟩
  | succ len ih =>
    have hread : m'.read src = m.read src := h src (hsrc 0 (by omega))
    rw [Memory.copyUp] at hc
    rw [Memory.copyUp, hread]
    split at hc
    · cases hc
    · rename_i x _
      refine ih (h.write dst x) (fun i hi => ?_) hc
      have := hsrc (i + 1) (by omega)
      rwa [show src + 1 + i = src + (i + 1) by omega]

end Buffers.SameWindows

section SameWindows

variable {s : State} {m : Memory} (hm : s.latch.SameWindows s.mem m)

theorem State.inSrc_srcAddr {i : Nat} (hi : i < s.srcLen) : s.latch.inSrc (s.srcAddr i) = true :=
  Buffers.inSrc_eq_true.mpr ⟨Nat.le_add_right _ _, Nat.add_lt_add_left hi _⟩

theorem State.inDst_dstAddr {i : Nat} (hi : i < s.dstCap) : s.latch.inDst (s.dstAddr i) = true :=
  Buffers.inDst_eq_true.mpr ⟨Nat.le_add_right _ _, Nat.add_lt_add_left hi _⟩

include hm

theorem State.src_agree : ∀ i < s.srcLen, s.src i = (s.withMem m).src i :=
  fun _ hi => (hm _ (.inl (State.inSrc_srcAddr hi))).symm

theorem State.srcBytes_agree {lo len : Nat} {bs : List Byte} (hl : lo + len ≤ s.srcLen)
    (h : s.srcBytes lo len = some bs) : (s.withMem m).srcBytes lo len = some bs := by
  obtain ⟨hlen, hread⟩ := Memory.readBytes_eq_some.mp h
  refine Memory.readBytes_eq_some.mpr ⟨hlen, fun i hi => ?_⟩
  have hsame : s.src (lo + i) = (s.withMem m).src (lo + i) := State.src_agree hm _ (by omega)
  rw [← hread i hi]
  simpa only [State.src, State.srcAddr, Nat.add_assoc] using hsame.symm

/-- An error completion overwrites the same range with the same free values. -/
theorem raise_agrees (e : ErrDetail) : OutcomeAgrees s.latch (raise e s) (raise e (s.withMem m)) := by
  have hraised : (s.withMem m).raised e = (s.raised e).withMem ((s.withMem m).raised e).mem := by
    unfold State.raised
    rw [State.withMem_hasWritten]
    split <;> rfl
  rw [raise_eq, raise_eq, hraised]
  refine .next ?_
  rw [State.raised_mem, State.raised_mem, State.withMem_hasWritten]
  split
  · exact hm.writeBytes _ _
  · exact hm

theorem complete_agrees (r : Nat) : OutcomeAgrees s.latch (complete r s) (complete r (s.withMem m)) :=
  .next (t := s.completed r) hm

/-! #### The elements of a DECOMPRESS (R108 to R111, R154, R160) -/

theorem literalAt_agrees (len : Nat) : OutcomeAgrees s.latch (literalAt len s) (literalAt len (s.withMem m)) := by
  unfold literalAt
  refine .ite (fun _ => raise_agrees hm _) fun _ => .ite (fun _ => raise_agrees hm _) fun hsrc => ?_
  cases hc : s.mem.copyUp (s.srcAddr s.dec.s) (s.dstAddr s.dec.d) len with
  | none => exact .fault _ _ _
  | some n =>
    obtain ⟨n', hc', hn⟩ := hm.copyUp (fun i hi => .inl ((Nat.add_assoc _ _ _).symm ▸ State.inSrc_srcAddr (by omega))) hc
    simp only [State.withMem_mem, State.withMem_dec, State.withMem_srcAddr, State.withMem_dstAddr, hc']
    exact .next (t := s.afterLiteral n len) hn

theorem copyAt_agrees (hn : s.dec.n ≤ s.dstCap) (offset len : Nat) :
    OutcomeAgrees s.latch (copyAt offset len s) (copyAt offset len (s.withMem m)) := by
  unfold copyAt
  refine .ite (fun _ => raise_agrees hm _) fun hzero => .ite (fun _ => raise_agrees hm _) fun hstart =>
    .ite (fun _ => raise_agrees hm _) fun hdst => ?_
  cases hc : s.mem.copyUp (s.dstAddr (s.dec.d - offset)) (s.dstAddr s.dec.d) len with
  | none => exact .fault _ _ _
  | some n =>
    obtain ⟨n', hc', hn⟩ := hm.copyUp (fun i hi => .inr ((Nat.add_assoc _ _ _).symm ▸ State.inDst_dstAddr (by omega))) hc
    simp only [State.withMem_mem, State.withMem_dec, State.withMem_dstAddr, hc']
    exact .next (t := s.afterCopy n len) hn

/-- Whatever element stands at the cursor, it reads the source and the output before it. -/
theorem exec_elementOf_agrees (hn : s.dec.n ≤ s.dstCap) (tag : Byte) (ext : List Byte) :
    OutcomeAgrees s.latch (exec (elementOf tag ext) s) (exec (elementOf tag ext) (s.withMem m)) := by
  rcases elementOf_cases tag ext with ⟨len, hi⟩ | ⟨o, len, hi⟩ | ⟨r, hi⟩
  · rw [(exec_literal hi s).1, (exec_literal hi (s.withMem m)).1]
    exact literalAt_agrees (s := s.pastHeader _) hm len
  · rw [(exec_copy hi s).1, (exec_copy hi (s.withMem m)).1]
    exact copyAt_agrees (s := s.pastHeader _) hm hn o len
  · rw [hi]
    exact raise_agrees hm _

end SameWindows

theorem fetchElement_truncated {s : State} {tag : Byte} (ht : s.src s.dec.s = some tag)
    (hx : s.srcLen < s.dec.s + 1 + extCount tag) : fetchElement s = .done (raise .tagTruncated s) := by
  simp only [fetchElement, ht, if_pos hx]

theorem fetchElement_run {s : State} {tag : Byte} {ext : List Byte} (ht : s.src s.dec.s = some tag)
    (hx : s.dec.s + 1 + extCount tag ≤ s.srcLen) (he : s.srcBytes (s.dec.s + 1) (extCount tag) = some ext) :
    fetchElement s = .run (elementOf tag ext) s := by
  have hlen : ext.length = extCount tag := (Memory.readBytes_eq_some.mp he).1
  simp only [fetchElement, ht, if_neg (Nat.not_lt.mpr hx), he, decode_element_exact hlen]

/-- A step of a DECOMPRESS reads its windows alone. -/
theorem decompressMove_agrees {s : State} {m : Memory} (hm : s.latch.SameWindows s.mem m) (hd : s.Decoding) :
    OutcomeAgrees s.latch (decompressMove s).outcome (decompressMove (s.withMem m)).outcome := by
  by_cases hs : s.dec.s < s.srcLen
  · rw [decompressMove_fetch hs, decompressMove_fetch (s := s.withMem m) hs]
    have hsrc := State.src_agree hm s.dec.s hs
    rcases fetchElement_cases s with ⟨-, h⟩ | ⟨tag, ht, ⟨hx, h⟩ | ⟨hx, ⟨-, h⟩ | ⟨ext, he, -, h⟩⟩⟩
    · rw [h]; exact .fault _ _ _
    · rw [h, fetchElement_truncated (s := s.withMem m) (hsrc.symm.trans ht) hx]
      exact raise_agrees hm _
    · rw [h]; exact .fault _ _ _
    · rw [h, fetchElement_run (s := s.withMem m) (hsrc.symm.trans ht) hx (State.srcBytes_agree hm hx he)]
      exact exec_elementOf_agrees hm hd.n_le tag ext
  · have hend : s.srcLen ≤ s.dec.s := Nat.not_lt.mp hs
    rw [decompressMove_end hend, decompressMove_end (s := s.withMem m) hend]
    exact .ite (fun _ => raise_agrees hm _) (fun _ => complete_agrees hm _)

/-! #### The turns of a COMPRESS (R126 to R136) -/

theorem emitLiteral_long {run : List Byte} (hl : 2 ^ 32 < run.length) (s : State) :
    emitLiteral run s = .error .srcTooLong := by
  rcases emitLiteral_cases run s with ⟨h, -⟩ | ⟨h, -⟩ | ⟨-, h⟩
  · omega
  · omega
  · exact h

/-- A turn that finds a match, where what it writes fits: the hit, or the error of a run too long for a literal (R102). -/
theorem scanTurn_match {s : State} {h e : Nat} {run : List Byte} (hh : hashAt s.src s.shift s.comp.s = some h)
    (hm : matchTest s.src (s.table.get h) s.comp.s = some true)
    (hr : sourceRun s.src s.comp.lit (s.comp.s - s.comp.lit) = some run)
    (he : extendMatch s.src (s.srcLen - (s.comp.s + 4)) (s.comp.s + 4) (s.table.get h - 1 + 4) = some e)
    (hd : s.comp.d + (hitBytes run (s.comp.s - (s.table.get h - 1)) (e - s.comp.s)).length ≤ maxCompressedLen s.srcLen) :
    scanTurn s =
      if run.length ≤ 2 ^ 32 then .next ((s.entered h).afterHit run (s.table.get h - 1) e)
      else raise .srcTooLong (s.entered h) := by
  split_ifs with hl
  · exact scanTurn_hit hh hm hr he hl hd
  · have hlong : scanHit run (s.table.get h - 1) e (s.entered h) = .error .srcTooLong := by
      rw [scanHit, emitLiteral_long (Nat.not_le.mp hl)]
    simp only [scanTurn, hh, hm, hr, he]
    exact congrArg (settle (s.entered h)) hlong

/-- The final flush of a run that fits: the success, or the error of a run too long for a literal (R102). -/
theorem finalFlush_run {s : State} {run : List Byte} (hr : sourceRun s.src s.comp.lit (s.srcLen - s.comp.lit) = some run)
    (hd : s.comp.d + (runBytes run).length ≤ maxCompressedLen s.srcLen) :
    finalFlush s =
      if run.length ≤ 2 ^ 32 then complete (s.comp.d + (runBytes run).length) (s.emitted (runBytes run))
      else raise .srcTooLong s := by
  split_ifs with hl
  · rw [finalFlush, hr]
    simp only [emitLiteral_ok hl hd]
    rfl
  · rw [finalFlush, hr]
    simp only [emitLiteral_long (Nat.not_le.mp hl)]

theorem State.Scanning.hash_lt {s : State} (hs : s.Scanning) {src : Nat → Option Byte} {p h : Nat}
    (hh : hashAt src s.shift p = some h) : h < s.tableSize := by
  obtain ⟨hsize, hshift⟩ := Prod.mk.inj hs.params
  obtain ⟨w, -, rfl⟩ := Option.map_eq_some_iff.mp hh
  rw [hsize, hshift]
  exact hashIndex_lt_tableSize s.srcLen w

/-- A turn of the scan reads the source alone. -/
theorem scanTurn_agrees {s : State} {m : Memory} (hm : s.latch.SameWindows s.mem m) (hsc : s.Scanning)
    (hs : s.comp.s + 3 < s.srcLen) : OutcomeAgrees s.latch (scanTurn s) (scanTurn (s.withMem m)) := by
  have hsrc := State.src_agree hm
  have hlit := hsc.lit_le
  rcases scanTurn_cases s with h1 | ⟨h, hh, hmatch⟩
  · rw [h1]; exact .fault _ _ _
  have hv : s.table.get h ≤ s.comp.s := hsc.scanned h (hsc.hash_lt hh)
  have hh' : hashAt (s.withMem m).src s.shift s.comp.s = some h := by rw [← hashAt_agree hsrc (by omega), hh]
  have htest := matchTest_agree hsrc hv (show s.comp.s + 4 ≤ s.srcLen by omega)
  rcases hmatch with ⟨hno, h1⟩ | ⟨hyes, run, e, hr, he, -⟩
  · rw [h1, scanTurn_miss (s := s.withMem m) hh' (htest.symm.trans hno)]
    exact .next (t := scanMiss (s.entered h)) hm
  · have hr' : sourceRun (s.withMem m).src s.comp.lit (s.comp.s - s.comp.lit) = some run := by
      rw [← sourceRun_agree hsrc (by omega), hr]
    have he' : extendMatch (s.withMem m).src (s.srcLen - (s.comp.s + 4)) (s.comp.s + 4) (s.table.get h - 1 + 4) = some e := by
      rw [← extendMatch_agree hsrc (by omega) (by omega), he]
    obtain ⟨h4, hend, -, -⟩ := extendMatch_eq_some he
    have hfits := hsc.hit_fits (s.comp.s - (s.table.get h - 1)) (sourceRun_eq_some.mp hr).1 h4 (by omega)
    rw [scanTurn_match hh hyes hr he hfits, scanTurn_match (s := s.withMem m) hh' (htest.symm.trans hyes) hr' he' hfits]
    split_ifs
    · exact .next (t := (s.entered h).afterHit run (s.table.get h - 1) e) (hm.writeBytes _ _)
    · exact raise_agrees (s := s.entered h) hm _

/-- The final flush reads the source alone. -/
theorem finalFlush_agrees {s : State} {m : Memory} (hm : s.latch.SameWindows s.mem m) (hsc : s.Scanning) :
    OutcomeAgrees s.latch (finalFlush s) (finalFlush (s.withMem m)) := by
  rcases finalFlush_cases s with ⟨-, h⟩ | ⟨run, hr, -⟩
  · rw [h]; exact .fault _ _ _
  · have hle := hsc.lit_le.trans hsc.s_le
    have hr' : sourceRun (s.withMem m).src s.comp.lit (s.srcLen - s.comp.lit) = some run := by
      rw [← sourceRun_agree (State.src_agree hm) (by omega), hr]
    have hfits := hsc.flush_fits (sourceRun_eq_some.mp hr).1
    rw [finalFlush_run hr hfits, finalFlush_run (s := s.withMem m) hr' hfits]
    split_ifs
    · exact complete_agrees (s := s.emitted (runBytes run)) (hm.writeBytes _ _) _
    · exact raise_agrees hm _

/-- The engine's own step reads its windows alone. -/
theorem engineMove_agrees {s : State} {m : Memory} (hm : s.latch.SameWindows s.mem m) (hi : s.Inv) :
    OutcomeAgrees s.latch (engineMove s).outcome (engineMove (s.withMem m)).outcome := by
  cases hp : s.phase with
  | idle =>
    rw [engineMove_idle hp, engineMove_idle (s := s.withMem m) hp]
    exact .next hm
  | compressing =>
    rw [engineMove_compressing hp, engineMove_compressing (s := s.withMem m) hp]
    have hsc := hi.scanning hp
    exact .ite (fun hs => scanTurn_agrees hm hsc hs) (fun _ => finalFlush_agrees hm hsc)
  | decompressing =>
    rw [engineMove_decompressing hp, engineMove_decompressing (s := s.withMem m) hp]
    exact decompressMove_agrees hm (hi.decoding hp)

/-- Settles O51: with no host action the step is the engine's own. -/
theorem engineReadsOnlyItsWindows : Obligations.EngineReadsOnlyItsWindows := by
  intro s t m hi _ hh hm h
  rw [step_of_nil hh] at h
  rw [step_of_nil (s := { s with mem := m }) hh]
  exact engineMove_agrees hm hi t h

end Sys2Proof.Machine

/-! PROOFS. The statements of spec 30_encoding.md: the two encodings and their decoder (R72 to R79, R83, R84, R164), and the
canonical literal of a run (R75, R101, R103). -/

namespace Sys2Proof

/-! ### A field of whole bytes (R10) -/

theorem ofNat_le_leBytes (k : Nat) (x : BitVec (8 * k)) : BitVec.ofNat (8 * k) (le (leBytes k x.toNat)) = x := by
  have hx : x.toNat < 256 ^ k := by simpa [Nat.pow_mul] using x.isLt
  rw [le_leBytes, Nat.mod_eq_of_lt hx, BitVec.ofNat_toNat, BitVec.setWidth_eq]

theorem leBytes_ofNat_le {k : Nat} {bs : List Byte} (h : bs.length = k) :
    leBytes k (BitVec.ofNat (8 * k) (le bs)).toNat = bs := by
  have hlt : le bs < 2 ^ (8 * k) := by simpa [h, Nat.pow_mul] using le_lt bs
  rw [BitVec.toNat_ofNat, Nat.mod_eq_of_lt hlt, ← h, leBytes_le]

theorem le_singleton (b : Byte) : le [b] = b.toNat := by simp [le]

theorem ofNat_le_singleton (b : Byte) : BitVec.ofNat 8 (le [b]) = b := by
  rw [le_singleton, BitVec.ofNat_toNat, BitVec.setWidth_eq]

/-! ### Tags (R72, R73, R83) -/

@[simp] theorem tagHigh_append (v : BitVec 6) (t : BitVec 2) : tagHigh (v ++ t) = v := by
  revert v t; decide

theorem append_toNat_mod (v : BitVec 6) (t : BitVec 2) : (v ++ t).toNat % 4 = t.toNat := by
  revert v t; decide

/-- A tag is its high bits above its type. -/
theorem tagHigh_append_of_mod {tag : Byte} {t : BitVec 2} (h : tag.toNat % 4 = t.toNat) : tagHigh tag ++ t = tag := by
  revert tag t; decide

theorem tagHigh_eq_ofNat (tag : Byte) : tagHigh tag = BitVec.ofNat 6 (tag.toNat / 4) := by
  rw [← tagHigh_toNat, BitVec.ofNat_toNat, BitVec.setWidth_eq]

/-- R83: every tag byte is a tag of one of the eight element forms. -/
theorem tag_cases (tag : Byte) :
    (tag.toNat % 4 = 0 ∧ tag.toNat / 4 < 60) ∨ tag = 0xF0#8 ∨ tag = 0xF4#8 ∨ tag = 0xF8#8 ∨ tag = 0xFC#8 ∨
      tag.toNat % 4 = 1 ∨ tag.toNat % 4 = 2 ∨ tag.toNat % 4 = 3 := by
  revert tag; decide

/-! ### The element of a tag (R74, R76 to R78) -/

section
variable {tag : Byte} (ext : List Byte)

theorem elementOf_lit (h : tag.toNat % 4 = 0) (hv : tag.toNat / 4 < 60) : elementOf tag ext = .lit (tagHigh tag) := by
  simp [elementOf, literalOf, tagType_toNat, tagHigh_toNat, Config.inlineLitMax, h, hv]

theorem elementOf_litX1 : elementOf 0xF0#8 ext = .litX1 (BitVec.ofNat 8 (le ext)) := rfl

theorem elementOf_litX2 : elementOf 0xF4#8 ext = .litX2 (BitVec.ofNat 16 (le ext)) := rfl

theorem elementOf_litX3 : elementOf 0xF8#8 ext = .litX3 (BitVec.ofNat 24 (le ext)) := rfl

theorem elementOf_litX4 : elementOf 0xFC#8 ext = .litX4 (BitVec.ofNat 32 (le ext)) := rfl

theorem elementOf_copy1 (h : tag.toNat % 4 = 1) :
    elementOf tag ext = .copy1 (tag.extractLsb' 2 3) (tag.extractLsb' 5 3 ++ BitVec.ofNat 8 (le ext)) := by
  simp [elementOf, tagType_toNat, h]

theorem elementOf_copy2 (h : tag.toNat % 4 = 2) : elementOf tag ext = .copy2 (tagHigh tag) (BitVec.ofNat 16 (le ext)) := by
  simp [elementOf, tagType_toNat, h]

theorem elementOf_copy4 (h : tag.toNat % 4 = 3) : elementOf tag ext = .copy4 (tagHigh tag) := by
  simp [elementOf, tagType_toNat, h]

end

/-! ### Copy-1's split offset (R76) -/

/-- The three fields of a Copy-1 tag make up the tag. -/
theorem copy1_fields_append {tag : Byte} (h : tag.toNat % 4 = 1) :
    tag.extractLsb' 5 3 ++ tag.extractLsb' 2 3 ++ 0b01#2 = tag := by
  revert tag; decide

theorem copy1_len_append (a b : BitVec 3) : (a ++ b ++ 0b01#2 : Byte).extractLsb' 2 3 = b := by
  revert a b; decide

theorem copy1_off_append (a b : BitVec 3) : (a ++ b ++ 0b01#2 : Byte).extractLsb' 5 3 = a := by
  revert a b; decide

theorem copy1_off_halves (off : BitVec 11) : off.extractLsb' 8 3 ++ off.extractLsb' 0 8 = off :=
  (BitVec.extractLsb'_append_extractLsb'_eq_extractLsb' rfl).trans BitVec.extractLsb'_eq_self

theorem copy1_len_eq_ofNat (tag : Byte) : tag.extractLsb' 2 3 = BitVec.ofNat 3 (tag.toNat / 4) := by
  apply BitVec.eq_of_toNat_eq
  rw [BitVec.extractLsb'_toNat, Nat.shiftRight_eq_div_pow, BitVec.toNat_ofNat]

theorem copy1_off_eq_ofNat (tag b : Byte) :
    tag.extractLsb' 5 3 ++ b = BitVec.ofNat 11 (tag.toNat / 32 * 256 + b.toNat) := by
  have htag := tag.isLt
  have hb := b.isLt
  apply BitVec.eq_of_toNat_eq
  rw [BitVec.toNat_append, BitVec.extractLsb'_toNat, Nat.shiftRight_eq_div_pow, ← Nat.shiftLeft_add_eq_or_of_lt hb,
    Nat.shiftLeft_eq, BitVec.toNat_ofNat]
  omega

/-! ### The element encoding -/

/-- The bytes of an element stand for it. -/
theorem elementOf_encode {i : Instr} {tag : Byte} {ext : List Byte} (hw : i.wellFormed = true) (hs : i.space = .element)
    (h : encode i = tag :: ext) : elementOf tag ext = i := by
  cases i with
  | lit v =>
    have hv : v.toNat < 60 := of_decide_eq_true hw
    obtain ⟨rfl, rfl⟩ := List.cons.inj h
    rw [elementOf_lit _ (append_toNat_mod v _) (by rwa [← tagHigh_toNat, tagHigh_append]), tagHigh_append]
  | litX1 x =>
    obtain ⟨rfl, rfl⟩ := List.cons.inj h
    rw [elementOf_litX1]
    exact congrArg _ (ofNat_le_leBytes 1 x)
  | litX2 x =>
    obtain ⟨rfl, rfl⟩ := List.cons.inj h
    rw [elementOf_litX2]
    exact congrArg _ (ofNat_le_leBytes 2 x)
  | litX3 x =>
    obtain ⟨rfl, rfl⟩ := List.cons.inj h
    rw [elementOf_litX3]
    exact congrArg _ (ofNat_le_leBytes 3 x)
  | litX4 x =>
    obtain ⟨rfl, rfl⟩ := List.cons.inj h
    rw [elementOf_litX4]
    exact congrArg _ (ofNat_le_leBytes 4 x)
  | copy1 len off =>
    obtain ⟨rfl, rfl⟩ := List.cons.inj h
    rw [elementOf_copy1 _ (append_toNat_mod (_ ++ len) _), copy1_len_append, copy1_off_append,
      ofNat_le_singleton, copy1_off_halves]
  | copy2 len off =>
    obtain ⟨rfl, rfl⟩ := List.cons.inj h
    rw [elementOf_copy2 _ (append_toNat_mod len _), tagHigh_append]
    exact congrArg _ (ofNat_le_leBytes 2 off)
  | copy4 v =>
    obtain ⟨rfl, rfl⟩ := List.cons.inj h
    rw [elementOf_copy4 _ (append_toNat_mod v _), tagHigh_append]
  | compress | decompress | cmdReserved => cases hs

/-- The element of a tag and the bytes it asks for is well-formed, and encodes to them. -/
theorem encode_elementOf {tag : Byte} {ext : List Byte} (h : ext.length = extCount tag) :
    (elementOf tag ext).wellFormed = true ∧ (elementOf tag ext).space = .element ∧
      encode (elementOf tag ext) = tag :: ext := by
  rw [extCount_val] at h
  rcases tag_cases tag with ⟨ht, hv⟩ | rfl | rfl | rfl | rfl | ht | ht | ht
  · obtain rfl : ext = [] := by simpa [ht, hv] using h
    rw [elementOf_lit _ ht hv]
    refine ⟨decide_eq_true ?_, rfl, congrArg (· :: []) (tagHigh_append_of_mod ht)⟩
    rwa [tagHigh_toNat]
  · rw [elementOf_litX1]
    exact ⟨rfl, rfl, congrArg _ (leBytes_ofNat_le (k := 1) h)⟩
  · rw [elementOf_litX2]
    exact ⟨rfl, rfl, congrArg _ (leBytes_ofNat_le (k := 2) h)⟩
  · rw [elementOf_litX3]
    exact ⟨rfl, rfl, congrArg _ (leBytes_ofNat_le (k := 3) h)⟩
  · rw [elementOf_litX4]
    exact ⟨rfl, rfl, congrArg _ (leBytes_ofNat_le (k := 4) h)⟩
  · obtain ⟨b, rfl⟩ : ∃ b, ext = [b] := List.length_eq_one_iff.mp (by simpa [ht] using h)
    rw [elementOf_copy1 _ ht]
    refine ⟨rfl, rfl, ?_⟩
    rw [encode, BitVec.extractLsb'_append_eq_left, BitVec.extractLsb'_append_eq_right, copy1_fields_append ht,
      ofNat_le_singleton]
  · have h2 : ext.length = 2 := by simpa [ht] using h
    rw [elementOf_copy2 _ ht]
    exact ⟨rfl, rfl, congrArg₂ _ (tagHigh_append_of_mod ht) (leBytes_ofNat_le h2)⟩
  · obtain rfl : ext = [] := by simpa [ht] using h
    rw [elementOf_copy4 _ ht]
    exact ⟨rfl, rfl, congrArg (· :: []) (tagHigh_append_of_mod ht)⟩

/-- Bytes that begin an element are its tag, the bytes the tag asks for, and what is left. -/
theorem decode_element_eq_ok {bs rest : List Byte} {i : Instr} (h : decode .element bs = .ok (i, rest)) :
    ∃ tag ext, bs = tag :: (ext ++ rest) ∧ ext.length = extCount tag ∧ i = elementOf tag ext := by
  cases bs with
  | nil => cases h
  | cons tag bs =>
    simp only [decode, decodeElement] at h
    split_ifs at h with hlen
    cases h
    exact ⟨tag, _, by rw [List.take_append_drop], List.length_take_of_le (Nat.not_lt.mp hlen), rfl⟩

/-- Settles O6: the element read is that of a tag and the bytes it asks for. -/
theorem decodedElementIsItsBytes : Obligations.DecodedElementIsItsBytes := by
  intro bs rest i h
  obtain ⟨tag, ext, rfl, hext, rfl⟩ := decode_element_eq_ok h
  obtain ⟨hw, hs, henc⟩ := encode_elementOf hext
  exact ⟨hw, hs, by rw [henc, List.cons_append]⟩

theorem decode_element_take {tag : Byte} {bs : List Byte} {n : Nat} (hn : extCount tag = n) (h : n ≤ bs.length) :
    decode .element (tag :: bs) = .ok (elementOf tag (bs.take n), bs.drop n) := by
  subst hn
  have hdec := decode_element_cons (rest := bs.drop (extCount tag)) (List.length_take_of_le h)
  rwa [List.take_append_drop] at hdec

/-- Settles O7, form by form: the number of bytes the tag asks for, and its element. -/
theorem tagByteSelectsForm : Obligations.TagByteSelectsForm := by
  intro tag bs hlen
  refine ⟨fun ht hv => ?_, ?_, ?_, ?_, ?_, fun ht => ?_, fun ht => ?_, fun ht => ?_⟩
  · rw [decode_element_take (n := 0) (by simp [extCount_val, ht, hv]) (by omega), elementOf_lit _ ht hv, tagHigh_eq_ofNat]
    rfl
  · rintro rfl
    rw [decode_element_take (n := 1) rfl (by omega), elementOf_litX1]
  · rintro rfl
    rw [decode_element_take (n := 2) rfl (by omega), elementOf_litX2]
  · rintro rfl
    rw [decode_element_take (n := 3) rfl (by omega), elementOf_litX3]
  · rintro rfl
    rw [decode_element_take (n := 4) rfl (by omega), elementOf_litX4]
  · obtain ⟨b, bs, rfl⟩ := List.exists_cons_of_length_pos (show 0 < bs.length by omega)
    rw [decode_element_take (n := 1) (by simp [extCount_val, ht]) (by omega), elementOf_copy1 _ ht,
      List.take_succ_cons, List.take_zero, ofNat_le_singleton, le_singleton, copy1_len_eq_ofNat, copy1_off_eq_ofNat]
  · rw [decode_element_take (n := 2) (by simp [extCount_val, ht]) (by omega), elementOf_copy2 _ ht, tagHigh_eq_ofNat]
  · rw [decode_element_take (n := 0) (by simp [extCount_val, ht]) (by omega), elementOf_copy4 _ ht, tagHigh_eq_ofNat]
    rfl

/-! ### The command encoding (R23, R84) -/

theorem decode_command_append {bs : List Byte} (h : bs.length = 8) (rest : List Byte) :
    decode .command (bs ++ rest) = .ok (decodeCommand (BitVec.ofNat 64 (le bs)), rest) := by
  simp [decode, ← h]

theorem decodeCommand_of_op (op : BitVec 8) : decodeCommand (BitVec.ofNat 64 (le (leBytes 8 op.toNat))) =
    if op = 0x01#8 then .compress else if op = 0x02#8 then .decompress else .cmdReserved op := by
  have hop := op.isLt
  have hcode : (BitVec.ofNat 64 (le (leBytes 8 op.toNat))).extractLsb' 0 8 = op := by
    rw [le_leBytes, extractLsb'_byte_eq_iff, BitVec.toNat_ofNat]
    omega
  rw [decodeCommand, hcode]

theorem decodeCommand_encode {i : Instr} (hw : i.wellFormed = true) (hs : i.space = .command) :
    decodeCommand (BitVec.ofNat 64 (le (encode i))) = i := by
  cases i with
  | compress => exact decodeCommand_of_op 0x01#8
  | decompress => exact decodeCommand_of_op 0x02#8
  | cmdReserved op =>
    obtain ⟨h1, h2⟩ : op ≠ 0x01#8 ∧ op ≠ 0x02#8 := by simpa [Instr.wellFormed] using hw
    rw [encode, decodeCommand_of_op, if_neg h1, if_neg h2]
  | lit | litX1 | litX2 | litX3 | litX4 | copy1 | copy2 | copy4 => cases hs

/-! ### Both encodings -/

/-- Every instruction's encoding has the size its space and its tag give it. -/
theorem encode_headerSize (i : Instr) : Laws.HeaderSize.Statement i := by
  cases i with
  | lit v => exact Laws.HeaderSize.lit v
  | litX1 ext => exact Laws.HeaderSize.litX1 ext
  | litX2 ext => exact Laws.HeaderSize.litX2 ext
  | litX3 ext => exact Laws.HeaderSize.litX3 ext
  | litX4 ext => exact Laws.HeaderSize.litX4 ext
  | copy1 len off => exact Laws.HeaderSize.copy1 len off
  | copy2 len off => exact Laws.HeaderSize.copy2 len off
  | copy4 rest => exact Laws.HeaderSize.copy4 rest
  | compress => exact Laws.HeaderSize.compress
  | decompress => exact Laws.HeaderSize.decompress
  | cmdReserved op => exact Laws.HeaderSize.cmdReserved op

/-- Settles O5, by the instruction's encoding space. -/
theorem decodeOfEncodeIsIdentity : Obligations.DecodeOfEncodeIsIdentity := by
  intro i rest hw
  have hsize := encode_headerSize i hw
  cases hs : i.space with
  | element =>
    rw [hs] at hsize
    obtain ⟨tag, ext, henc, hext⟩ := hsize
    rw [henc, List.cons_append, decode_element_cons hext, elementOf_encode hw hs henc]
  | command =>
    rw [hs] at hsize
    rw [decode_command_append hsize, decodeCommand_encode hw hs]

/-- Settles O8, by running the decoder. -/
theorem knownEncodingsDecode : Obligations.KnownEncodingsDecode := by
  unfold Obligations.KnownEncodingsDecode
  decide

end Sys2Proof

namespace Sys2Proof.Machine

/-! ### Canonical literals (R75, R101, R103) -/

theorem encode_length_of_literal {i : Instr} {size len : Nat} (h : i.literal = some (size, len)) :
    (encode i).length = size := by
  cases i with
  | lit | litX1 | litX2 | litX3 | litX4 => cases h; rfl
  | copy1 | copy2 | copy4 | compress | decompress | cmdReserved => cases h

/-- The header size of a canonical literal of `len` bytes, R103's table. -/
def literalHeaderSize (len : Nat) : Nat :=
  if len ≤ 60 then 1 else if len ≤ 256 then 2 else if len ≤ 65536 then 3 else if len ≤ 2 ^ 24 then 4 else 5

/-- The table's bounds are the bounds of the field, which holds `len - 1`. -/
theorem literalHeaderSize_eq {len : Nat} (h : 1 ≤ len) : literalHeaderSize len =
    if len - 1 < 60 then 1 else if len - 1 < 2 ^ 8 then 2 else if len - 1 < 2 ^ 16 then 3
    else if len - 1 < 2 ^ 24 then 4 else 5 := by
  simp only [Nat.sub_lt_iff_lt_add h, Nat.lt_add_one_iff]
  rfl

theorem ofNat_pred_toNat_succ {w len : Nat} (h : 1 ≤ len) (hw : len - 1 < 2 ^ w) :
    (BitVec.ofNat w (len - 1)).toNat + 1 = len := by
  rw [BitVec.toNat_ofNat, Nat.mod_eq_of_lt hw, Nat.sub_add_cancel h]

/-- The canonical literal is the literal of the table's class, and its field holds the length. -/
theorem canonicalLiteral_spec {len : Nat} (h1 : 1 ≤ len) (h2 : len ≤ 2 ^ 32) :
    (canonicalLiteral len).wellFormed = true ∧ (canonicalLiteral len).literal = some (literalHeaderSize len, len) := by
  rw [canonicalLiteral, literalHeaderSize_eq h1, Config.inlineLitMax]
  split_ifs with hlit hx1 hx2 hx3
  · have hv := ofNat_pred_toNat_succ (w := 6) h1 (by omega)
    exact ⟨decide_eq_true (by rw [Config.inlineLitMax]; omega), by rw [Instr.literal, hv]⟩
  · exact ⟨rfl, by rw [Instr.literal, ofNat_pred_toNat_succ h1 hx1]⟩
  · exact ⟨rfl, by rw [Instr.literal, ofNat_pred_toNat_succ h1 hx2]⟩
  · exact ⟨rfl, by rw [Instr.literal, ofNat_pred_toNat_succ h1 hx3]⟩
  · exact ⟨rfl, by rw [Instr.literal, ofNat_pred_toNat_succ h1 (by omega)]⟩

/-- Settles O28: the literal's length and size give the encoding's size. -/
theorem canonicalLiteralHasItsSize : Obligations.CanonicalLiteralHasItsSize := by
  intro len h1 h2
  obtain ⟨hw, hlit⟩ := canonicalLiteral_spec h1 h2
  have hsize := encode_length_of_literal hlit
  exact ⟨hw, hsize ▸ hlit, hsize⟩

end Sys2Proof.Machine

/-! PROOFS. The statements of spec 40_tag_codec.md: the copy elements the encoder writes (R104 to R107, R112, R113), the
fetch of an element and its errors (R108 to R111, R163, R170), and of COMPRESS the short source (R123), the scan's hit
(R131 to R133) and the output bound (R138). -/

namespace Sys2Proof.Machine

/-! ### The output bound of COMPRESS (R102, R138, R190) -/

/-- The source of a running COMPRESS is shorter than the longest literal (R7, R102, R121). -/
theorem State.Scanning.srcLen_le {s : State} (hs : s.Scanning) (hlegal : s.cfg.Legal) : s.srcLen ≤ 2 ^ 32 := by
  have hmax : s.cfg.maxSrcLen ≤ 2 ^ 31 - 2 := hlegal
  have haccepted := hs.accepted
  omega

theorem Status.succeeded_word : Status.started.succeeded.word = 2 := by decide

/-- Settles O34, from every way the engine's step answers a next state: what a hit and the final flush write fits, so neither
error can be raised. -/
theorem compressOutputStaysInBound : Obligations.CompressOutputStaysInBound := by
  intro s t hi hlegal hh hp hstep
  have hsc := hi.scanning hp
  have hlen := hsc.srcLen_le hlegal
  have hlit := hsc.lit_le
  have hstarted := hi.started_of_phase (by simp [hp])
  rw [step_of_nil hh] at hstep
  cases engineStep_of_next hstep with
  | miss | hit => exact ⟨congrArg Status.err hstarted, fun hidle => by cases hp.symm.trans hidle⟩
  | hitError h e run d _ hs _ _ hr he hd =>
    have hrun := (sourceRun_eq_some.mp hr).1
    obtain ⟨h4, hend, -, -⟩ := extendMatch_eq_some he
    have hfits := hsc.hit_fits (s.comp.s - (s.table.get h - 1)) hrun h4 (by omega)
    omega
  | flush run _ _ hr =>
    have hfits : s.comp.d + (runBytes run).length ≤ 32 + s.srcLen + s.srcLen / 6 :=
      hsc.flush_fits (sourceRun_eq_some.mp hr).1
    have hstatus : (s.emitted (runBytes run)).status = Status.started := hstarted
    rw [State.completed_status, State.completed_resultLen, hstatus, BitVec.toNat_ofNat]
    exact ⟨rfl, fun _ => ⟨Status.succeeded_word, (Nat.mod_le _ _).trans hfits⟩⟩
  | flushError run d _ _ hr hd =>
    have hrun := (sourceRun_eq_some.mp hr).1
    have hfits := hsc.flush_fits hrun
    omega
  | idle hp' | elementError _ _ hp' | literal _ _ _ hp' | copy _ _ _ _ hp' | finish hp' | mismatch hp' =>
    cases hp.symm.trans hp'

/-! ### Error completion (R184) -/

/-- An error completion ends the command as R184 says, with the cause's word in STATUS. -/
theorem State.raised_failsTo (s : State) (e : ErrDetail) : s.FailsTo (s.raised e) (Status.failed e).word where
  word := rfl
  idle := rfl
  frame := by unfold State.raised; split <;> rfl
  untouched h := by simp [State.raised_mem, h]
  outside := s.raised_sameOutside e

theorem Status.failed_tagTruncated_word : (Status.failed .tagTruncated).word = 0x1226 := by decide

theorem Status.failed_copy4Unsupported_word : (Status.failed .copy4Unsupported).word = 0x1826 := by decide

/-! ### The fetch of an element (R108 to R111, R153, R163, R170) -/

theorem step_fetch {s : State} (hh : s.host = []) (hp : s.phase = .decompressing) (hs : s.dec.s < s.srcLen) :
    step s = (fetchElement s).outcome := by
  rw [step_of_nil hh, engineMove_decompressing hp, decompressMove_fetch hs]

/-- The engine's own step runs the element whose tag and extension bytes stand at the cursor. -/
theorem engineMove_run {s : State} {tag : Byte} {ext : List Byte} (hp : s.phase = .decompressing)
    (ht : s.src s.dec.s = some tag) (hx : s.dec.s + 1 + extCount tag ≤ s.srcLen)
    (he : s.srcBytes (s.dec.s + 1) (extCount tag) = some ext) : engineMove s = .run (elementOf tag ext) s := by
  rw [engineMove_decompressing hp, decompressMove_fetch (by omega), fetchElement_run ht hx he]

/-- Settles O10: with no host action and with the engine action the step is the engine's own, which runs the element. -/
theorem stepRunsElementAtCursor : Obligations.StepRunsElementAtCursor := by
  intro s rest tag ext i hp ht hx he hdec
  have hlen : ext.length = extCount tag := (Memory.readBytes_eq_some.mp he).1
  obtain rfl : elementOf tag ext = i := by cases (decode_element_exact hlen).symm.trans hdec; rfl
  constructor
  · intro hh
    rw [step_of_nil hh, engineMove_run hp ht hx he]
    rfl
  · intro hh
    have hrun : engineMove { s with host := rest } = .run (elementOf tag ext) { s with host := rest } :=
      engineMove_run hp ht hx he
    rw [step_of_cons hh, hostMove, hrun]
    rfl

theorem extCount_copy4 {tag : Byte} (h : tag.toNat % 4 = 3) : extCount tag = 0 := by simp [extCount_val, h]

theorem exec_copy4_failsTo (rest : BitVec 6) (s : State) :
    ∃ t, exec (.copy4 rest) s = .next t ∧ s.FailsTo t 0x1826 :=
  ⟨_, rfl, Status.failed_copy4Unsupported_word ▸ s.raised_failsTo .copy4Unsupported⟩

/-- Settles O16: the element of a Copy-4 tag is COPY4, and no byte after the tag is asked for. -/
theorem copy4IsAlwaysAnError : Obligations.Copy4IsAlwaysAnError := by
  refine ⟨exec_copy4_failsTo, fun s tag hh hp hs ht h3 => ?_⟩
  have hcount := extCount_copy4 h3
  have hrun : fetchElement s = .run (elementOf tag []) s := fetchElement_run ht (by omega) (by rw [hcount]; rfl)
  rw [step_fetch hh hp hs, hrun, elementOf_copy4 [] h3]
  exact exec_copy4_failsTo (tagHigh tag) s

/-- Settles O17: in each form the bytes the tag asks for pass the end of the source. -/
theorem cutElementIsTagTruncated : Obligations.CutElementIsTagTruncated := by
  intro s tag hh hp hs ht hcut
  have hx : s.srcLen < s.dec.s + 1 + extCount tag := by
    rw [extCount_val]
    rcases hcut with ⟨hlit, h60, hlt⟩ | ⟨hcopy1, hlt⟩ | ⟨hcopy2, hlt⟩
    · rwa [if_pos hlit, if_neg (Nat.not_lt.mpr h60)]
    · rwa [if_neg (by omega), if_pos hcopy1]
    · rwa [if_neg (by omega), if_neg (by omega), if_pos hcopy2]
  refine ⟨s.raised .tagTruncated, ?_, Status.failed_tagTruncated_word ▸ s.raised_failsTo _⟩
  rw [step_fetch hh hp hs, fetchElement_truncated ht hx]
  rfl

/-! ### The pieces of a copy (R104 to R107, R112, R113) -/

theorem copyPieces_zero (fuel offset : Nat) : copyPieces fuel offset 0 = [] := by cases fuel <;> simp [copyPieces]

theorem copyPieces_copy1 {offset len : Nat} (h : fitsCopy1 offset len) (fuel : Nat) :
    copyPieces (fuel + 1) offset len = [.copy1 (BitVec.ofNat 3 (len - 4)) (BitVec.ofNat 11 offset)] := by
  rw [copyPieces, if_neg (by omega), if_pos h]

theorem copyPieces_copy2 {offset len : Nat} (h0 : 0 < len) (h : ¬ fitsCopy1 offset len) (fuel : Nat) :
    copyPieces (fuel + 1) offset len =
      .copy2 (BitVec.ofNat 6 (min len 64 - 1)) (BitVec.ofNat 16 offset) :: copyPieces fuel offset (len - min len 64) := by
  rw [copyPieces, if_neg (by omega), if_neg h]
  rfl

theorem copy1_copy {offset len : Nat} (h : fitsCopy1 offset len) :
    (Instr.copy1 (BitVec.ofNat 3 (len - 4)) (BitVec.ofNat 11 offset)).copy = some (2, offset, len) := by
  obtain ⟨h4, h11, ho⟩ : 4 ≤ len ∧ len ≤ 11 ∧ offset < 2048 := h
  rw [Instr.copy, BitVec.toNat_ofNat, BitVec.toNat_ofNat, Nat.mod_eq_of_lt (by omega), Nat.mod_eq_of_lt (by omega),
    Nat.sub_add_cancel h4]

theorem copy2_copy {offset piece : Nat} (ho : offset ≤ 32767) (h1 : 1 ≤ piece) (h64 : piece ≤ 64) :
    (Instr.copy2 (BitVec.ofNat 6 (piece - 1)) (BitVec.ofNat 16 offset)).copy = some (3, offset, piece) := by
  rw [Instr.copy, ofNat_pred_toNat_succ h1 (by omega), BitVec.toNat_ofNat, Nat.mod_eq_of_lt (by omega)]

/-- Every piece is a well-formed copy of the offset, and none is empty. -/
theorem copyPieces_copy {offset : Nat} (ho : offset ≤ 32767) (fuel len : Nat) :
    ∀ i ∈ copyPieces fuel offset len, i.wellFormed = true ∧ ∃ size l, i.copy = some (size, offset, l) ∧ 1 ≤ l := by
  induction fuel generalizing len with
  | zero => simp [copyPieces]
  | succ fuel ih =>
    rcases Nat.eq_zero_or_pos len with rfl | h0
    · simp [copyPieces_zero]
    by_cases h1 : fitsCopy1 offset len
    · rw [copyPieces_copy1 h1, List.forall_mem_singleton]
      exact ⟨rfl, 2, len, copy1_copy h1, h0⟩
    · rw [copyPieces_copy2 h0 h1, List.forall_mem_cons]
      exact ⟨⟨rfl, 3, min len 64, copy2_copy ho (by omega) (by omega), by omega⟩, ih _⟩

/-- With a turn for each byte of the length, the pieces' lengths add up to it. -/
theorem copyPieces_length_sum {offset : Nat} (ho : offset ≤ 32767) {fuel len : Nat} (hf : len ≤ fuel) :
    ((copyPieces fuel offset len).map fun i => (i.copy.getD (0, 0, 0)).2.2).sum = len := by
  induction fuel generalizing len with
  | zero =>
    obtain rfl : len = 0 := by omega
    rfl
  | succ fuel ih =>
    rcases Nat.eq_zero_or_pos len with rfl | h0
    · simp [copyPieces_zero]
    by_cases h1 : fitsCopy1 offset len
    · rw [copyPieces_copy1 h1, List.map_singleton, List.sum_singleton, copy1_copy h1]
      rfl
    · rw [copyPieces_copy2 h0 h1, List.map_cons, List.sum_cons, ih (by omega), copy2_copy ho (by omega) (by omega)]
      show min len 64 + (len - min len 64) = len
      omega

/-- Settles O29, by induction on the pieces. -/
theorem copyPiecesAddUp : Obligations.CopyPiecesAddUp := fun _ len _ ho _ =>
  ⟨copyPieces_copy ho len len, copyPieces_length_sum ho (Nat.le_refl len)⟩

/-- R107's size of a copy: three bytes for each whole 64 and two or three for a remainder. -/
def copySize (offset len : Nat) : Nat :=
  3 * (len / 64) + if len % 64 = 0 then 0 else if fitsCopy1 offset (len % 64) then 2 else 3

theorem copySize_of_le {offset len : Nat} (h0 : 0 < len) (h : len < 64) :
    copySize offset len = if fitsCopy1 offset len then 2 else 3 := by
  rw [copySize, Nat.div_eq_of_lt h, Nat.mod_eq_of_lt h, if_neg (by omega), Nat.mul_zero, Nat.zero_add]

theorem copySize_add (offset len : Nat) : copySize offset (len + 64) = 3 + copySize offset len := by
  rw [copySize, copySize, Nat.add_mod_right, Nat.add_div_right len (by omega)]
  omega

/-- With a turn for each byte of the length, the pieces have R107's size. -/
theorem copyPieces_encode_length {offset fuel len : Nat} (hf : len ≤ fuel) :
    ((copyPieces fuel offset len).flatMap encode).length = copySize offset len := by
  induction fuel generalizing len with
  | zero =>
    obtain rfl : len = 0 := by omega
    rfl
  | succ fuel ih =>
    rcases Nat.eq_zero_or_pos len with rfl | h0
    · rw [copyPieces_zero]; rfl
    by_cases h1 : fitsCopy1 offset len
    · rw [copyPieces_copy1 h1, copySize_of_le h0 (by omega), if_pos h1]
      rfl
    · rw [copyPieces_copy2 h0 h1, List.flatMap_cons, List.length_append, ih (by omega)]
      show 3 + _ = _
      by_cases h64 : len < 64
      · rw [copySize_of_le h0 h64, if_neg h1, Nat.min_eq_left h64.le, Nat.sub_self]
        rfl
      · obtain ⟨k, rfl⟩ : ∃ k, len = k + 64 := ⟨len - 64, by omega⟩
        rw [copySize_add, Nat.min_eq_right (by omega), Nat.add_sub_cancel]

/-- Settles O30, by induction on the pieces; a copy of 4 to 11 bytes is its own remainder. -/
theorem copySizeIsBelowLength : Obligations.CopySizeIsBelowLength := by
  intro offset len _ _ h4
  have hlt := copyBytes_length_lt (offset := offset) h4
  refine ⟨?_, by omega⟩
  rw [copyBytes, copyPieces_encode_length (Nat.le_refl len)]
  by_cases h1 : fitsCopy1 offset len
  · rw [copySize_of_le (by omega) (by omega), if_pos h1]
    exact (if_pos h1).symm
  · exact (if_neg h1).symm

/-! ### A short source (R101, R122, R123, R186) -/

/-- A COMPRESS of at most four bytes writes the header and its run, and completes in the step that starts it. -/
theorem execCompress_short_eq {s : State} {x : List Byte} (hs : s.MayStart) (hx : s.SourceIs x) (hl : x.length ≤ 4)
    (hmax : x.length ≤ s.cfg.maxSrcLen) (hc : maxCompressedLen x.length ≤ s.regs.dstCap.toNat) :
    execCompress s = .next
      (((s.begin .compressing).emitted (leBytes 8 x.length ++ runBytes x)).completed (8 + (runBytes x).length)) := by
  obtain ⟨hlen, hsrc⟩ := hx
  have hheader : (leBytes 8 x.length).length = 8 := leBytes_length 8 _
  have hcap : 32 + x.length + x.length / 6 ≤ s.regs.dstCap.toNat := hc
  have hsize := runBytes_length_bound x
  have hkept : (s.mem.writeBytes (s.regs.dstAddr.toNat + 0) (leBytes 8 x.length)).Holds s.regs.srcAddr.toNat x :=
    hsrc.writeBytes_dst hs.legal hlen (by omega)
  rw [execCompress_accepted hs (by omega) (by rwa [hlen]), compressBody_eq rfl, State.begin_srcLen, hlen, if_pos hl,
    finalFlush_run (run := x), if_pos (by omega), State.emitted_append]
  · rfl
  · exact sourceRun_eq_some.mpr ⟨hlen.symm, fun i hi => (congrArg (State.src _) (Nat.zero_add i)).trans (hkept i hi)⟩
  · rw [State.emitted_comp, State.emitted_srcLen, State.begin_srcLen, hlen, hheader, State.begin_comp, maxCompressedLen]
    show 0 + 8 + _ ≤ _
    omega

/-- The header of a length below 256 is one byte and seven zeros (R122). -/
theorem leBytes_eight_of_lt {n : Nat} (h : n < 256) : leBytes 8 n = BitVec.ofNat 8 n :: List.replicate 7 0#8 := by
  simp [leBytes, Nat.div_eq_of_lt h, List.replicate]

/-- A run of at most sixty bytes goes behind one tag byte (R101). -/
theorem runBytes_of_le {x : List Byte} (h : x.length ≤ 60) :
    runBytes x = if x = [] then [] else BitVec.ofNat 8 (4 * (x.length - 1)) :: x := by
  have htag : ∀ m < 60, (BitVec.ofNat 6 m ++ 0b00#2 : Byte) = BitVec.ofNat 8 (4 * m) := by decide
  rw [runBytes]
  split_ifs with hx
  · rfl
  · have hpos := List.length_pos_iff.mpr hx
    have hm : x.length - 1 < 60 := by omega
    rw [canonicalLiteral, Config.inlineLitMax, if_pos hm, encode, htag _ hm]
    rfl

/-- Settles O23, from the state the start of a short COMPRESS leaves. -/
theorem compressShortInputIsOneLiteral : Obligations.CompressShortInputIsOneLiteral := by
  intro s x hs hx hl hmax hc
  refine ⟨_, leBytes 8 x.length ++ runBytes x, execCompress_short_eq hs hx hl hmax hc, ?_, Memory.holds_writeBytes _ _ _,
    Memory.sameOutside_writeBytes _ _ _, Status.succeeded_word, ?_, rfl, rfl, rfl⟩
  · rw [leBytes_eight_of_lt (by omega), runBytes_of_le (by omega)]
  · rw [State.completed_resultLen, List.length_append, leBytes_length]

/-! ### A hit of the scan (R128, R131 to R133) -/

/-- The extension ends at `e` when it passes over equal bytes up to there and is stopped there (R132). -/
theorem extendMatch_eq {src : Nat → Option Byte} {fuel s t e : Nat} (hs : s ≤ e) (he : e ≤ s + fuel)
    (heq : ∀ j, s + j < e → (src (s + j)).isSome ∧ src (s + j) = src (t + j))
    (hne : e < s + fuel → (src e).isSome ∧ (src (t + (e - s))).isSome ∧ src e ≠ src (t + (e - s))) :
    extendMatch src fuel s t = some e := by
  induction fuel generalizing s t with
  | zero => exact congrArg some (by omega)
  | succ fuel ih =>
    rcases Nat.eq_or_lt_of_le hs with rfl | hlt
    · simp only [Nat.sub_self, Nat.add_zero] at hne
      obtain ⟨hx, hy, hxy⟩ := hne (by omega)
      obtain ⟨x, hx⟩ := Option.isSome_iff_exists.mp hx
      obtain ⟨y, hy⟩ := Option.isSome_iff_exists.mp hy
      rw [hx, hy] at hxy
      simp only [extendMatch, hx, hy, if_neg fun h => hxy (congrArg some h)]
    · obtain ⟨hx, hxy⟩ := heq 0 hlt
      obtain ⟨x, hx⟩ := Option.isSome_iff_exists.mp hx
      have hy : src t = some x := hxy.symm.trans hx
      simp only [extendMatch, show src s = some x from hx, hy, if_true]
      refine ih hlt (by omega) (fun j hj => ?_) (fun h => ?_)
      · rw [Nat.add_assoc, Nat.add_assoc, Nat.add_comm 1 j]
        exact heq (j + 1) (by omega)
      · rw [show t + 1 + (e - (s + 1)) = t + (e - s) by omega]
        exact hne (by omega)

/-- Settles O32: the turn finds the match up to `e` and the pending run, and leaves the state after the hit. -/
theorem scanHitWritesRunAndCopy : Obligations.ScanHitWritesRunAndCopy := by
  intro s h e run out hh hp hs hhash hmatch h4 he heq hne hlen hrun32 hrun hout hfits
  subst hout
  have hr : sourceRun s.src s.comp.lit (s.comp.s - s.comp.lit) = some run := sourceRun_eq_some.mpr ⟨hlen, hrun⟩
  have hext : extendMatch s.src (s.srcLen - (s.comp.s + 4)) (s.comp.s + 4) (s.table.get h - 1 + 4) = some e := by
    refine extendMatch_eq h4 (by omega) (fun j hj => ?_) (fun hend => ?_)
    · have hj' := heq (s.comp.s + 4 + j) (by omega) hj
      rwa [show s.table.get h - 1 + (s.comp.s + 4 + j - s.comp.s) = s.table.get h - 1 + 4 + j by omega] at hj'
    · have hend' := hne (by omega)
      rwa [show s.table.get h - 1 + (e - s.comp.s) = s.table.get h - 1 + 4 + (e - (s.comp.s + 4)) by omega] at hend'
  have hstep := (step_scan hh hp hs).trans (scanTurn_hit hhash hmatch hr hext hrun32 hfits)
  exact ⟨_, hstep, Memory.holds_writeBytes _ _ _, Memory.sameOutside_writeBytes _ _ _,
    Table.get_put_self s.table h s.comp.s, fun g hg => Table.get_put_ne hg s.table s.comp.s, rfl, rfl, rfl, rfl, rfl⟩

end Sys2Proof.Machine

/-! PROOFS. The statements of spec 41_compressor.md: the checks of COMPRESS (R121), the table's size and the hash (R124, R126,
R127), the match test, a miss and the final flush of the scan (R128 to R136), COMPRESS as a whole (R120, R138), and its round
trip through DECOMPRESS (R142, R143, R150). -/

namespace Sys2Proof.Machine

/-! ### The checks of the start (R121, R185) -/

theorem Status.failed_srcTooLong_word : (Status.failed .srcTooLong).word = 0x0216 := by decide

theorem Status.failed_dstTooSmall_word : (Status.failed .dstTooSmall).word = 0x0316 := by decide

/-- An error raised by the start itself, before any write, turns the command down. -/
theorem State.begin_raised_rejectedTo (s : State) (p : Phase) (e : ErrDetail) :
    s.RejectedTo ((s.begin p).raised e) (Status.failed e).word where
  word := rfl
  idle := rfl
  result := State.raised_resultLen _ _
  latched := State.raised_latch _ _
  frame := by rw [State.raised, State.begin_hasWritten]; rfl

/-- Settles O22: each length fails one check, and the start is turned down. -/
theorem compressChecksLengthsInOrder : Obligations.CompressChecksLengthsInOrder := by
  intro s hs
  have hlong := s.begin_raised_rejectedTo .compressing .srcTooLong
  have hsmall := s.begin_raised_rejectedTo .compressing .dstTooSmall
  rw [Status.failed_srcTooLong_word] at hlong
  rw [Status.failed_dstTooSmall_word] at hsmall
  rcases execCompress_cases hs.free with ⟨r, hv, -⟩ | ⟨-, ⟨hlt, h⟩ | ⟨hmax, hlt, h⟩ | ⟨hmax, hcap, -⟩⟩
  · cases hs.legal.symm.trans hv
  · exact ⟨fun _ => ⟨_, h, hlong⟩, fun hle => absurd hlt (Nat.not_lt.mpr hle)⟩
  · exact ⟨fun hlt' => absurd hlt' (Nat.not_lt.mpr hmax), fun _ _ => ⟨_, h, hsmall⟩⟩
  · exact ⟨fun hlt => absurd hlt (Nat.not_lt.mpr hmax), fun _ hlt => absurd hlt (Nat.not_lt.mpr hcap)⟩

/-! ### The table's size (R124) -/

/-- The doubling keeps the size a power of two and stops at the first that is not below the length, or at the largest. -/
theorem tableParamsFrom_spec {fuel k : Nat} (len : Nat) (hk : 8 ≤ k) (hf : k + fuel = 14) (hlow : k = 8 ∨ 2 ^ (k - 1) < len) :
    ∃ j, 8 ≤ j ∧ j ≤ 14 ∧ tableParamsFrom fuel (2 ^ k) (32 - k) len = (2 ^ j, 32 - j) ∧ (len ≤ 2 ^ j ∨ j = 14) ∧
      (j = 8 ∨ 2 ^ (j - 1) < len) := by
  induction fuel generalizing k with
  | zero => exact ⟨k, hk, by omega, rfl, .inr hf, hlow⟩
  | succ fuel ih =>
    have hmax : 2 ^ k < Config.tableMax := Nat.pow_lt_pow_right (by omega) (show k < 14 by omega)
    rw [tableParamsFrom]
    split_ifs with hgrow
    · exact ih (k := k + 1) (by omega) (by omega) (.inr hgrow.2)
    · exact ⟨k, hk, by omega, rfl, .inl (by omega), hlow⟩

/-- Settles O25, from 256 on. -/
theorem tableSizeIsSmallestPower : Obligations.TableSizeIsSmallestPower := fun len =>
  tableParamsFrom_spec len (Nat.le_refl 8) rfl (.inl rfl)

/-! ### The hash (R126, R127) -/

/-- The inverse of the multiplier modulo 2^32, which is odd. -/
def hashMulInv : BitVec 32 := 0x22b54b95

theorem hashMulInv_mul : hashMulInv * Config.hashMul = 1#32 := by decide

theorem hashIndex_eq (shift : Nat) (w : BitVec 32) :
    hashIndex shift w = w.toNat * 0x1e35a7bd % 2 ^ 32 / 2 ^ shift := by
  rw [hashIndex, Nat.shiftRight_eq_div_pow, BitVec.toNat_mul]
  rfl

/-- Every product is that of some word, so every index is. -/
theorem hashIndex_surjective {shift h : Nat} (hh : h * 2 ^ shift < 2 ^ 32) : ∃ w, hashIndex shift w = h := by
  refine ⟨BitVec.ofNat 32 (h * 2 ^ shift) * hashMulInv, ?_⟩
  rw [hashIndex, BitVec.mul_assoc, hashMulInv_mul, BitVec.mul_one, BitVec.toNat_ofNat, Nat.mod_eq_of_lt hh,
    Nat.shiftRight_eq_div_pow, Nat.mul_div_cancel _ (Nat.two_pow_pos shift)]

/-- Settles O26: the table's size times the weight of the shift is 2^32. -/
theorem hashIndexesWholeTable : Obligations.HashIndexesWholeTable := by
  intro k _ hk
  have hsize : 2 ^ k * 2 ^ (32 - k) = 2 ^ 32 := by rw [← Nat.pow_add, Nat.add_sub_cancel' (by omega)]
  refine ⟨fun w => ⟨hashIndex_eq _ w, ?_⟩, fun h hh => hashIndex_surjective ?_⟩
  · rw [hashIndex_eq, Nat.div_lt_iff_lt_mul (Nat.two_pow_pos _), hsize]
    exact Nat.mod_lt _ (by decide)
  · rw [← hsize]
    exact Nat.mul_lt_mul_of_pos_right hh (Nat.two_pow_pos _)

/-- Settles O58: four bytes are below 2^32. -/
theorem hashWordIsFourSourceBytes : Obligations.HashWordIsFourSourceBytes := by
  intro s p b0 b1 b2 b3 h0 h1 h2 h3
  have hrun : sourceRun s.src p Config.minMatch = some [b0, b1, b2, b3] := by simp [Config.minMatch, sourceRun, h0, h1, h2, h3]
  refine ⟨BitVec.ofNat 32 (le [b0, b1, b2, b3]), by rw [hashWord, hrun]; rfl, ?_⟩
  rw [BitVec.toNat_ofNat, Nat.mod_eq_of_lt]
  exact (le_lt [b0, b1, b2, b3]).trans_eq (by norm_num)

/-! ### The match test (R129) -/

/-- Two runs are the same when their bytes are. -/
theorem sourceRun_same_iff {src : Nat → Option Byte} {a b n : Nat} (ha : ∀ i < n, (src (a + i)).isSome) :
    (∃ bs, sourceRun src a n = some bs ∧ sourceRun src b n = some bs) ↔ ∀ i < n, src (a + i) = src (b + i) := by
  constructor
  · rintro ⟨bs, hx, hy⟩ i hi
    obtain ⟨hlen, hx⟩ := sourceRun_eq_some.mp hx
    obtain ⟨-, hy⟩ := sourceRun_eq_some.mp hy
    rw [hx i (by omega), hy i (by omega)]
  · intro h
    obtain ⟨bs, hbs⟩ := sourceRun_isSome ha
    obtain ⟨hlen, hx⟩ := sourceRun_eq_some.mp hbs
    exact ⟨bs, hbs, sourceRun_eq_some.mpr ⟨hlen, fun i hi => by rw [← h i (by omega), hx i hi]⟩⟩

/-- Settles O27: the test reads inside the source, so it has an answer. -/
theorem matchTestIsFourEqualBytes : Obligations.MatchTestIsFourEqualBytes := by
  intro x v p hv hp
  have hread (i : Nat) (hi : i < x.length) : (x[i]?).isSome := by rwa [isSome_getElem?]
  have hcand : ∀ i < 4, (x[v - 1 + i]?).isSome := fun i hi => hread _ (by omega)
  obtain ⟨b, hb⟩ := matchTest_isSome (src := (x[·]?)) hcand (fun i hi => hread (p + i) (by omega))
  refine ⟨b, hb, ?_⟩
  have hyes : b = true ↔ matchTest (x[·]?) v p = some true := by rw [hb, Option.some.injEq]
  rw [hyes, matchTest_eq_true, Config.minMatch, Config.maxOffset, sourceRun_same_iff hcand]

/-! ### A miss, and the final flush (R128, R130, R134 to R136) -/

/-- Settles O31, from the state a miss leaves. -/
theorem scanMissEntersPosition : Obligations.ScanMissEntersPosition := fun s h hh hp hs hhash hmatch =>
  ⟨_, (step_scan hh hp hs).trans (scanTurn_miss hhash hmatch), Table.get_put_self s.table h s.comp.s,
    fun _ hg => Table.get_put_ne hg s.table s.comp.s, rfl, rfl⟩

/-- Settles O33, from the state a flush that fits leaves. -/
theorem finalFlushCompletes : Obligations.FinalFlushCompletes := by
  intro s run out hh hp hs hlen h32 hrun hout hfits
  subst hout
  have hr : sourceRun s.src s.comp.lit (s.srcLen - s.comp.lit) = some run := sourceRun_eq_some.mpr ⟨hlen, hrun⟩
  have hstep : step s = complete (s.comp.d + (runBytes run).length) (s.emitted (runBytes run)) := by
    rw [step_flush hh hp hs, finalFlush_run hr hfits, if_pos h32]
  exact ⟨_, hstep, Memory.holds_writeBytes _ _ _, Memory.sameOutside_writeBytes _ _ _, rfl, rfl, rfl, rfl⟩

/-! ### Element bytes that spell a source (R112, R113, R142)

What COMPRESS writes after its header and what DECOMPRESS reads there meet in one relation: element bytes that stand for a
stretch of the source, given the source before it. -/

/-- After the first `d` bytes of `x`, the element bytes stand for the bytes of `x` up to position `e`: a literal carries the
next ones as its data, a copy repeats them from a place before. -/
inductive Spells (x : List Byte) : Nat → List Byte → Nat → Prop
  | nil (d : Nat) : Spells x d [] d
  | literal {d e size : Nat} {i : Instr} {run bs : List Byte} (hw : i.wellFormed = true)
      (hi : i.literal = some (size, run.length)) (hx : ∀ k, (h : k < run.length) → x[d + k]? = some run[k])
      (hbs : Spells x (d + run.length) bs e) : Spells x d (encode i ++ run ++ bs) e
  | copy {d e size offset len : Nat} {i : Instr} {bs : List Byte} (hw : i.wellFormed = true)
      (hi : i.copy = some (size, offset, len)) (ho : 0 < offset) (hd : offset ≤ d)
      (hx : ∀ k < len, x[d + k]? = x[d - offset + k]?) (hbs : Spells x (d + len) bs e) : Spells x d (encode i ++ bs) e

theorem Spells.le {x bs : List Byte} {d e : Nat} (h : Spells x d bs e) : d ≤ e := by
  induction h with
  | nil => exact Nat.le_refl _
  | literal | copy => omega

theorem Spells.append {x bs cs : List Byte} {d m e : Nat} (h1 : Spells x d bs m) (h2 : Spells x m cs e) :
    Spells x d (bs ++ cs) e := by
  induction h1 with
  | nil => exact h2
  | literal hw hi hx _ ih => rw [List.append_assoc]; exact .literal hw hi hx (ih h2)
  | copy hw hi ho hd hx _ ih => rw [List.append_assoc]; exact .copy hw hi ho hd hx (ih h2)

/-- A pending run is spelled by its literal (R101, R131, R135). -/
theorem Spells.runBytes {x run : List Byte} {lit pos : Nat} (hr : sourceRun (x[·]?) lit (pos - lit) = some run)
    (hle : lit ≤ pos) (h32 : run.length ≤ 2 ^ 32) : Spells x lit (runBytes run) pos := by
  obtain ⟨hlen, hrun⟩ := sourceRun_eq_some.mp hr
  obtain rfl : pos = lit + run.length := by omega
  unfold Machine.runBytes
  split_ifs with hnil
  · subst hnil; exact .nil lit
  · obtain ⟨hw, hi⟩ := canonicalLiteral_spec (List.length_pos_iff.mpr hnil) h32
    simpa using Spells.literal hw hi hrun (.nil _)

/-- Copies of one offset that follow each other spell what one copy of their whole length does (R106, R112). -/
theorem Spells.of_copies {x : List Byte} {offset : Nat} (ho : 0 < offset) {is : List Instr}
    (his : ∀ i ∈ is, i.wellFormed = true ∧ ∃ size l, i.copy = some (size, offset, l) ∧ 1 ≤ l) {d len : Nat}
    (hlen : (is.map fun i => (i.copy.getD (0, 0, 0)).2.2).sum = len) (hd : offset ≤ d)
    (hx : ∀ k < len, x[d + k]? = x[d - offset + k]?) : Spells x d (is.flatMap encode) (d + len) := by
  induction is generalizing d len with
  | nil => subst hlen; exact .nil d
  | cons i is ih =>
    obtain ⟨hw, size, l, hi, -⟩ := his i List.mem_cons_self
    rw [List.map_cons, List.sum_cons, hi] at hlen
    subst hlen
    have hrest := ih (fun j hj => his j (List.mem_cons_of_mem _ hj)) (d := d + l) rfl (by omega) fun k hk => by
      have := hx (l + k) (by simp only [Option.getD_some]; omega)
      rwa [← Nat.add_assoc, ← Nat.add_assoc, ← Nat.sub_add_comm hd] at this
    rw [Nat.add_assoc] at hrest
    exact .copy hw hi ho hd (fun k hk => hx k (by simp only [Option.getD_some]; omega)) hrest

/-- A match is spelled by its copy (R106, R129, R132, R133). -/
theorem Spells.copyBytes {x : List Byte} {v pos e : Nat} (hv : v ≤ pos) (hm : matchTest (x[·]?) v pos = some true)
    (he : extendMatch (x[·]?) (x.length - (pos + 4)) (pos + 4) (v - 1 + 4) = some e) :
    Spells x pos (copyBytes (pos - (v - 1)) (e - pos)) e := by
  obtain ⟨hv0, hdist, bs, hb1, hb2⟩ := matchTest_eq_true.mp hm
  obtain ⟨hl1, hb1⟩ := sourceRun_eq_some.mp hb1
  obtain ⟨-, hb2⟩ := sourceRun_eq_some.mp hb2
  obtain ⟨h4, -, heq, -⟩ := extendMatch_eq_some he
  rw [Config.minMatch] at hl1
  rw [Config.maxOffset] at hdist
  have hx : ∀ k < e - pos, x[pos + k]? = x[pos - (pos - (v - 1)) + k]? := by
    intro k hk
    rw [Nat.sub_sub_self (by omega)]
    by_cases h : k < 4
    · rw [hb2 k (by omega), hb1 k (by omega)]
    · obtain ⟨b, hs, ht⟩ := heq (k - 4) (by omega)
      rw [show pos + 4 + (k - 4) = pos + k by omega] at hs
      rw [show v - 1 + 4 + (k - 4) = v - 1 + k by omega] at ht
      rw [hs, ht]
  have hspell := Spells.of_copies (by omega) (copyPieces_copy (offset := pos - (v - 1)) (by omega) (e - pos) (e - pos))
    (copyPieces_length_sum (by omega) (Nat.le_refl _)) (by omega) hx
  rwa [Nat.add_sub_cancel' (by omega)] at hspell

/-! ### The block of a source spells it (R120, R122, R138) -/

/-- Everything a turn of the scan can do. -/
theorem Scan.turn_cases {x : List Byte} {σ σ' : Scan} (h : σ.turn x = some σ') :
    ∃ g, (matchTest (x[·]?) (σ.table g) σ.pos = some false ∧ σ' = σ.miss g) ∨
      (matchTest (x[·]?) (σ.table g) σ.pos = some true ∧
        ∃ run e, sourceRun (x[·]?) σ.lit (σ.pos - σ.lit) = some run ∧
          extendMatch (x[·]?) (x.length - (σ.pos + 4)) (σ.pos + 4) (σ.table g - 1 + 4) = some e ∧ σ' = σ.hit g run e) := by
  obtain ⟨g, -, h⟩ := Option.bind_eq_some_iff.mp h
  obtain ⟨b, hm, h⟩ := Option.bind_eq_some_iff.mp h
  cases b with
  | false => cases h; exact ⟨g, .inl ⟨hm, rfl⟩⟩
  | true =>
    obtain ⟨run, hr, h⟩ := Option.bind_eq_some_iff.mp h
    obtain ⟨e, he, h⟩ := Option.map_eq_some_iff.mp h
    exact ⟨g, .inr ⟨hm, run, e, hr, he, h.symm⟩⟩

/-- What holds of a scan of `x` at every turn: its table holds scanned positions, and what it has written is the header and
elements that spell the source up to the pending run, no more than a sixth longer than that. -/
structure Scan.Sound (x : List Byte) (σ : Scan) : Prop where
  lit_le : σ.lit ≤ σ.pos
  pos_le : σ.pos ≤ x.length
  table_le : ∀ h, σ.table h ≤ σ.pos
  out : ∃ body, σ.out = leBytes 8 x.length ++ body ∧ Spells x 0 body σ.lit
  bound : σ.out.length ≤ 8 + σ.lit + σ.lit / 6

/-- The header and elements that spell all of `x`, within `max_compressed_len` of its length. -/
structure IsBlockOf (x block : List Byte) : Prop where
  elements : ∃ body, block = leBytes 8 x.length ++ body ∧ Spells x 0 body x.length
  bound : block.length ≤ maxCompressedLen x.length

theorem Scan.start_sound (x : List Byte) : (Scan.start x).Sound x where
  lit_le := Nat.le_refl 0
  pos_le := Nat.zero_le _
  table_le _ := Nat.le_refl 0
  out := ⟨[], (List.append_nil _).symm, .nil 0⟩
  bound := Nat.le_add_right_of_le (leBytes_length 8 x.length).le

namespace Scan.Sound

variable {x : List Byte} {σ : Scan}

theorem entered_le (hσ : σ.Sound x) {p : Nat} (hp : σ.pos < p) (g h : Nat) :
    Function.update σ.table g (σ.pos + 1) h ≤ p := by
  rw [Function.update_apply]
  split_ifs
  · exact hp
  · exact (hσ.table_le h).trans hp.le

theorem miss (hσ : σ.Sound x) (hp : σ.pos < x.length) (g : Nat) : (σ.miss g).Sound x :=
  { hσ with
    lit_le := Nat.le_succ_of_le hσ.lit_le
    pos_le := hp
    table_le := hσ.entered_le (Nat.lt_succ_self _) g }

theorem hit (hσ : σ.Sound x) (h32 : x.length ≤ 2 ^ 32) (hp : σ.pos + 3 < x.length) {g e : Nat} {run : List Byte}
    (hm : matchTest (x[·]?) (σ.table g) σ.pos = some true)
    (hr : sourceRun (x[·]?) σ.lit (σ.pos - σ.lit) = some run)
    (he : extendMatch (x[·]?) (x.length - (σ.pos + 4)) (σ.pos + 4) (σ.table g - 1 + 4) = some e) :
    (σ.hit g run e).Sound x := by
  have hlit := hσ.lit_le
  have hlen := (sourceRun_eq_some.mp hr).1
  obtain ⟨h4, hend, -, -⟩ := extendMatch_eq_some he
  obtain ⟨body, hout, hbody⟩ := hσ.out
  have hhit : Spells x σ.lit (hitBytes run (σ.pos - (σ.table g - 1)) (e - σ.pos)) e :=
    (Spells.runBytes hr hlit (by omega)).append (.copyBytes (hσ.table_le g) hm he)
  have hbound := hitBytes_bound (run := run) (offset := σ.pos - (σ.table g - 1)) (len := e - σ.pos) (e := e) hσ.bound
    (by omega) (by omega)
  exact
    { lit_le := Nat.le_refl e
      pos_le := show e ≤ x.length by omega
      table_le := hσ.entered_le (show σ.pos < e by omega) g
      out := ⟨_, by rw [Scan.hit, hout, List.append_assoc], hbody.append hhit⟩
      bound := List.length_append.trans_le hbound }

theorem turn (hσ : σ.Sound x) (h32 : x.length ≤ 2 ^ 32) (hp : σ.pos + 3 < x.length) {σ' : Scan}
    (h : σ.turn x = some σ') : σ'.Sound x := by
  obtain ⟨g, ⟨-, rfl⟩ | ⟨hm, run, e, hr, he, rfl⟩⟩ := Scan.turn_cases h
  · exact hσ.miss (by omega) g
  · exact hσ.hit h32 hp hm hr he

theorem flush (hσ : σ.Sound x) (h32 : x.length ≤ 2 ^ 32) {block : List Byte} (h : σ.flush x = some block) :
    IsBlockOf x block := by
  obtain ⟨run, hr, rfl⟩ := Option.map_eq_some_iff.mp h
  obtain ⟨body, hout, hbody⟩ := hσ.out
  have hle := hσ.lit_le.trans hσ.pos_le
  have hlen := (sourceRun_eq_some.mp hr).1
  have hrun := runBytes_length_bound run
  have hbound := hσ.bound
  refine ⟨⟨_, by rw [hout, List.append_assoc], hbody.append (.runBytes hr hle (by omega))⟩, ?_⟩
  rw [List.length_append, maxCompressedLen]
  omega

theorem block (hσ : σ.Sound x) (h32 : x.length ≤ 2 ^ 32) {fuel : Nat} {block : List Byte}
    (h : σ.block x fuel = some block) : IsBlockOf x block := by
  induction fuel generalizing σ with
  | zero => exact hσ.flush h32 h
  | succ fuel ih =>
    rw [Scan.block] at h
    split_ifs at h with hp
    · obtain ⟨σ', hturn, h⟩ := Option.bind_eq_some_iff.mp h
      exact ih (hσ.turn h32 hp hturn) h
    · exact hσ.flush h32 h

end Scan.Sound

theorem compressedBlock_isBlockOf {x block : List Byte} (h32 : x.length ≤ 2 ^ 32) (h : compressedBlock x = some block) :
    IsBlockOf x block := by
  rw [compressedBlock] at h
  split_ifs at h with hshort
  · cases h
    have hrun : sourceRun (x[·]?) 0 (x.length - 0) = some x :=
      sourceRun_eq_some.mpr ⟨rfl, fun i hi => by rw [Nat.zero_add]; exact List.getElem?_eq_getElem hi⟩
    have hsize := runBytes_length_bound x
    refine ⟨⟨_, rfl, .runBytes hrun (Nat.zero_le _) h32⟩, ?_⟩
    rw [List.length_append, leBytes_length, maxCompressedLen]
    omega
  · exact (Scan.start_sound x).block h32 h

/-- A block's first eight bytes give the length of its source (R122). -/
theorem IsBlockOf.header {x block : List Byte} (h : IsBlockOf x block) (hx : x.length < 2 ^ 64) :
    8 ≤ block.length ∧ (block.take 8).length = 8 ∧ le (block.take 8) = x.length := by
  obtain ⟨⟨body, rfl, -⟩, -⟩ := h
  have hlen : (leBytes 8 x.length).length = 8 := leBytes_length 8 _
  rw [List.take_append_of_le_length hlen.ge, List.take_of_length_le hlen.le, le_leBytes, List.length_append, hlen]
  exact ⟨Nat.le_add_right 8 _, rfl, Nat.mod_eq_of_lt hx⟩

/-! ### What a whole command leaves unchanged (R52, R53) -/

theorem EngineStep.host_eq {s t : State} (h : EngineStep s t) : t.host = s.host := by
  cases h with
  | idle | miss | hit | flush | literal | copy | finish => rfl
  | hitError | flushError | elementError | mismatch => exact State.raised_host _ _

theorem EngineStep.latch_eq {s t : State} (h : EngineStep s t) : t.latch = s.latch := by
  cases h with
  | idle | miss | hit | flush | literal | copy | finish => rfl
  | hitError | flushError | elementError | mismatch => exact State.raised_latch _ _

/-- A command written to a free engine latches the buffer registers and leaves the host's actions (R181). -/
theorem CommandStep.latch_host_eq {s t : State} (h : CommandStep s t) (hb : s.status.busy = false) :
    t.latch = s.regs ∧ t.host = s.host := by
  cases h with
  | ignored hbusy => cases hb.symm.trans hbusy
  | reserved | rejected => exact ⟨State.raised_latch _ _, State.raised_host _ _⟩
  | flush | compress | decompress => exact ⟨rfl, rfl⟩

theorem State.run_succ_eq_next {s t : State} {k : Nat} (h : s.run (k + 1) = .next t) :
    ∃ u, step s = .next u ∧ u.run k = .next t := by
  rw [State.run] at h
  split at h
  · exact ⟨_, ‹_›, h⟩
  · cases h
  · cases h

/-- With no host action, a run changes the latched destination window alone. -/
theorem State.Inv.run_writesOnlyDst {s t : State} (hi : s.Inv) (hh : s.host = []) {k : Nat} (h : s.run k = .next t) :
    s.latch.WritesOnlyDst s.mem t.mem := by
  induction k generalizing s with
  | zero => cases h; exact Memory.sameOutside_refl _ _ _
  | succ k ih =>
    obtain ⟨u, hu, h⟩ := State.run_succ_eq_next h
    have he := engineStep_of_next ((step_of_nil hh).symm.trans hu)
    have hrest := ih (he.inv hi) (he.host_eq.trans hh) h
    rw [he.latch_eq] at hrest
    exact fun a ha => (hrest a ha).trans (he.writesOnlyDst hi a ha)

/-- A COMPRESS and the engine's steps after it change the destination window of the buffer registers alone. -/
theorem compress_writesOnlyDst {s u t : State} {k : Nat} (hi : s.Inv) (hs : s.MayStart) (hh : s.host = [])
    (hu : exec .compress s = .next u) (ht : u.RestsIn k t) : s.regs.WritesOnlyDst s.mem t.mem := by
  have hc := commandStep_compress hu
  obtain ⟨hlatch, hhost⟩ := hc.latch_host_eq hs.free
  obtain ⟨j, -, hrun, -⟩ := ht
  have hrest := (hc.inv hi).run_writesOnlyDst (hhost.trans hh) hrun
  rw [hlatch] at hrest
  exact fun a ha => (hrest a ha).trans (hc.writesOnlyDst a ha)

/-- An accepted source is shorter than the longest literal (R7, R102, R121). -/
theorem length_le_of_accepted {p : Config.Params} (hlegal : p.Legal) {x : List Byte} (hmax : x.length ≤ p.maxSrcLen) :
    x.length ≤ 2 ^ 32 := by
  have : p.maxSrcLen ≤ 2 ^ 31 - 2 := hlegal
  omega

/-- Settles O53: COMPRESS delivers the block of its source, which spells it within the bound, and the start and the engine's
steps write in the destination window alone. -/
theorem compressRunsToSuccess : Obligations.CompressRunsToSuccess := by
  intro s x hi hs hlegal hh hx hmax hc
  have h32 := length_le_of_accepted hlegal hmax
  obtain ⟨block, u, t, hblock, hu, ht, hdel⟩ := compress_delivers hi hs hlegal hh hx hmax hc
  have hb := compressedBlock_isBlockOf h32 hblock
  obtain ⟨h8, -, hlen⟩ := hb.header (by omega)
  refine ⟨u, t, block, hu, ht, hdel.word, hdel.result, h8, hb.bound, hlen, hdel.holds, fun a ha => ?_⟩
  by_contra hne
  cases ha.symm.trans ((compress_writesOnlyDst hi hs hh hu ht).inDst hne)

/-! ### Bytes held in parts (R11) -/

theorem Memory.Holds.left {m : Memory} {a : Nat} {xs ys : List Byte} (h : m.Holds a (xs ++ ys)) : m.Holds a xs := by
  intro i hi
  rw [h i (by rw [List.length_append]; omega), List.getElem_append_left hi]

theorem Memory.Holds.right {m : Memory} {a : Nat} {xs ys : List Byte} (h : m.Holds a (xs ++ ys)) :
    m.Holds (a + xs.length) ys := by
  intro i hi
  rw [Nat.add_assoc, h (xs.length + i) (by rw [List.length_append]; omega), List.getElem_append_right (by omega)]
  simp

/-! ### The elements of a DECOMPRESS run (R150, R153 to R162) -/

theorem space_of_literal {i : Instr} {size len : Nat} (h : i.literal = some (size, len)) : i.space = .element := by
  cases i with
  | lit | litX1 | litX2 | litX3 | litX4 => rfl
  | copy1 | copy2 | copy4 | compress | decompress | cmdReserved => cases h

theorem space_of_copy {i : Instr} {size offset len : Nat} (h : i.copy = some (size, offset, len)) : i.space = .element := by
  cases i with
  | copy1 | copy2 => rfl
  | lit | litX1 | litX2 | litX3 | litX4 | copy4 | compress | decompress | cmdReserved => cases h

theorem encode_length_of_copy {i : Instr} {size offset len : Nat} (h : i.copy = some (size, offset, len)) :
    (encode i).length = size ∧ 0 < size := by
  cases i with
  | copy1 | copy2 => cases h; exact ⟨rfl, by decide⟩
  | lit | litX1 | litX2 | litX3 | litX4 | copy4 | compress | decompress | cmdReserved => cases h

/-- A literal whose checks pass leaves the memory its copy loop leaves (R154). -/
theorem exec_literal_eq {i : Instr} {size len : Nat} {s : State} {m : Memory} (hi : i.literal = some (size, len))
    (hn : s.dec.d + len ≤ s.dec.n) (hs : s.dec.s + size + len ≤ s.srcLen)
    (hc : s.mem.copyUp (s.srcAddr (s.dec.s + size)) (s.dstAddr s.dec.d) len = some m) :
    exec i s = .next ((s.pastHeader size).afterLiteral m len) := by
  rw [(exec_literal hi s).1, literalElement]
  rcases literalAt_cases len (s.pastHeader size) with ⟨h, -⟩ | ⟨-, h, -⟩ | ⟨-, -, ⟨h, -⟩ | ⟨m', h, heq⟩⟩
  · simp only [State.pastHeader_dec] at h; omega
  · simp only [State.pastHeader_dec, State.pastHeader_srcLen] at h; omega
  · cases hc.symm.trans h
  · cases hc.symm.trans h; exact heq

/-- A copy whose checks pass leaves the memory its copy loop leaves (R160). -/
theorem exec_copy_eq {i : Instr} {size offset len : Nat} {s : State} {m : Memory} (hi : i.copy = some (size, offset, len))
    (ho : 0 < offset) (hd : offset ≤ s.dec.d) (hn : s.dec.d + len ≤ s.dec.n)
    (hc : s.mem.copyUp (s.dstAddr (s.dec.d - offset)) (s.dstAddr s.dec.d) len = some m) :
    exec i s = .next ((s.pastHeader size).afterCopy m len) := by
  rw [(exec_copy hi s).1, copyElement]
  rcases copyAt_cases offset len (s.pastHeader size) with
    ⟨h, -⟩ | ⟨-, h, -⟩ | ⟨-, -, h, -⟩ | ⟨-, -, -, ⟨h, -⟩ | ⟨m', h, heq⟩⟩
  · omega
  · simp only [State.pastHeader_dec] at h; omega
  · simp only [State.pastHeader_dec] at h; omega
  · cases hc.symm.trans h
  · cases hc.symm.trans h; exact heq

/-- The end of the source with the declared length produced is success (R165, R166). -/
theorem step_finish {s : State} (hh : s.host = []) (hp : s.phase = .decompressing) (hs : s.srcLen ≤ s.dec.s)
    (hn : s.dec.d = s.dec.n) : step s = .next (s.completed s.dec.n) := by
  rw [step_of_nil hh, engineMove_decompressing hp, decompressMove_end hs, finishDecompress, if_neg (not_not.mpr hn)]
  rfl

/-- A range of the source window and one of the destination window share no address (R54 (b)). -/
theorem State.Inv.ranges_disjoint {s : State} (hi : s.Inv) (hb : s.status.busy = true) {i j len : Nat}
    (hs : i + len ≤ s.srcLen) (hd : j + len ≤ s.dstCap) :
    s.srcAddr i + len ≤ s.dstAddr j ∨ s.dstAddr j + len ≤ s.srcAddr i := by
  have hmeet := Buffers.not_meet_of_legal (hi.windows hb)
  simp only [State.srcLen, State.dstCap] at hs hd
  simp only [State.srcAddr, State.dstAddr]
  omega

theorem State.RestsIn.mono {s t : State} {j k : Nat} (h : s.RestsIn j t) (hjk : j ≤ k) : s.RestsIn k t := by
  obtain ⟨l, hl, hrest⟩ := h
  exact ⟨l, hl.trans hjk, hrest⟩

/-! ### A decompressing machine over a block (R143, R150) -/

/-- The machine `s` decompresses `block` into `x`: it stands at position `p` of the block, and has produced the first `d`
bytes of `x`. -/
structure State.Replays (s : State) (block x : List Byte) (p d : Nat) : Prop where
  inv : s.Inv
  host : s.host = []
  phase : s.phase = .decompressing
  len : s.srcLen = block.length
  source : s.mem.Holds s.latch.srcAddr.toNat block
  dec : s.dec = { s := p, d := d, n := x.length }
  out : ∀ k < d, s.mem.read (s.dstAddr k) = x[k]?

namespace State.Replays

variable {s : State} {block x : List Byte} {p d : Nat}

theorem dec_s (hr : s.Replays block x p d) : s.dec.s = p := congrArg DecCursors.s hr.dec

theorem dec_d (hr : s.Replays block x p d) : s.dec.d = d := congrArg DecCursors.d hr.dec

theorem dec_n (hr : s.Replays block x p d) : s.dec.n = x.length := congrArg DecCursors.n hr.dec

theorem busy (hr : s.Replays block x p d) : s.status.busy = true := hr.inv.busy_of_phase (by simp [hr.phase])

/-- A step that goes on decompressing keeps the block in its window (R51). -/
theorem next (hr : s.Replays block x p d) {t : State} (h : step s = .next t) (hp : t.phase = .decompressing) {p' d' : Nat}
    (hdec : t.dec = { s := p', d := d', n := x.length }) (hout : ∀ k < d', t.mem.read (s.dstAddr k) = x[k]?) :
    t.Replays block x p' d' := by
  have he := engineStep_of_next ((step_of_nil hr.host).symm.trans h)
  have hlatch := he.latch_eq
  have hlen : s.latch.srcLen.toNat = block.length := hr.len
  have hsource : t.mem.Holds s.latch.srcAddr.toNat block := fun i hi => by
    rw [← hr.source i hi]
    exact sourceKeptDuringCommand s t _ hr.inv hr.busy (Buffers.inSrc_eq_true.mpr ⟨by omega, by omega⟩) h
  exact
    { inv := he.inv hr.inv
      host := he.host_eq.trans hr.host
      phase := hp
      len := by rw [State.srcLen, hlatch, hlen]
      source := hlatch ▸ hsource
      dec := hdec
      out := fun k hk => by rw [State.dstAddr, hlatch]; exact hout k hk }

/-- The bytes of the block from the position on stand in the source window. -/
theorem holds_rest (hr : s.Replays block x p d) {bs : List Byte} (hp : p ≤ block.length) (hb : block.drop p = bs) :
    s.mem.Holds (s.srcAddr p) bs := by
  have hall := hr.source
  rw [← List.take_append_drop p block, hb] at hall
  have hrest := hall.right
  rwa [List.length_take_of_le hp] at hrest

/-- The step runs the element whose encoding stands at the position (R108 to R111, R153). -/
theorem step_eq_exec (hr : s.Replays block x p d) {i : Instr} {rest : List Byte} (hw : i.wellFormed = true)
    (hsp : i.space = .element) (hb : block.drop p = encode i ++ rest) : step s = exec i s := by
  have hsize := encode_headerSize i hw
  rw [hsp] at hsize
  obtain ⟨tag, ext, henc, hext⟩ := hsize
  have hlen : block.length - p = ext.length + 1 + rest.length := by
    rw [← List.length_drop, hb, henc, List.length_append, List.length_cons]
  have hm := (hr.holds_rest (by omega) hb).left
  rw [henc] at hm
  have hs := hr.dec_s
  have htag : s.src s.dec.s = some tag := by rw [hs]; exact hm 0 (Nat.succ_pos _)
  have hbytes : s.srcBytes (s.dec.s + 1) (extCount tag) = some ext := by
    rw [hs, ← hext]
    exact (Memory.Holds.right (xs := [tag]) hm).readBytes
  rw [step_of_nil hr.host, engineMove_run hr.phase htag (by rw [hs, hr.len]; omega) hbytes, elementOf_encode hw hsp henc]
  rfl

/-- An element's own bytes complete the output, where it leaves what was produced before it. -/
theorem out_extend (hr : s.Replays block x p d) {m : Memory} {len : Nat} (hm : m.SameOutside s.mem (s.dstAddr d) len)
    (hnew : ∀ k < len, (∀ j < d + k, m.read (s.dstAddr j) = x[j]?) → m.read (s.dstAddr d + k) = x[d + k]?) :
    ∀ k < d + len, m.read (s.dstAddr k) = x[k]? := by
  intro k
  induction k using Nat.strong_induction_on with
  | _ k ih =>
    intro hk
    by_cases hd : k < d
    · exact (hm _ (.inl (Nat.add_lt_add_left hd _))).trans (hr.out k hd)
    · obtain ⟨j, rfl⟩ : ∃ j, k = d + j := ⟨k - d, by omega⟩
      rw [State.dstAddr, ← Nat.add_assoc]
      exact hnew j (by omega) fun l hl => ih l hl (by omega)

/-- The literal at the position produces its data (R154 to R159). -/
theorem literal (hr : s.Replays block x p d) {i : Instr} {size : Nat} {run rest : List Byte} (hw : i.wellFormed = true)
    (hi : i.literal = some (size, run.length)) (hx : ∀ k, (h : k < run.length) → x[d + k]? = some run[k])
    (hn : d + run.length ≤ x.length) (hb : block.drop p = encode i ++ run ++ rest) :
    ∃ t, step s = .next t ∧ t.latch = s.latch ∧ t.Replays block x (p + size + run.length) (d + run.length) := by
  have hpos := (exec_literal hi s).2
  have hsize := encode_length_of_literal hi
  have hlen : block.length - p = size + run.length + rest.length := by
    rw [← List.length_drop, hb, List.length_append, List.length_append, hsize]
  have hdata : s.mem.Holds (s.srcAddr (p + size)) run := by
    have hm := (hr.holds_rest (by omega) hb).left.right
    rwa [hsize, State.srcAddr, Nat.add_assoc] at hm
  have hs := hr.dec_s
  have hd := hr.dec_d
  have hdn := hr.dec_n
  have hend : p + size + run.length ≤ s.srcLen := by rw [hr.len]; omega
  have hcap : d + run.length ≤ s.dstCap := le_trans (by omega) (hr.inv.decoding hr.phase).n_le
  obtain ⟨m, hc⟩ := Memory.copyUp_isSome_of_readable (m := s.mem) (dst := s.dstAddr d) fun k hk => by rw [hdata k hk]; rfl
  have hexec := exec_literal_eq (s := s) hi (by omega) (by omega) (by rw [hs, hd]; exact hc)
  have hstep := (hr.step_eq_exec hw (space_of_literal hi) (by rw [hb, List.append_assoc])).trans hexec
  refine ⟨_, hstep, rfl, hr.next hstep hr.phase ?_ (hr.out_extend (Memory.sameOutside_copyUp hc) fun k hk _ => ?_)⟩
  · rw [State.afterLiteral_dec, State.pastHeader_dec, hr.dec]
  · rw [State.afterLiteral_mem, Memory.copyUp_read_disjoint hc (hr.inv.ranges_disjoint hr.busy hend hcap) hk, hdata k hk,
      hx k hk]

/-- The copy at the position repeats what was produced before (R160 to R162). -/
theorem copy (hr : s.Replays block x p d) {i : Instr} {size offset len : Nat} {rest : List Byte} (hw : i.wellFormed = true)
    (hi : i.copy = some (size, offset, len)) (ho : 0 < offset) (hle : offset ≤ d)
    (hx : ∀ k < len, x[d + k]? = x[d - offset + k]?) (hn : d + len ≤ x.length) (hb : block.drop p = encode i ++ rest) :
    ∃ t, step s = .next t ∧ t.latch = s.latch ∧ t.Replays block x (p + size) (d + len) := by
  have hd := hr.dec_d
  have hdn := hr.dec_n
  have hback : s.dstAddr (d - offset) < s.dstAddr d := Nat.add_lt_add_left (by omega) _
  obtain ⟨m, hc⟩ := Memory.copyUp_isSome (m := s.mem) (len := len) hback fun k _ hlt => by
    have hk : d - offset + k < d := by simp only [State.dstAddr] at hlt; omega
    have hwritten := (hr.inv.decoding hr.phase).written (d - offset + k) (by rwa [hd])
    rwa [State.dstAddr, ← Nat.add_assoc] at hwritten
  have hexec := exec_copy_eq (s := s) hi ho (by omega) (by omega) (by rw [hd]; exact hc)
  have hstep := (hr.step_eq_exec hw (space_of_copy hi) hb).trans hexec
  refine ⟨_, hstep, rfl, hr.next hstep hr.phase ?_ (hr.out_extend (Memory.sameOutside_copyUp hc) fun k hk hbefore => ?_)⟩
  · rw [State.afterCopy_dec, State.pastHeader_dec, hr.dec]
  · rw [State.afterCopy_mem, Memory.copyUp_read_inside hc hback hk, State.dstAddr, Nat.add_assoc, hx k hk]
    exact hbefore _ (by omega)

/-- At the end of the block, with `x` produced, the command delivers it. -/
theorem finish (hr : s.Replays block x p x.length) (hb : block.drop p = []) :
    ∃ t, step s = .next t ∧ t.phase = .idle ∧ t.Delivers s.latch.dstAddr.toNat x := by
  have hs := hr.dec_s
  have hd := hr.dec_d
  have hdn := hr.dec_n
  have hend : s.srcLen ≤ s.dec.s := by rw [hr.len, hs]; exact List.drop_eq_nil_iff.mp hb
  refine ⟨_, step_finish hr.host hr.phase hend (hd.trans hdn.symm), rfl, ?_, ?_, fun k hk => ?_⟩
  · rw [State.completed_status, hr.inv.started_of_phase (by simp [hr.phase]), Status.succeeded_word]
  · rw [State.completed_resultLen, hdn]
  · exact (hr.out k hk).trans (List.getElem?_eq_getElem hk)

/-- A machine before element bytes that spell the rest of `x` delivers `x`, at most a step for each byte and one for the
end. -/
theorem delivers {bs : List Byte} {e : Nat} (hspell : Spells x d bs e) (he : e = x.length) (hr : s.Replays block x p d)
    (hb : block.drop p = bs) : ∃ t, s.RestsIn (bs.length + 1) t ∧ t.Delivers s.latch.dstAddr.toNat x := by
  induction hspell generalizing s p with
  | nil d =>
    subst he
    obtain ⟨t, ht, hidle, hdel⟩ := hr.finish hb
    exact ⟨t, .of_step ht (.of_idle hidle 0), hdel⟩
  | @literal d e size i run bs hw hi hx hbs ih =>
    obtain ⟨u, hu, hlatch, hru⟩ := hr.literal hw hi hx (he ▸ hbs.le) hb
    have hrest : block.drop (p + size + run.length) = bs := by
      rw [Nat.add_assoc, ← List.drop_drop, hb, ← encode_length_of_literal hi, ← List.length_append, List.drop_left]
    obtain ⟨t, ht, hdel⟩ := ih he hru hrest
    rw [hlatch] at hdel
    refine ⟨t, (State.RestsIn.of_step hu ht).mono ?_, hdel⟩
    have hpos := (exec_literal hi s).2
    rw [List.length_append, List.length_append]
    omega
  | @copy d e size offset len i bs hw hi ho hd hx hbs ih =>
    obtain ⟨u, hu, hlatch, hru⟩ := hr.copy hw hi ho hd hx (he ▸ hbs.le) hb
    obtain ⟨hsize, hpos⟩ := encode_length_of_copy hi
    have hrest : block.drop (p + size) = bs := by rw [← List.drop_drop, hb, ← hsize, List.drop_left]
    obtain ⟨t, ht, hdel⟩ := ih he hru hrest
    rw [hlatch] at hdel
    refine ⟨t, (State.RestsIn.of_step hu ht).mono ?_, hdel⟩
    rw [List.length_append]
    omega

end State.Replays

/-- DECOMPRESS of a block of `x` delivers `x` (R143). -/
theorem decompress_delivers {s : State} {block x : List Byte} (hblock : IsBlockOf x block) (hx : x.length < 2 ^ 64)
    (hi : s.Inv) (hs : s.MayStart) (hh : s.host = []) (hsrc : s.SourceIs block) (hcap : x.length ≤ s.regs.dstCap.toNat) :
    ∃ u t, exec .decompress s = .next u ∧ u.RestsIn (block.length + 1) t ∧ t.Delivers s.regs.dstAddr.toNat x := by
  obtain ⟨h8, hhd, hle⟩ := hblock.header hx
  obtain ⟨⟨body, hbody, hspell⟩, -⟩ := hblock
  obtain ⟨hlen, hsource⟩ := hsrc
  have hheader : s.mem.Holds s.regs.srcAddr.toNat (block.take 8) :=
    Memory.Holds.left (ys := block.drop 8) (by rwa [List.take_append_drop])
  have hexec := execDecompress_ready hs (by omega) hhd hheader (by omega)
  rw [hle] at hexec
  have hr : (s.decodeReady x.length).Replays block x 8 0 :=
    { inv := hi.decodeReady hs.legal (by omega) hcap
      host := hh
      phase := rfl
      len := hlen
      source := hsource
      dec := rfl
      out := fun k hk => absurd hk (Nat.not_lt_zero k) }
  have hrest : block.drop 8 = body := by rw [hbody]; exact List.drop_left' (leBytes_length 8 x.length)
  obtain ⟨t, ht, hdel⟩ := State.Replays.delivers hspell rfl hr hrest
  exact ⟨_, t, hexec, ht.mono (by rw [hbody, List.length_append]; omega), hdel⟩

/-- Settles O55: the block COMPRESS delivers spells its source, and DECOMPRESS of such a block delivers the source. -/
theorem decompressUndoesCompress : Obligations.DecompressUndoesCompress := by
  intro s x hi hs hlegal hh hx hmax hc
  have h32 := length_le_of_accepted hlegal hmax
  obtain ⟨block, u, t, hblock, hu, ht, hdel⟩ := compress_delivers hi hs hlegal hh hx hmax hc
  have hb := compressedBlock_isBlockOf h32 hblock
  refine ⟨u, t, block, hu, ht, hdel.word, hdel.result, hdel.holds, fun v hvi hvs hvh hvsrc hvcap => ?_⟩
  obtain ⟨w, z, hw, hz, hzdel⟩ := decompress_delivers hb (by omega) hvi hvs hvh hvsrc hvcap
  exact ⟨w, z, hw, hz, hzdel.word, hzdel.result, hzdel.holds⟩

end Sys2Proof.Machine

/-! PROOFS. The statements of spec 42_decompressor.md: the checks of DECOMPRESS on its header (R151, R152), its literal and
copy elements (R154 to R162), the length check at the end of the source (R165, R166), and what its steps write (R167). -/

namespace Sys2Proof.Machine

/-! ### The checks of the start (R151, R152, R185) -/

/-- Settles O20: a short source fails the first check, a longer one whose header is read fails the second. -/
theorem decompressChecksHeader : Obligations.DecompressChecksHeader := by
  intro s hs
  have hrejected := s.begin_raised_rejectedTo .decompressing
  rcases execDecompress_cases hs.free with ⟨r, hv, -⟩ | ⟨-, ⟨hshort, h⟩ | ⟨hlong, hheader⟩⟩
  · cases hs.legal.symm.trans hv
  · exact ⟨fun _ => ⟨_, h, hrejected .headerTruncated⟩, fun _ hlong => absurd hshort (Nat.not_lt.mpr hlong)⟩
  · refine ⟨fun hshort => absurd hshort (Nat.not_lt.mpr hlong), fun hd _ h8 hm hcap => ?_⟩
    have hread : s.mem.readBytes s.regs.srcAddr.toNat 8 = some hd := h8 ▸ hm.readBytes
    rcases hheader with ⟨hnone, -⟩ | ⟨hd', hsome, ⟨-, h⟩ | ⟨hle, -⟩⟩
    · cases hread.symm.trans hnone
    · exact ⟨_, h, hrejected .declaredLenTooBig⟩
    · cases hread.symm.trans hsome
      omega

/-! ### An error of an element (R184, R185) -/

/-- An error raised past an element's header ends the command as one raised at the element: only the cursor differs, which no
rule reads in IDLE. -/
theorem State.pastHeader_raised_failsTo (s : State) (k : Nat) (e : ErrDetail) :
    s.FailsTo ((s.pastHeader k).raised e) (Status.failed e).word :=
  have h := (s.pastHeader k).raised_failsTo e
  { h with frame := congrArg (fun t : State => { t with dec := s.dec }) h.frame }

/-! ### The literal elements (R154 to R159) -/

theorem literalAt_dstOverrun (s : State) {len : Nat} (hn : s.dec.n - s.dec.d < len) :
    literalAt len s = .next (s.raised .litDstOverrun) := if_pos hn

theorem literalAt_srcOverrun (s : State) {len : Nat} (hn : len ≤ s.dec.n - s.dec.d) (hs : s.srcLen - s.dec.s < len) :
    literalAt len s = .next (s.raised .litSrcOverrun) := by
  rw [literalAt, if_neg (Nat.not_lt.mpr hn), if_pos hs, raise_eq]

/-- Settles O13: each check that fails raises its error past the header. -/
theorem literalElementsCheckInOrder : Obligations.LiteralElementsCheckInOrder := by
  intro i hsize len s hi
  obtain ⟨hexec, hpos⟩ := exec_literal hi s
  have hfails := s.pastHeader_raised_failsTo hsize
  rw [show exec i s = literalAt len (s.pastHeader hsize) from hexec]
  refine ⟨fun hn => ⟨_, literalAt_dstOverrun (s.pastHeader hsize) hn, hfails .litDstOverrun⟩,
    fun hn hs => ⟨_, literalAt_srcOverrun (s.pastHeader hsize) hn ?_, hfails .litSrcOverrun⟩⟩
  show s.srcLen - (s.dec.s + hsize) < len
  omega

theorem State.srcAddr_add (s : State) (i k : Nat) : s.srcAddr (i + k) = s.srcAddr i + k := (Nat.add_assoc _ i k).symm

theorem State.dstAddr_add (s : State) (i k : Nat) : s.dstAddr (i + k) = s.dstAddr i + k := (Nat.add_assoc _ i k).symm

/-- Settles O12, from what a copy between ranges that do not meet leaves in memory. -/
theorem literalElementsCopyTheirData : Obligations.LiteralElementsCopyTheirData := by
  intro i hsize len s hi hn hs hdisjoint hdata
  have hpos := (exec_literal hi s).2
  simp only [State.src, State.srcAddr_add s (s.dec.s + hsize)] at hdata ⊢
  obtain ⟨m, hc⟩ := Memory.copyUp_isSome_of_readable (dst := s.dstAddr s.dec.d) hdata
  refine ⟨_, exec_literal_eq hi (by omega) hs hc, fun k hk => ?_, Memory.sameOutside_copyUp hc, rfl, rfl⟩
  rw [State.dstAddr_add]
  exact Memory.copyUp_read_disjoint hc hdisjoint hk

/-! ### The copy elements (R160 to R162) -/

theorem copyAt_offsetZero (s : State) (len : Nat) : copyAt 0 len s = .next (s.raised .copyOffsetZero) := rfl

theorem copyAt_offsetBeforeStart (s : State) {offset : Nat} (ho : 0 < offset) (hd : s.dec.d < offset) (len : Nat) :
    copyAt offset len s = .next (s.raised .copyOffsetBeforeStart) := by
  rw [copyAt, if_neg ho.ne', if_pos hd, raise_eq]

theorem copyAt_dstOverrun (s : State) {offset len : Nat} (ho : 0 < offset) (hd : offset ≤ s.dec.d)
    (hn : s.dec.n < s.dec.d + len) : copyAt offset len s = .next (s.raised .copyDstOverrun) := by
  rw [copyAt, if_neg ho.ne', if_neg (Nat.not_lt.mpr hd), if_pos hn, raise_eq]

/-- Settles O15: each check that fails raises its error past the header. -/
theorem copyElementsCheckInOrder : Obligations.CopyElementsCheckInOrder := by
  intro i size offset len s hi
  have hfails := s.pastHeader_raised_failsTo size
  rw [show exec i s = copyAt offset len (s.pastHeader size) from (exec_copy hi s).1]
  refine ⟨?_, fun ho hd => ⟨_, copyAt_offsetBeforeStart (s.pastHeader size) ho hd len, hfails .copyOffsetBeforeStart⟩,
    fun ho hd hn => ⟨_, copyAt_dstOverrun (s.pastHeader size) ho hd hn, hfails .copyDstOverrun⟩⟩
  rintro rfl
  exact ⟨_, copyAt_offsetZero (s.pastHeader size) len, hfails .copyOffsetZero⟩

/-- A copy to `offset` bytes above its source repeats the `offset` bytes between, with period `offset` (R160): a byte of the
first period comes from below the destination, every other one from a period before. -/
theorem Memory.copyUp_read_periodic {m m' : Memory} {src offset len k : Nat} (h : m.copyUp src (src + offset) len = some m')
    (ho : 0 < offset) (hk : k < len) : m'.read (src + offset + k) = m.read (src + k % offset) := by
  induction k using Nat.strong_induction_on with
  | _ k ih =>
    rw [Memory.copyUp_read_inside h (by omega) hk]
    by_cases hfirst : k < offset
    · rw [Nat.mod_eq_of_lt hfirst]
      exact Memory.copyUp_read_outside h (.inl (by omega))
    · have hback := ih (k - offset) (by omega) (by omega)
      rwa [show src + offset + (k - offset) = src + k by omega, ← Nat.mod_eq_sub_mod (by omega)] at hback

/-- Settles O14, from the period of the copy loop. -/
theorem copyElementsReplayWithPeriod : Obligations.CopyElementsReplayWithPeriod := by
  intro i size offset len s hi ho hd hn hwritten
  have hdst : s.dstAddr s.dec.d = s.dstAddr (s.dec.d - offset) + offset := by
    rw [← State.dstAddr_add, Nat.sub_add_cancel hd]
  obtain ⟨m, hc⟩ := Memory.copyUp_isSome (m := s.mem) (src := s.dstAddr (s.dec.d - offset)) (dst := s.dstAddr s.dec.d)
    (len := len) (by omega) fun k _ hlt => by
      rw [← State.dstAddr_add]
      exact hwritten k (by omega)
  refine ⟨_, exec_copy_eq hi ho hd hn hc, fun k hk => ?_, Memory.sameOutside_copyUp hc, rfl, rfl⟩
  rw [hdst] at hc
  rw [State.dstAddr_add, State.dstAddr_add, hdst]
  exact Memory.copyUp_read_periodic hc ho hk

/-! ### The end of the source (R165, R166, R186) -/

theorem step_lengthMismatch {s : State} (hh : s.host = []) (hp : s.phase = .decompressing) (hs : s.srcLen ≤ s.dec.s)
    (hn : s.dec.d ≠ s.dec.n) : step s = .next (s.raised .lengthMismatch) := by
  rw [step_of_nil hh, engineMove_decompressing hp, decompressMove_end hs, finishDecompress, if_pos hn]
  rfl

/-- Settles O18: the length check raises its error, or the command completes with the declared length. -/
theorem decompressEndsWithLengthCheck : Obligations.DecompressEndsWithLengthCheck := fun s hh hp hs =>
  ⟨fun hn => ⟨_, step_lengthMismatch hh hp hs hn, s.raised_failsTo .lengthMismatch⟩,
    fun hn => ⟨_, step_finish hh hp hs hn, rfl, rfl, rfl, rfl⟩⟩

/-! ### What a step of DECOMPRESS writes (R167) -/

/-- The engine's own step in DECOMPRESSING writes in the first `n` bytes of the destination alone: an element passes its output
check, an error loses the write range. -/
theorem EngineStep.sameOutside_declared {s t : State} (h : EngineStep s t) (hd : s.dec.d ≤ s.dec.n)
    (hp : s.phase = .decompressing) : t.mem.SameOutside s.mem (s.dstAddr 0) s.dec.n := by
  have hrange : s.writeRange = s.dec.n := by rw [State.writeRange, hp]
  cases h with
  | finish => exact Memory.sameOutside_refl s.mem _ _
  | literal tag len m _ _ hn _ _ hc =>
    exact (Memory.sameOutside_copyUp hc).mono (show s.dec.d + len ≤ s.dec.n by omega)
  | copy tag o len m _ _ _ _ hn _ hc => exact (Memory.sameOutside_copyUp hc).mono hn
  | elementError k d => exact hrange ▸ (s.pastHeader k).raised_sameOutside d
  | mismatch => exact hrange ▸ s.raised_sameOutside _
  | idle hp' | miss _ hp' | hit _ _ _ hp' | hitError _ _ _ _ hp' | flush _ hp' | flushError _ _ hp' =>
    cases hp.symm.trans hp'

/-- Settles O19, from every way the engine's own step answers a next state. -/
theorem decompressWritesOnlyDeclaredLength : Obligations.DecompressWritesOnlyDeclaredLength := fun _ _ hi hh hp h =>
  (engineStep_of_next ((step_of_nil hh).symm.trans h)).sameOutside_declared (hi.decoding hp).d_le hp

end Sys2Proof.Machine

/-! PROOFS. The statements of spec 60_exceptions.md: what an error completion shows in STATUS and leaves in memory (R180, R182
to R184), and the reserved command codes (R188). -/

namespace Sys2Proof.Machine

/-! ### Error completion (R180, R182 to R184) -/

/-- The word of a cause: its detail from bit 8, its kind from bit 4, and ERR and DONE below them (R28, R184 step 1). -/
theorem Status.failed_word (e : ErrDetail) :
    (Status.failed e).word = BitVec.ofNat 64 (256 * e.code.toNat + 16 * e.kind.code.toNat + 6) := by
  apply BitVec.eq_of_toNat_eq
  rw [Status.word_toNat, BitVec.toNat_ofNat]
  simp only [Status.failed, Bool.toNat_true, Bool.toNat_false]
  omega

theorem State.loseRange_read (s : State) {i : Nat} (hi : i < s.writeRange) :
    s.loseRange.mem.read (s.dstAddr i) = some (Config.freeByte (s.freeCount + i)) := by
  have hlen : i < (freeBytes s.freeCount s.writeRange).length := by rwa [freeBytes_length]
  have haddr : s.dstAddr i = s.dstAddr 0 + i := by rw [← State.dstAddr_add, Nat.zero_add]
  rw [State.loseRange_mem, haddr, Memory.read_writeBytes_inside hlen, freeBytes_getElem hlen]

/-- An error after a byte was written leaves every byte of the write range a free value (R184 step 3). -/
theorem State.raised_read {s : State} (hw : s.hasWritten = true) (e : ErrDetail) {i : Nat} (hi : i < s.writeRange) :
    (s.raised e).mem.read (s.dstAddr i) = some (Config.freeByte (s.freeCount + i)) := by
  rw [State.raised_mem, if_pos hw]
  exact s.loseRange_read hi

/-- Settles O35, from the word of the cause and the free values of the write range. -/
theorem errorCompletionReportsCause : Obligations.ErrorCompletionReportsCause := fun e s =>
  ⟨s.raised e, rfl, Status.failed_word e ▸ s.raised_failsTo e, fun hw _ hi => State.raised_read hw e hi⟩

/-! ### The reserved command codes (R181, R188) -/

theorem Status.failed_badCommand_word : (Status.failed .badCommand).word = 0x0116 := by decide

/-- A reserved code in a free engine: steps 1 to 3 of the start and BAD_COMMAND. In IDLE nothing has been written, so no write
range is lost. -/
theorem exec_cmdReserved_free {s : State} (hb : s.status.busy = false) (op : BitVec 8) :
    exec (.cmdReserved op) s =
      .next { s with latch := s.regs, status := Status.failed .badCommand, resultLen := 0, phase := .idle } :=
  execCmdReserved_eq hb op

theorem decodeCommand_reserved {w : Word} (h1 : w.toNat % 256 ≠ 1) (h2 : w.toNat % 256 ≠ 2) :
    decodeCommand w = .cmdReserved (BitVec.ofNat 8 w.toNat) := by
  rw [commandCodeIsLowByte w, if_neg h1, if_neg h2]

/-- Settles O37: the word written to CMD decodes to a reserved command, which ends where it starts. -/
theorem reservedCodeIsBadCommand : Obligations.ReservedCodeIsBadCommand := by
  constructor
  · intro op s hb
    exact ⟨_, exec_cmdReserved_free hb op, Status.failed_badCommand_word, rfl, rfl, rfl, rfl⟩
  · intro s rest w hb h1 h2 hh
    have hstep := stepRunsCommandWritten s rest w hh
    rw [decodeCommand_reserved h1 h2, exec_cmdReserved_free (s := { s with host := rest }) hb] at hstep
    exact ⟨_, hstep, Status.failed_badCommand_word, rfl⟩

end Sys2Proof.Machine

/-! PROOFS. The statements of spec 70_reset_and_hazards.md: the reset input (R210), the idle engine and the host's poll (R212,
R213), and the steps in which a command comes to its end (R219, R220). -/

namespace Sys2Proof.Machine

/-! ### The reset input (R210) -/

theorem Status.zero_word : Status.zero.word = 0 := by decide

theorem step_reset {s : State} {rest : List HostAction} (h : s.host = .reset :: rest) :
    step s = .next (assertReset { s with host := rest }) := step_of_cons h

/-- Settles O1: the reset input gives the registers their reset values and frees the bytes of the write range alone. -/
theorem resetInputRestoresEngine : Obligations.ResetInputRestoresEngine := fun s _ h =>
  ⟨_, step_reset h, rfl, Status.zero_word, rfl, rfl, s.loseRange_sameOutside, fun _ hi => s.loseRange_read hi, rfl, rfl⟩

/-! ### The idle engine and the poll (R212, R213) -/

/-- Settles O41: with no host action the step is the engine's own, which is none in IDLE. -/
theorem idleEngineDoesNothing : Obligations.IdleEngineDoesNothing := by
  intro s hp hh
  rw [step_of_nil hh, engineMove_idle hp]
  rfl

/-- A poll of a busy engine reads STATUS, stays in the host's list and lets the engine take its step. -/
theorem step_poll_busy {s : State} {rest : List HostAction} (hb : s.status.busy = true) (h : s.host = .poll :: rest) :
    step s = (engineMove { State.observe { s with host := rest } 0x28 with host := .poll :: rest }).outcome := by
  rw [step_of_cons h]
  exact congrArg Move.outcome (if_pos hb)

/-- A poll of a free engine is a read of STATUS. -/
theorem step_poll_free {s : State} {rest : List HostAction} (hb : s.status.busy = false) (h : s.host = .poll :: rest) :
    step s = .next (State.observe { s with host := rest } 0x28) := by
  rw [step_of_cons h]
  exact congrArg Move.outcome (if_neg (Bool.eq_false_iff.mp hb))

/-- A read of the register block that does not return DONE = 1 changes the value the host has read alone. -/
theorem State.observe_of_not_done {s : State} (hd : s.status.done = false) (o : Nat) :
    s.observe o = { s with hostRead := s.readReg o } := by
  simp [State.observe, hd]

/-- Settles O45: while BUSY = 1 the engine moves as the engine action lets it; with BUSY = 0 the poll is one read of STATUS. -/
theorem pollReadsStatusUntilFree : Obligations.PollReadsStatusUntilFree := by
  intro s rest h
  refine ⟨fun hb hd => ?_, fun hb => ⟨_, step_poll_free hb h, rfl, rfl, rfl⟩⟩
  rw [step_poll_busy hb h, State.observe_of_not_done (s := { s with host := rest }) hd,
    step_of_cons (s := { s with hostRead := s.status.word, host := .engine :: .poll :: rest }) rfl]
  rfl

/-! ### The engine's own step over a readable source (R219)

Where the source can be read the step answers a next state: an error completes the command, and no byte that is read is
unwritten. -/

theorem settle_next (before : State) (r : Except ErrDetail State) : ∃ t, settle before r = .next t := by
  cases r <;> exact ⟨_, rfl⟩

/-- A turn of the scan reads the positions before the end of the source alone. -/
theorem scanTurn_next {s : State} (hsc : s.Scanning) (hsrc : s.SourceReadable) (hs : s.comp.s + 3 < s.srcLen) :
    ∃ t, scanTurn s = .next t := by
  have hlit := hsc.lit_le
  obtain ⟨w, hh⟩ := hashAt_isSome (fun i hi => hsrc (s.comp.s + i) (by omega)) s.shift
  have hv := hsc.scanned _ (hsc.hash_lt hh)
  generalize hashIndex s.shift w = h at hh hv
  obtain ⟨b, hm⟩ := matchTest_isSome (v := s.table.get h) (fun i hi => hsrc _ (by omega))
    (fun i hi => hsrc (s.comp.s + i) (by omega))
  cases b with
  | false => exact ⟨_, scanTurn_miss hh hm⟩
  | true =>
    obtain ⟨run, hr⟩ := sourceRun_isSome (lo := s.comp.lit) (n := s.comp.s - s.comp.lit) (fun i hi => hsrc _ (by omega))
    obtain ⟨e, he⟩ := extendMatch_isSome (fuel := s.srcLen - (s.comp.s + 4)) (s := s.comp.s + 4) (t := s.table.get h - 1 + 4)
      (fun i hi => hsrc _ (by omega)) (fun i hi => hsrc _ (by omega))
    simp only [scanTurn, hh, hm, hr, he]
    exact settle_next _ _

theorem finalFlush_next {s : State} (hsc : s.Scanning) (hsrc : s.SourceReadable) : ∃ t, finalFlush s = .next t := by
  have hlit := hsc.lit_le
  have hle := hsc.s_le
  obtain ⟨run, hr⟩ := sourceRun_isSome (lo := s.comp.lit) (n := s.srcLen - s.comp.lit) (fun i hi => hsrc _ (by omega))
  rcases finalFlush_cases s with ⟨hnone, -⟩ | ⟨run', -, ⟨-, h⟩ | ⟨-, h⟩ | ⟨-, h⟩⟩
  · cases hr.symm.trans hnone
  · exact ⟨_, h⟩
  · exact ⟨_, h⟩
  · exact ⟨_, h⟩

theorem compressStep_next {s : State} (hsc : s.Scanning) (hsrc : s.SourceReadable) : ∃ t, compressStep s = .next t := by
  by_cases hs : s.comp.s + 3 < s.srcLen
  · rw [compressStep_scan hs]; exact scanTurn_next hsc hsrc hs
  · rw [compressStep_flush (Nat.not_lt.mp hs)]; exact finalFlush_next hsc hsrc

theorem State.SourceReadable.read_isSome {s : State} (h : s.SourceReadable) {lo i : Nat} (hi : lo + i < s.srcLen) :
    (s.mem.read (s.srcAddr lo + i)).isSome := by
  rw [← State.srcAddr_add]; exact h (lo + i) hi

/-- A literal's data lies in the source when it passes its source check. -/
theorem literalAt_next {s : State} (hsrc : s.SourceReadable) (len : Nat) : ∃ t, literalAt len s = .next t := by
  rcases literalAt_cases len s with ⟨-, h⟩ | ⟨-, -, h⟩ | ⟨-, hs, ⟨hnone, -⟩ | ⟨m, -, h⟩⟩
  · exact ⟨_, h⟩
  · exact ⟨_, h⟩
  · obtain ⟨m, hc⟩ := Memory.copyUp_isSome_of_readable (src := s.srcAddr s.dec.s) (dst := s.dstAddr s.dec.d) (len := len)
      (fun i hi => hsrc.read_isSome (by omega))
    cases hc.symm.trans hnone
  · exact ⟨_, h⟩

/-- A copy replays output that has been produced, or that it produces itself. -/
theorem copyAt_next {s : State} (hw : ∀ i < s.dec.d, (s.mem.read (s.dstAddr i)).isSome) (offset len : Nat) :
    ∃ t, copyAt offset len s = .next t := by
  rcases copyAt_cases offset len s with ⟨-, h⟩ | ⟨-, -, h⟩ | ⟨-, -, -, h⟩ | ⟨ho, hd, -, ⟨hnone, -⟩ | ⟨m, -, h⟩⟩
  · exact ⟨_, h⟩
  · exact ⟨_, h⟩
  · exact ⟨_, h⟩
  · have hdst : s.dstAddr s.dec.d = s.dstAddr (s.dec.d - offset) + offset := by
      rw [← State.dstAddr_add, Nat.sub_add_cancel hd]
    obtain ⟨m, hc⟩ := Memory.copyUp_isSome (m := s.mem) (src := s.dstAddr (s.dec.d - offset)) (dst := s.dstAddr s.dec.d)
      (len := len) (by omega) (fun i _ hlt => s.dstAddr_add _ i ▸ hw (s.dec.d - offset + i) (by omega))
    cases hc.symm.trans hnone
  · exact ⟨_, h⟩

/-- Whatever element stands at the cursor, it answers a next state. -/
theorem exec_elementOf_next {s : State} (hd : s.Decoding) (hsrc : s.SourceReadable) (tag : Byte) (ext : List Byte) :
    ∃ t, exec (elementOf tag ext) s = .next t := by
  rcases elementOf_cases tag ext with ⟨len, hi⟩ | ⟨o, len, hi⟩ | ⟨r, hi⟩
  · rw [(exec_literal hi s).1]; exact literalAt_next (s := s.pastHeader _) hsrc len
  · rw [(exec_copy hi s).1]; exact copyAt_next (s := s.pastHeader _) hd.written o len
  · rw [hi]; exact ⟨_, rfl⟩

/-- The tag at the cursor lies in the source, and the extension bytes are read when they do. -/
theorem fetchElement_next {s : State} (hd : s.Decoding) (hsrc : s.SourceReadable) (hs : s.dec.s < s.srcLen) :
    ∃ t, (fetchElement s).outcome = .next t := by
  obtain ⟨tag, ht⟩ := Option.isSome_iff_exists.mp (hsrc s.dec.s hs)
  by_cases hx : s.srcLen < s.dec.s + 1 + extCount tag
  · rw [fetchElement_truncated ht hx]; exact ⟨_, rfl⟩
  · obtain ⟨ext, he⟩ := Memory.readBytes_isSome (m := s.mem) (a := s.srcAddr (s.dec.s + 1)) (n := extCount tag)
      (fun i hi => hsrc.read_isSome (by omega))
    rw [fetchElement_run ht (Nat.not_lt.mp hx) he]
    exact exec_elementOf_next hd hsrc tag ext

theorem finishDecompress_next (s : State) : ∃ t, finishDecompress s = .next t := by
  unfold finishDecompress; split <;> exact ⟨_, rfl⟩

theorem decompressMove_next {s : State} (hd : s.Decoding) (hsrc : s.SourceReadable) :
    ∃ t, (decompressMove s).outcome = .next t := by
  by_cases hs : s.dec.s < s.srcLen
  · rw [decompressMove_fetch hs]; exact fetchElement_next hd hsrc hs
  · rw [decompressMove_end (Nat.not_lt.mp hs)]; exact finishDecompress_next s

/-- From a state of the invariant with a readable source the engine's own step does not stop. -/
theorem State.Inv.engineMove_next {s : State} (hi : s.Inv) (hsrc : s.SourceReadable) :
    ∃ t, (engineMove s).outcome = .next t := by
  cases hp : s.phase with
  | idle => rw [engineMove_idle hp]; exact ⟨s, rfl⟩
  | compressing => rw [engineMove_compressing hp]; exact compressStep_next (hi.scanning hp) hsrc
  | decompressing => rw [engineMove_decompressing hp]; exact decompressMove_next (hi.decoding hp) hsrc

/-! ### A command comes to its end (R219, R220) -/

/-- How many bytes of the source the running command has not scanned or decoded yet. -/
def State.sourceLeft (s : State) : Nat :=
  match s.phase with
  | .idle => 0
  | .compressing => s.srcLen - s.comp.s
  | .decompressing => s.srcLen - s.dec.s

theorem State.sourceLeft_compressing {s : State} (h : s.phase = .compressing) : s.sourceLeft = s.srcLen - s.comp.s := by
  rw [State.sourceLeft, h]

theorem State.sourceLeft_decompressing {s : State} (h : s.phase = .decompressing) : s.sourceLeft = s.srcLen - s.dec.s := by
  rw [State.sourceLeft, h]

/-- A COMPRESS whose cursor moves forward has less of the source left. -/
theorem State.sourceLeft_lt_compressing {s t : State} (hp : s.phase = .compressing) (ht : t.phase = .compressing)
    (hlen : t.srcLen = s.srcLen) (hs : s.comp.s < s.srcLen) (hlt : s.comp.s < t.comp.s) : t.sourceLeft < s.sourceLeft := by
  rw [sourceLeft_compressing hp, sourceLeft_compressing ht, hlen]
  omega

/-- A DECOMPRESS whose cursor moves forward has less of the source left. -/
theorem State.sourceLeft_lt_decompressing {s t : State} (hp : s.phase = .decompressing) (ht : t.phase = .decompressing)
    (hlen : t.srcLen = s.srcLen) (hs : s.dec.s < s.srcLen) (hlt : s.dec.s < t.dec.s) : t.sourceLeft < s.sourceLeft := by
  rw [sourceLeft_decompressing hp, sourceLeft_decompressing ht, hlen]
  omega

/-- The engine's step in a running command completes it, or goes on with less of the source left. -/
theorem EngineStep.completes_or_advances {s t : State} (h : EngineStep s t) (hp : s.phase ≠ .idle) :
    t.phase = .idle ∧ t.status.done = true ∨ t.phase ≠ .idle ∧ t.sourceLeft < s.sourceLeft := by
  cases h with
  | idle hidle => exact absurd hidle hp
  | hitError | flush | flushError | elementError | finish | mismatch => exact .inl ⟨rfl, rfl⟩
  | miss h hc hs => exact .inr ⟨hp, State.sourceLeft_lt_compressing hc hc rfl (by omega) (Nat.lt_succ_self s.comp.s)⟩
  | hit h e run hc hs _ _ _ he =>
    obtain ⟨h4, -, -, -⟩ := extendMatch_eq_some he
    exact .inr ⟨hp, State.sourceLeft_lt_compressing hc hc rfl (by omega) (show s.comp.s < e by omega)⟩
  | literal tag len m hd _ _ _ hs =>
    exact .inr ⟨hp, State.sourceLeft_lt_decompressing hd hd rfl (by omega)
      (show s.dec.s < s.dec.s + (1 + extCount tag) + len by omega)⟩
  | copy tag o len m hd _ _ _ _ hs =>
    exact .inr ⟨hp, State.sourceLeft_lt_decompressing hd hd rfl (by omega)
      (show s.dec.s < s.dec.s + (1 + extCount tag) by omega)⟩

/-- A running command's source stays readable: no step of the engine changes a byte of it (R53). -/
theorem EngineStep.sourceReadable {s t : State} (h : EngineStep s t) (hi : s.Inv) (hp : s.phase ≠ .idle)
    (hstep : step s = .next t) (hsrc : s.SourceReadable) : t.SourceReadable := by
  intro i hlt
  have hlen : t.srcLen = s.srcLen := congrArg (·.srcLen.toNat) h.latch_eq
  have haddr : t.srcAddr i = s.srcAddr i := congrArg (·.srcAddr.toNat + i) h.latch_eq
  have hs : i < s.srcLen := hlen ▸ hlt
  rw [State.src, haddr, sourceKeptDuringCommand s t _ hi (hi.busy_of_phase hp) (State.inSrc_srcAddr hs) hstep]
  exact hsrc i hs

/-- A running command with a readable source comes to rest, since each step but the last leaves less of the source. -/
theorem State.Inv.comes_to_rest {s : State} {k : Nat} (hi : s.Inv) (hp : s.phase ≠ .idle) (hh : s.host = [])
    (hsrc : s.SourceReadable) (hk : s.sourceLeft < k) : ∃ t, s.RestsIn k t ∧ t.status.done = true := by
  induction k generalizing s with
  | zero => exact absurd hk (Nat.not_lt_zero _)
  | succ k ih =>
    obtain ⟨u, hu⟩ := hi.engineMove_next hsrc
    have hstep : step s = .next u := (step_of_nil hh).trans hu
    have he := engineStep_of_next hu
    rcases he.completes_or_advances hp with ⟨hidle, hdone⟩ | ⟨hrun, hlt⟩
    · exact ⟨u, .of_step hstep (.of_idle hidle k), hdone⟩
    · obtain ⟨t, ht, hdone⟩ := ih (he.inv hi) hrun (he.host_eq.trans hh) (he.sourceReadable hi hp hstep hsrc) (by omega)
      exact ⟨t, .of_step hstep ht, hdone⟩

/-- Settles O52: a step of a running command completes it or leaves less of the source, by induction on what is left. -/
theorem commandsEndInBoundedSteps : Obligations.CommandsEndInBoundedSteps := fun s hi hh hsrc =>
  ⟨fun hp => hi.comes_to_rest (by simp [hp]) hh hsrc (Nat.lt_succ_of_le (State.sourceLeft_compressing hp).le),
    fun hp => hi.comes_to_rest (by simp [hp]) hh hsrc (Nat.lt_succ_of_le (State.sourceLeft_decompressing hp).le)⟩

end Sys2Proof.Machine
